-- ==== Sys2Proof/Word.lean ====
section
/-! DEFINITION. The words the CORE moves: bus and command words, slots, slot numbers, immediates. -/

namespace Sys2Proof

/-- A 64-bit bus word, register or command word (00_scope.md R10). -/
abbrev Word := BitVec 64

/-- One byte lane of the bus (20_memory.md R77). -/
abbrev Byte := BitVec 8

/-- The content of a slot: a 384-bit unsigned integer (10_state.md R30). -/
abbrev SlotVal := BitVec 384

/-- A base slot number in a command word (30_encoding.md R101). -/
abbrev SlotNo := BitVec 8

/-- An unsigned 8-bit immediate, never sign-extended (30_encoding.md R101). -/
abbrev Imm := BitVec 8

end Sys2Proof
end

