-- ==== Sys2Proof/Config.lean ====
section
/-! DEFINITION. What is fixed for the machine or left open by the spec: the reference NSLOTS, the
identification constants, the version, and the free value of a slot read while busy. -/

namespace Sys2Proof.Config

/-- NSLOTS of the reference configuration (00_scope.md R7). State carries the machine's own NSLOTS;
this is only the value in `State.reset`. DESIGN CHOICE, unsafe: log entry 1. -/
def nslotsReference : Nat := 256

/-- BASE in `State.reset`; the platform sets it (00_scope.md R9). DESIGN CHOICE, unsafe: log entry 2. -/
def baseReference : Nat := 0

/-- The ID register (10_state.md R41). -/
def idWord : Word := 0x424C533132333831#64

/-- The command-set version in PARAM[23:16] (10_state.md R44). -/
def version : BitVec 8 := 1#8

/-- The unspecified value of the n-th host read of the slot window while BUSY = 1
(70_reset_and_hazards.md R449: "a draw: any value, under no law"). No body: nothing can be proved of
it. Free value, safe: log entry 5. -/
opaque freeRead : Nat → Word

end Sys2Proof.Config
end

