-- ==== Sys2Proof/Syntax.lean ====
section
/-! DEFINITION. The commands of the CORE: one constructor per row of the opcode table
(30_encoding.md R120). Arguments stand in the order D, A, B, C, E, F, CHK of the fields the row uses;
slot fields are base slot numbers, immediates are raw 8-bit values. -/

namespace Sys2Proof

/-- A decoded command. -/
inductive Instr where
  -- 40_data.md
  /-- NOP, opcode 0x00 (R140). -/
  | nop
  /-- MOV, opcode 0x01 (R141). -/
  | mov (d a : SlotNo) (n : Imm)
  /-- ZERO, opcode 0x02 (R142). -/
  | zero (d : SlotNo) (n : Imm)
  /-- CONST, opcode 0x03 (R143). -/
  | const (d : SlotNo) (id : Imm)
  -- 41_fp.md
  /-- FP_ADD, opcode 0x10 (R151). -/
  | fpAdd (d a b : SlotNo)
  /-- FP_SUB, opcode 0x11 (R152). -/
  | fpSub (d a b : SlotNo)
  /-- FP_DBL, opcode 0x12 (R153). -/
  | fpDbl (d a : SlotNo)
  /-- FP_NEG, opcode 0x13 (R154). -/
  | fpNeg (d a : SlotNo)
  /-- FP_MUL, opcode 0x14 (R155). -/
  | fpMul (d a b : SlotNo)
  /-- FP_SQR, opcode 0x15 (R156). -/
  | fpSqr (d a : SlotNo)
  /-- FP_MONT, opcode 0x16 (R157). -/
  | fpMont (d a : SlotNo)
  /-- FP_DEMONT, opcode 0x17 (R158). -/
  | fpDemont (d a : SlotNo)
  /-- FP_REDC, opcode 0x18 (R160). -/
  | fpRedc (d a b : SlotNo)
  /-- FP_EXP, opcode 0x19 (R161). -/
  | fpExp (d a b : SlotNo)
  /-- FP_INVUP, opcode 0x1A (R162). -/
  | fpInvup (d a : SlotNo)
  /-- FP_INVDOWN, opcode 0x1B (R163). -/
  | fpInvdown (d a : SlotNo)
  /-- FP_INVEEA, opcode 0x1C (R164). -/
  | fpInveea (d a : SlotNo)
  /-- FP_SQRT, opcode 0x1D (R165). -/
  | fpSqrt (d a : SlotNo)
  /-- FP_EQ, opcode 0x1E (R166). -/
  | fpEq (a b : SlotNo)
  /-- FP_ISZERO, opcode 0x1F (R167). -/
  | fpIszero (a : SlotNo)
  -- 42_fp2.md
  /-- FP2_ADD, opcode 0x20 (R201). -/
  | fp2Add (d a b : SlotNo)
  /-- FP2_SUB, opcode 0x21 (R202). -/
  | fp2Sub (d a b : SlotNo)
  /-- FP2_DBL, opcode 0x22 (R203). -/
  | fp2Dbl (d a : SlotNo)
  /-- FP2_NEG, opcode 0x23 (R204). -/
  | fp2Neg (d a : SlotNo)
  /-- FP2_MUL, opcode 0x24 (R205). -/
  | fp2Mul (d a b : SlotNo)
  /-- FP2_SQR, opcode 0x25 (R206). -/
  | fp2Sqr (d a : SlotNo)
  /-- FP2_MULNR, opcode 0x26 (R207). -/
  | fp2Mulnr (d a : SlotNo)
  /-- FP2_INV, opcode 0x27 (R208). -/
  | fp2Inv (d a : SlotNo)
  /-- FP2_EXP, opcode 0x28 (R209). -/
  | fp2Exp (d a b : SlotNo)
  /-- FP2_SQRT, opcode 0x29 (R210). -/
  | fp2Sqrt (d a : SlotNo)
  /-- FP2_EQ, opcode 0x2A (R211). -/
  | fp2Eq (a b : SlotNo)
  /-- FP2_ISZERO, opcode 0x2B (R212). -/
  | fp2Iszero (a : SlotNo)
  -- 43_fp6.md
  /-- FP6_ADD, opcode 0x30 (R231). -/
  | fp6Add (d a b : SlotNo)
  /-- FP6_SUB, opcode 0x31 (R232). -/
  | fp6Sub (d a b : SlotNo)
  /-- FP6_DBL, opcode 0x32 (R233). -/
  | fp6Dbl (d a : SlotNo)
  /-- FP6_NEG, opcode 0x33 (R234). -/
  | fp6Neg (d a : SlotNo)
  /-- FP6_MUL, opcode 0x34 (R235). -/
  | fp6Mul (d a b : SlotNo)
  /-- FP6_SQR, opcode 0x35 (R236). -/
  | fp6Sqr (d a : SlotNo)
  /-- FP6_MULBY01, opcode 0x36 (R237). -/
  | fp6Mulby01 (d a b : SlotNo)
  /-- FP6_MULBY1, opcode 0x37 (R238). -/
  | fp6Mulby1 (d a : SlotNo)
  /-- FP6_MULNR, opcode 0x38 (R239). -/
  | fp6Mulnr (d a : SlotNo)
  /-- FP6_INV, opcode 0x39 (R240). -/
  | fp6Inv (d a : SlotNo)
  /-- FP6_FROB, opcode 0x3A (R241). -/
  | fp6Frob (d a : SlotNo) (k : Imm)
  /-- FP6_EQ, opcode 0x3B (R242). -/
  | fp6Eq (a b : SlotNo)
  /-- FP6_ISZERO, opcode 0x3C (R243). -/
  | fp6Iszero (a : SlotNo)
  -- 44_fp12.md
  /-- FP12_ADD, opcode 0x40 (R261). -/
  | fp12Add (d a b : SlotNo)
  /-- FP12_SUB, opcode 0x41 (R262). -/
  | fp12Sub (d a b : SlotNo)
  /-- FP12_DBL, opcode 0x42 (R263). -/
  | fp12Dbl (d a : SlotNo)
  /-- FP12_NEG, opcode 0x43 (R264). -/
  | fp12Neg (d a : SlotNo)
  /-- FP12_MUL, opcode 0x44 (R265). -/
  | fp12Mul (d a b : SlotNo)
  /-- FP12_SQR, opcode 0x45 (R266). -/
  | fp12Sqr (d a : SlotNo)
  /-- FP12_CYCSQR, opcode 0x46 (R267). -/
  | fp12Cycsqr (d a : SlotNo)
  /-- FP12_MULBY014, opcode 0x47 (R268). -/
  | fp12Mulby014 (d a b c : SlotNo)
  /-- FP12_MULBY034, opcode 0x48 (R269). -/
  | fp12Mulby034 (d a b c : SlotNo)
  /-- FP12_INV, opcode 0x49 (R270). -/
  | fp12Inv (d a : SlotNo)
  /-- FP12_CONJ, opcode 0x4A (R271). -/
  | fp12Conj (d a : SlotNo)
  /-- FP12_FROB, opcode 0x4B (R272). -/
  | fp12Frob (d a : SlotNo) (k : Imm)
  /-- FP12_EXP, opcode 0x4C (R273). -/
  | fp12Exp (d a b : SlotNo)
  /-- FP12_EQ, opcode 0x4D (R274). -/
  | fp12Eq (a b : SlotNo)
  /-- FP12_ISZERO, opcode 0x4E (R275). -/
  | fp12Iszero (a : SlotNo)
  -- 45_g1.md
  /-- G1_DBL, opcode 0x50 (R305). -/
  | g1Dbl (d a : SlotNo)
  /-- G1_ADD, opcode 0x51 (R306). -/
  | g1Add (d a b : SlotNo)
  /-- G1_NEG, opcode 0x52 (R307). -/
  | g1Neg (d a : SlotNo)
  /-- G1_AFFINE, opcode 0x53 (R308). -/
  | g1Affine (d a : SlotNo)
  /-- G1_MUL, opcode 0x54 (R309). -/
  | g1Mul (d a b : SlotNo)
  /-- G1_ISZERO, opcode 0x55 (R310). -/
  | g1Iszero (a : SlotNo)
  /-- G1_ONCURVE, opcode 0x56 (R311). -/
  | g1Oncurve (a : SlotNo)
  /-- G1_INSUB, opcode 0x57 (R312). -/
  | g1Insub (a : SlotNo)
  /-- G1_EQ, opcode 0x58 (R313). -/
  | g1Eq (a b : SlotNo)
  -- 46_g2.md
  /-- G2_DBL, opcode 0x60 (R331). -/
  | g2Dbl (d a : SlotNo)
  /-- G2_ADD, opcode 0x61 (R332). -/
  | g2Add (d a b : SlotNo)
  /-- G2_NEG, opcode 0x62 (R333). -/
  | g2Neg (d a : SlotNo)
  /-- G2_AFFINE, opcode 0x63 (R334). -/
  | g2Affine (d a : SlotNo)
  /-- G2_MUL, opcode 0x64 (R335). -/
  | g2Mul (d a b : SlotNo)
  /-- G2_ISZERO, opcode 0x65 (R336). -/
  | g2Iszero (a : SlotNo)
  /-- G2_ONCURVE, opcode 0x66 (R337). -/
  | g2Oncurve (a : SlotNo)
  /-- G2_INSUB, opcode 0x67 (R338). -/
  | g2Insub (a : SlotNo)
  /-- G2_EQ, opcode 0x68 (R339). -/
  | g2Eq (a b : SlotNo)
  -- 47_pairing.md
  /-- LINE_DBL, opcode 0x70 (R364). -/
  | lineDbl (d a b : SlotNo)
  /-- LINE_ADD, opcode 0x71 (R365). -/
  | lineAdd (d a b c : SlotNo)
  /-- MILLER, opcode 0x72 (R367). -/
  | miller (d a b : SlotNo) (n1 n2 : Imm) (chk : Bool)
  /-- FINALEXP, opcode 0x73 (R369). -/
  | finalexp (d a : SlotNo)
  /-- PAIR, opcode 0x74 (R370). -/
  | pair (d a b : SlotNo) (n1 n2 : Imm) (chk : Bool)
deriving DecidableEq, Repr

end Sys2Proof
end

