-- ==== Sys2Proof/WellFormed.lean ====
section
/-! DEFINITION. The conditions a command meets in its word alone, beyond its layout: a CONST id that
the constant table defines (30_encoding.md R108) and equal lengths of the two point arrays of MILLER
and PAIR (30_encoding.md R109). A command that decodes but fails one of them is aborted with
RESERVED_FIELD or LENGTH_MISMATCH (60_exceptions.md R403.4, R404). -/

namespace Sys2Proof

/-- The defined CONST ids are 0x01 to 0x0F (30_encoding.md R108). -/
def constIdDefined (id : Imm) : Bool := 1 ≤ id.toNat && id.toNat ≤ 15

/-- The command-word conditions of 60_exceptions.md R403.4 and R404. -/
def Instr.wellFormed : Instr → Bool
  | .const _ id => constIdDefined id
  | .miller _ _ _ n1 n2 _ => n1 == n2
  | .pair _ _ _ n1 n2 _ => n1 == n2
  | .nop | .mov .. | .zero ..
  | .fpAdd .. | .fpSub .. | .fpDbl .. | .fpNeg .. | .fpMul .. | .fpSqr .. | .fpMont .. | .fpDemont ..
  | .fpRedc .. | .fpExp .. | .fpInvup .. | .fpInvdown .. | .fpInveea .. | .fpSqrt .. | .fpEq .. | .fpIszero ..
  | .fp2Add .. | .fp2Sub .. | .fp2Dbl .. | .fp2Neg .. | .fp2Mul .. | .fp2Sqr .. | .fp2Mulnr .. | .fp2Inv ..
  | .fp2Exp .. | .fp2Sqrt .. | .fp2Eq .. | .fp2Iszero ..
  | .fp6Add .. | .fp6Sub .. | .fp6Dbl .. | .fp6Neg .. | .fp6Mul .. | .fp6Sqr .. | .fp6Mulby01 .. | .fp6Mulby1 ..
  | .fp6Mulnr .. | .fp6Inv .. | .fp6Frob .. | .fp6Eq .. | .fp6Iszero ..
  | .fp12Add .. | .fp12Sub .. | .fp12Dbl .. | .fp12Neg .. | .fp12Mul .. | .fp12Sqr .. | .fp12Cycsqr ..
  | .fp12Mulby014 .. | .fp12Mulby034 .. | .fp12Inv .. | .fp12Conj .. | .fp12Frob .. | .fp12Exp .. | .fp12Eq ..
  | .fp12Iszero ..
  | .g1Dbl .. | .g1Add .. | .g1Neg .. | .g1Affine .. | .g1Mul .. | .g1Iszero .. | .g1Oncurve .. | .g1Insub ..
  | .g1Eq ..
  | .g2Dbl .. | .g2Add .. | .g2Neg .. | .g2Affine .. | .g2Mul .. | .g2Iszero .. | .g2Oncurve .. | .g2Insub ..
  | .g2Eq ..
  | .lineDbl .. | .lineAdd .. | .finalexp .. => true

end Sys2Proof
end

