-- ==== Sys2Proof/Decode.lean ====
section
/-! DEFINITION. The command word: fields, the opcode table, the decoder, and the encoder
(30_encoding.md R100-R107, R120). Decoding is total: every 64-bit word is a command or is rejected by
name, in the order of 60_exceptions.md R409. -/

namespace Sys2Proof

/-- The fields of a command word (30_encoding.md R101). -/
structure Fields where
  op : BitVec 8
  d : SlotNo := 0#8
  a : SlotNo := 0#8
  b : SlotNo := 0#8
  c : SlotNo := 0#8
  e : Imm := 0#8
  f : Imm := 0#8
  chk : Bool := false
  rsv : BitVec 7 := 0#7
deriving DecidableEq, Repr

/-- The fields of a 64-bit command word, bit ranges of 30_encoding.md R101. -/
def fieldsOf (w : Word) : Fields where
  op := w.extractLsb' 0 8
  d := w.extractLsb' 8 8
  a := w.extractLsb' 16 8
  b := w.extractLsb' 24 8
  c := w.extractLsb' 32 8
  e := w.extractLsb' 40 8
  f := w.extractLsb' 48 8
  chk := w.getLsbD 56
  rsv := w.extractLsb' 57 7

/-- The 64-bit command word of given fields (30_encoding.md R101). -/
def packFields (f : Fields) : Word :=
  f.rsv ++ BitVec.ofBool f.chk ++ f.f ++ f.e ++ f.c ++ f.b ++ f.a ++ f.d ++ f.op

/-- The name of a field, as ERRINFO.OPERAND reports it (10_state.md R46). -/
inductive FieldName where
  | none | d | a | b | c | e | f
  /-- the CHK bit or bits 63:57 -/
  | x
deriving DecidableEq, Repr

/-- ERRINFO.OPERAND (10_state.md R46). -/
def FieldName.code : FieldName → BitVec 3
  | .none => 0#3
  | .d => 1#3
  | .a => 2#3
  | .b => 3#3
  | .c => 4#3
  | .e => 5#3
  | .f => 6#3
  | .x => 7#3

/-- Which fields an opcode uses (30_encoding.md R102, R120). -/
structure FieldUse where
  d : Bool := false
  a : Bool := false
  b : Bool := false
  c : Bool := false
  e : Bool := false
  f : Bool := false
  chk : Bool := false
deriving DecidableEq, Repr

def noFields : FieldUse := { }
def useA : FieldUse := { a := true }
def useAB : FieldUse := { a := true, b := true }
def useDA : FieldUse := { d := true, a := true }
def useDE : FieldUse := { d := true, e := true }
def useDAE : FieldUse := { d := true, a := true, e := true }
def useDAB : FieldUse := { d := true, a := true, b := true }
def useDABC : FieldUse := { d := true, a := true, b := true, c := true }
/-- MILLER and PAIR: two lengths and CHK. -/
def useDABEFk : FieldUse := { d := true, a := true, b := true, e := true, f := true, chk := true }

/-- One row of the opcode table: the opcode, the fields it uses, the command it stands for. -/
structure OpRow where
  op : BitVec 8
  uses : FieldUse
  build : Fields → Instr

/-- The rows of the data group (30_encoding.md R120). -/
def dataRows : List OpRow :=
  [⟨0x00#8, noFields, fun _ => .nop⟩,
   ⟨0x01#8, useDAE, fun f => .mov f.d f.a f.e⟩,
   ⟨0x02#8, useDE, fun f => .zero f.d f.e⟩,
   ⟨0x03#8, useDE, fun f => .const f.d f.e⟩]

/-- The rows of the fp group (30_encoding.md R120). -/
def fpRows : List OpRow :=
  [⟨0x10#8, useDAB, fun f => .fpAdd f.d f.a f.b⟩,
   ⟨0x11#8, useDAB, fun f => .fpSub f.d f.a f.b⟩,
   ⟨0x12#8, useDA, fun f => .fpDbl f.d f.a⟩,
   ⟨0x13#8, useDA, fun f => .fpNeg f.d f.a⟩,
   ⟨0x14#8, useDAB, fun f => .fpMul f.d f.a f.b⟩,
   ⟨0x15#8, useDA, fun f => .fpSqr f.d f.a⟩,
   ⟨0x16#8, useDA, fun f => .fpMont f.d f.a⟩,
   ⟨0x17#8, useDA, fun f => .fpDemont f.d f.a⟩,
   ⟨0x18#8, useDAB, fun f => .fpRedc f.d f.a f.b⟩,
   ⟨0x19#8, useDAB, fun f => .fpExp f.d f.a f.b⟩,
   ⟨0x1A#8, useDA, fun f => .fpInvup f.d f.a⟩,
   ⟨0x1B#8, useDA, fun f => .fpInvdown f.d f.a⟩,
   ⟨0x1C#8, useDA, fun f => .fpInveea f.d f.a⟩,
   ⟨0x1D#8, useDA, fun f => .fpSqrt f.d f.a⟩,
   ⟨0x1E#8, useAB, fun f => .fpEq f.a f.b⟩,
   ⟨0x1F#8, useA, fun f => .fpIszero f.a⟩]

/-- The rows of the fp2 group (30_encoding.md R120). -/
def fp2Rows : List OpRow :=
  [⟨0x20#8, useDAB, fun f => .fp2Add f.d f.a f.b⟩,
   ⟨0x21#8, useDAB, fun f => .fp2Sub f.d f.a f.b⟩,
   ⟨0x22#8, useDA, fun f => .fp2Dbl f.d f.a⟩,
   ⟨0x23#8, useDA, fun f => .fp2Neg f.d f.a⟩,
   ⟨0x24#8, useDAB, fun f => .fp2Mul f.d f.a f.b⟩,
   ⟨0x25#8, useDA, fun f => .fp2Sqr f.d f.a⟩,
   ⟨0x26#8, useDA, fun f => .fp2Mulnr f.d f.a⟩,
   ⟨0x27#8, useDA, fun f => .fp2Inv f.d f.a⟩,
   ⟨0x28#8, useDAB, fun f => .fp2Exp f.d f.a f.b⟩,
   ⟨0x29#8, useDA, fun f => .fp2Sqrt f.d f.a⟩,
   ⟨0x2A#8, useAB, fun f => .fp2Eq f.a f.b⟩,
   ⟨0x2B#8, useA, fun f => .fp2Iszero f.a⟩]

/-- The rows of the fp6 group (30_encoding.md R120). -/
def fp6Rows : List OpRow :=
  [⟨0x30#8, useDAB, fun f => .fp6Add f.d f.a f.b⟩,
   ⟨0x31#8, useDAB, fun f => .fp6Sub f.d f.a f.b⟩,
   ⟨0x32#8, useDA, fun f => .fp6Dbl f.d f.a⟩,
   ⟨0x33#8, useDA, fun f => .fp6Neg f.d f.a⟩,
   ⟨0x34#8, useDAB, fun f => .fp6Mul f.d f.a f.b⟩,
   ⟨0x35#8, useDA, fun f => .fp6Sqr f.d f.a⟩,
   ⟨0x36#8, useDAB, fun f => .fp6Mulby01 f.d f.a f.b⟩,
   ⟨0x37#8, useDA, fun f => .fp6Mulby1 f.d f.a⟩,
   ⟨0x38#8, useDA, fun f => .fp6Mulnr f.d f.a⟩,
   ⟨0x39#8, useDA, fun f => .fp6Inv f.d f.a⟩,
   ⟨0x3A#8, useDAE, fun f => .fp6Frob f.d f.a f.e⟩,
   ⟨0x3B#8, useAB, fun f => .fp6Eq f.a f.b⟩,
   ⟨0x3C#8, useA, fun f => .fp6Iszero f.a⟩]

/-- The rows of the fp12 group (30_encoding.md R120). -/
def fp12Rows : List OpRow :=
  [⟨0x40#8, useDAB, fun f => .fp12Add f.d f.a f.b⟩,
   ⟨0x41#8, useDAB, fun f => .fp12Sub f.d f.a f.b⟩,
   ⟨0x42#8, useDA, fun f => .fp12Dbl f.d f.a⟩,
   ⟨0x43#8, useDA, fun f => .fp12Neg f.d f.a⟩,
   ⟨0x44#8, useDAB, fun f => .fp12Mul f.d f.a f.b⟩,
   ⟨0x45#8, useDA, fun f => .fp12Sqr f.d f.a⟩,
   ⟨0x46#8, useDA, fun f => .fp12Cycsqr f.d f.a⟩,
   ⟨0x47#8, useDABC, fun f => .fp12Mulby014 f.d f.a f.b f.c⟩,
   ⟨0x48#8, useDABC, fun f => .fp12Mulby034 f.d f.a f.b f.c⟩,
   ⟨0x49#8, useDA, fun f => .fp12Inv f.d f.a⟩,
   ⟨0x4A#8, useDA, fun f => .fp12Conj f.d f.a⟩,
   ⟨0x4B#8, useDAE, fun f => .fp12Frob f.d f.a f.e⟩,
   ⟨0x4C#8, useDAB, fun f => .fp12Exp f.d f.a f.b⟩,
   ⟨0x4D#8, useAB, fun f => .fp12Eq f.a f.b⟩,
   ⟨0x4E#8, useA, fun f => .fp12Iszero f.a⟩]

/-- The rows of the g1 group (30_encoding.md R120). -/
def g1Rows : List OpRow :=
  [⟨0x50#8, useDA, fun f => .g1Dbl f.d f.a⟩,
   ⟨0x51#8, useDAB, fun f => .g1Add f.d f.a f.b⟩,
   ⟨0x52#8, useDA, fun f => .g1Neg f.d f.a⟩,
   ⟨0x53#8, useDA, fun f => .g1Affine f.d f.a⟩,
   ⟨0x54#8, useDAB, fun f => .g1Mul f.d f.a f.b⟩,
   ⟨0x55#8, useA, fun f => .g1Iszero f.a⟩,
   ⟨0x56#8, useA, fun f => .g1Oncurve f.a⟩,
   ⟨0x57#8, useA, fun f => .g1Insub f.a⟩,
   ⟨0x58#8, useAB, fun f => .g1Eq f.a f.b⟩]

/-- The rows of the g2 group (30_encoding.md R120). -/
def g2Rows : List OpRow :=
  [⟨0x60#8, useDA, fun f => .g2Dbl f.d f.a⟩,
   ⟨0x61#8, useDAB, fun f => .g2Add f.d f.a f.b⟩,
   ⟨0x62#8, useDA, fun f => .g2Neg f.d f.a⟩,
   ⟨0x63#8, useDA, fun f => .g2Affine f.d f.a⟩,
   ⟨0x64#8, useDAB, fun f => .g2Mul f.d f.a f.b⟩,
   ⟨0x65#8, useA, fun f => .g2Iszero f.a⟩,
   ⟨0x66#8, useA, fun f => .g2Oncurve f.a⟩,
   ⟨0x67#8, useA, fun f => .g2Insub f.a⟩,
   ⟨0x68#8, useAB, fun f => .g2Eq f.a f.b⟩]

/-- The rows of the pairing group (30_encoding.md R120). -/
def pairingRows : List OpRow :=
  [⟨0x70#8, useDAB, fun f => .lineDbl f.d f.a f.b⟩,
   ⟨0x71#8, useDABC, fun f => .lineAdd f.d f.a f.b f.c⟩,
   ⟨0x72#8, useDABEFk, fun f => .miller f.d f.a f.b f.e f.f f.chk⟩,
   ⟨0x73#8, useDA, fun f => .finalexp f.d f.a⟩,
   ⟨0x74#8, useDABEFk, fun f => .pair f.d f.a f.b f.e f.f f.chk⟩]

/-- The opcode table (30_encoding.md R120): 83 rows, every other opcode value is illegal (R107). -/
def opTable : List OpRow :=
  dataRows ++ fpRows ++ fp2Rows ++ fp6Rows ++ fp12Rows ++ g1Rows ++ g2Rows ++ pairingRows

/-- Why a word is no command. -/
inductive DecodeError where
  /-- OP is none of the 83 opcodes (60_exceptions.md R402). -/
  | illegalOpcode
  /-- A reserved bit, or a field the opcode does not use, is nonzero (60_exceptions.md R403.1-3). -/
  | reservedField (fld : FieldName)
deriving DecidableEq, Repr

/-- The first reserved or unused field that is nonzero, in the order of 60_exceptions.md R403. -/
def reservedField (u : FieldUse) (f : Fields) : Option FieldName :=
  if f.rsv ≠ 0#7 then some .x
  else if f.chk && !u.chk then some .x
  else if !u.d && f.d ≠ 0#8 then some .d
  else if !u.a && f.a ≠ 0#8 then some .a
  else if !u.b && f.b ≠ 0#8 then some .b
  else if !u.c && f.c ≠ 0#8 then some .c
  else if !u.e && f.e ≠ 0#8 then some .e
  else if !u.f && f.f ≠ 0#8 then some .f
  else none

/-- The row of an opcode value, none if the value is illegal (30_encoding.md R107). -/
def rowOf (op : BitVec 8) : Option OpRow := opTable.find? fun r => r.op == op

/-- Decodes a command word (30_encoding.md R100-R107; the decoding part of 60_exceptions.md R409).
A CONST with an undefined id and a MILLER or PAIR with unequal lengths do decode: they are commands
that abort (log entry 18). -/
def decode (w : Word) : Except DecodeError Instr :=
  let f := fieldsOf w
  match rowOf f.op with
  | none => .error .illegalOpcode
  | some r =>
    match reservedField r.uses f with
    | some fld => .error (.reservedField fld)
    | none => .ok (r.build f)

/-- The fields of a command's word (30_encoding.md R120). -/
def Instr.fields : Instr → Fields
  | .nop => { op := 0x00#8 }
  | .mov d a e => { op := 0x01#8, d := d, a := a, e := e }
  | .zero d e => { op := 0x02#8, d := d, e := e }
  | .const d e => { op := 0x03#8, d := d, e := e }
  | .fpAdd d a b => { op := 0x10#8, d := d, a := a, b := b }
  | .fpSub d a b => { op := 0x11#8, d := d, a := a, b := b }
  | .fpDbl d a => { op := 0x12#8, d := d, a := a }
  | .fpNeg d a => { op := 0x13#8, d := d, a := a }
  | .fpMul d a b => { op := 0x14#8, d := d, a := a, b := b }
  | .fpSqr d a => { op := 0x15#8, d := d, a := a }
  | .fpMont d a => { op := 0x16#8, d := d, a := a }
  | .fpDemont d a => { op := 0x17#8, d := d, a := a }
  | .fpRedc d a b => { op := 0x18#8, d := d, a := a, b := b }
  | .fpExp d a b => { op := 0x19#8, d := d, a := a, b := b }
  | .fpInvup d a => { op := 0x1A#8, d := d, a := a }
  | .fpInvdown d a => { op := 0x1B#8, d := d, a := a }
  | .fpInveea d a => { op := 0x1C#8, d := d, a := a }
  | .fpSqrt d a => { op := 0x1D#8, d := d, a := a }
  | .fpEq a b => { op := 0x1E#8, a := a, b := b }
  | .fpIszero a => { op := 0x1F#8, a := a }
  | .fp2Add d a b => { op := 0x20#8, d := d, a := a, b := b }
  | .fp2Sub d a b => { op := 0x21#8, d := d, a := a, b := b }
  | .fp2Dbl d a => { op := 0x22#8, d := d, a := a }
  | .fp2Neg d a => { op := 0x23#8, d := d, a := a }
  | .fp2Mul d a b => { op := 0x24#8, d := d, a := a, b := b }
  | .fp2Sqr d a => { op := 0x25#8, d := d, a := a }
  | .fp2Mulnr d a => { op := 0x26#8, d := d, a := a }
  | .fp2Inv d a => { op := 0x27#8, d := d, a := a }
  | .fp2Exp d a b => { op := 0x28#8, d := d, a := a, b := b }
  | .fp2Sqrt d a => { op := 0x29#8, d := d, a := a }
  | .fp2Eq a b => { op := 0x2A#8, a := a, b := b }
  | .fp2Iszero a => { op := 0x2B#8, a := a }
  | .fp6Add d a b => { op := 0x30#8, d := d, a := a, b := b }
  | .fp6Sub d a b => { op := 0x31#8, d := d, a := a, b := b }
  | .fp6Dbl d a => { op := 0x32#8, d := d, a := a }
  | .fp6Neg d a => { op := 0x33#8, d := d, a := a }
  | .fp6Mul d a b => { op := 0x34#8, d := d, a := a, b := b }
  | .fp6Sqr d a => { op := 0x35#8, d := d, a := a }
  | .fp6Mulby01 d a b => { op := 0x36#8, d := d, a := a, b := b }
  | .fp6Mulby1 d a => { op := 0x37#8, d := d, a := a }
  | .fp6Mulnr d a => { op := 0x38#8, d := d, a := a }
  | .fp6Inv d a => { op := 0x39#8, d := d, a := a }
  | .fp6Frob d a e => { op := 0x3A#8, d := d, a := a, e := e }
  | .fp6Eq a b => { op := 0x3B#8, a := a, b := b }
  | .fp6Iszero a => { op := 0x3C#8, a := a }
  | .fp12Add d a b => { op := 0x40#8, d := d, a := a, b := b }
  | .fp12Sub d a b => { op := 0x41#8, d := d, a := a, b := b }
  | .fp12Dbl d a => { op := 0x42#8, d := d, a := a }
  | .fp12Neg d a => { op := 0x43#8, d := d, a := a }
  | .fp12Mul d a b => { op := 0x44#8, d := d, a := a, b := b }
  | .fp12Sqr d a => { op := 0x45#8, d := d, a := a }
  | .fp12Cycsqr d a => { op := 0x46#8, d := d, a := a }
  | .fp12Mulby014 d a b c => { op := 0x47#8, d := d, a := a, b := b, c := c }
  | .fp12Mulby034 d a b c => { op := 0x48#8, d := d, a := a, b := b, c := c }
  | .fp12Inv d a => { op := 0x49#8, d := d, a := a }
  | .fp12Conj d a => { op := 0x4A#8, d := d, a := a }
  | .fp12Frob d a e => { op := 0x4B#8, d := d, a := a, e := e }
  | .fp12Exp d a b => { op := 0x4C#8, d := d, a := a, b := b }
  | .fp12Eq a b => { op := 0x4D#8, a := a, b := b }
  | .fp12Iszero a => { op := 0x4E#8, a := a }
  | .g1Dbl d a => { op := 0x50#8, d := d, a := a }
  | .g1Add d a b => { op := 0x51#8, d := d, a := a, b := b }
  | .g1Neg d a => { op := 0x52#8, d := d, a := a }
  | .g1Affine d a => { op := 0x53#8, d := d, a := a }
  | .g1Mul d a b => { op := 0x54#8, d := d, a := a, b := b }
  | .g1Iszero a => { op := 0x55#8, a := a }
  | .g1Oncurve a => { op := 0x56#8, a := a }
  | .g1Insub a => { op := 0x57#8, a := a }
  | .g1Eq a b => { op := 0x58#8, a := a, b := b }
  | .g2Dbl d a => { op := 0x60#8, d := d, a := a }
  | .g2Add d a b => { op := 0x61#8, d := d, a := a, b := b }
  | .g2Neg d a => { op := 0x62#8, d := d, a := a }
  | .g2Affine d a => { op := 0x63#8, d := d, a := a }
  | .g2Mul d a b => { op := 0x64#8, d := d, a := a, b := b }
  | .g2Iszero a => { op := 0x65#8, a := a }
  | .g2Oncurve a => { op := 0x66#8, a := a }
  | .g2Insub a => { op := 0x67#8, a := a }
  | .g2Eq a b => { op := 0x68#8, a := a, b := b }
  | .lineDbl d a b => { op := 0x70#8, d := d, a := a, b := b }
  | .lineAdd d a b c => { op := 0x71#8, d := d, a := a, b := b, c := c }
  | .miller d a b e f chk => { op := 0x72#8, d := d, a := a, b := b, e := e, f := f, chk := chk }
  | .finalexp d a => { op := 0x73#8, d := d, a := a }
  | .pair d a b e f chk => { op := 0x74#8, d := d, a := a, b := b, e := e, f := f, chk := chk }

/-- The command word of an instruction. -/
def encode (i : Instr) : Word := packFields i.fields

/-- What the decoder reads from a word numbered as the opcode table numbers it. A command is one
64-bit bus word with bit 0 in byte lane 0 (20_memory.md R77), so the word is `w` itself. -/
def decodeTableWord (nbits w : Nat) : Option Instr :=
  match decode (BitVec.ofNat 64 (w % 2 ^ nbits)) with
  | .ok i => some i
  | .error _ => none

end Sys2Proof
end

