-- ==== Sys2Proof/Machine/State.lean ====
section
/-! DEFINITION. The state of the CORE as plain data (10_state.md section 6), the events its host may
send, the reasons a step may stop, and the state after hardware reset (70_reset_and_hazards.md R440). -/

namespace Sys2Proof.Machine

/-- The slot memory EM as bytes of the slot window, strictly rising by offset from BASE: byte j of slot
s, 0 ≤ j < 48, is at offset 0x4000 + 64·s + j (20_memory.md R73, R77). An offset that is not listed
holds no value (10_state.md R33; log entry 7). -/
abbrev Memory := List Host.Cell

/-- STATUS (10_state.md R43). -/
structure Status where
  busy : Bool
  done : Bool
  err : Bool
  result : Bool
  zdiv : Bool
  ovr : Bool
  errcode : BitVec 8
deriving DecidableEq, Repr

/-- ERRINFO (10_state.md R46). -/
structure ErrInfo where
  slot : BitVec 8
  operand : BitVec 3
  index : BitVec 8
deriving DecidableEq, Repr

/-- What happens next at the CORE's boundary. The order of these events is the schedule that the spec
leaves open (00_scope.md R8, 20_memory.md R81; log entry 3). -/
inductive HostEvent where
  /-- A host read of `width` bytes at a bus address: MemRead(addr, width) (20_memory.md R70). -/
  | read (addr width : Nat)
  /-- A host write of `width` bytes at a bus address: MemWrite(addr, width, v) (20_memory.md R70). -/
  | write (addr width : Nat) (v : Word)
  /-- A turn of the engine: the completion step if a command is in flight (60_exceptions.md R420). -/
  | engine
  /-- The platform's reset input, asserted and released (70_reset_and_hazards.md R440). -/
  | hardReset
deriving DecidableEq, Repr

/-- The state. `nslots` and `base` are the machine's parameters, which no step changes; `inbox`,
`rdata` and `draws` are the model's own (log entries 3, 4, 5). -/
structure State where
  /-- NSLOTS, also PARAM[15:0] (00_scope.md R7, 10_state.md R44). -/
  nslots : Nat
  /-- BASE, the bus address of the window (00_scope.md R9). -/
  base : Nat
  /-- EM (10_state.md R30). -/
  em : Memory
  /-- CTRL.IE (10_state.md R42). -/
  ie : Bool
  /-- CMD (10_state.md R45). -/
  cmd : Word
  /-- STATUS (10_state.md R43). -/
  status : Status
  /-- ERRINFO (10_state.md R46). -/
  errinfo : ErrInfo
  /-- LCMD, the latched command (10_state.md R48). -/
  lcmd : Word
  /-- Events still to come, oldest first. -/
  inbox : List HostEvent
  /-- The data the last host read returned. -/
  rdata : Option Word
  /-- How many unspecified values have been drawn (70_reset_and_hazards.md R449). -/
  draws : Nat
deriving DecidableEq, Repr

/-- Why the model stops (60_exceptions.md R414). An error of a command is no fault: it is an abort. -/
inductive Fault where
  /-- A command or a host read reads a slot that holds no value (10_state.md R33, 20_memory.md R76).
  Raised by the engine and by host reads. Safe: the hardware goes on with some pattern. -/
  | emptySlot
  /-- A host access that is not 64 bits wide at a multiple of 8 (20_memory.md R72). Raised by host
  accesses. Safe: the hardware answers with a bus error and changes nothing (log entry 10). -/
  | busError
  /-- A host access outside the 32 KiB window; it does not reach the CORE (20_memory.md R70). Raised by
  host accesses. Safe: log entry 11. -/
  | outsideWindow
deriving DecidableEq, Repr

/-- Why the model has no meaning for a command. -/
inductive Refusal where
  /-- The command has no meaning in the model yet. Raised by `exec` only. Safe. -/
  | notModelled (mnemonic : String)
deriving DecidableEq, Repr

/-- What a step answers. -/
abbrev Answer := Host.Outcome State Fault Refusal

/-- STATUS = 0 (70_reset_and_hazards.md R440). -/
def Status.zero : Status where
  busy := false
  done := false
  err := false
  result := false
  zdiv := false
  ovr := false
  errcode := 0#8

/-- ERRINFO = 0 (10_state.md R46). -/
def ErrInfo.zero : ErrInfo where
  slot := 0#8
  operand := 0#3
  index := 0#8

/-- The state after hardware reset (70_reset_and_hazards.md R440) of the reference configuration.
LCMD, which R440 leaves unspecified and unused, is 0: DESIGN CHOICE, log entry 6. -/
def State.reset : State where
  nslots := Config.nslotsReference
  base := Config.baseReference
  em := []
  ie := false
  cmd := 0#64
  status := Status.zero
  errinfo := ErrInfo.zero
  lcmd := 0#64
  inbox := []
  rdata := none
  draws := 0

end Sys2Proof.Machine
end

