-- ==== Sys2Proof/Machine/Flags.lean ====
section
/-! DEFINITION. Every computation of STATUS, ERRINFO, CTRL, PARAM and irq: the register words, and what
a start, a completion, an abort and a host write of STATUS do to the flags. -/

namespace Sys2Proof.Machine

/-- The error codes of 60_exceptions.md R401. -/
inductive ErrCode where
  | illegalOpcode | reservedField | lengthMismatch | slotRange | noncanonical | notOnCurve | notInSubgroup
deriving DecidableEq, Repr

/-- STATUS.ERRCODE of an error (60_exceptions.md R401). -/
def ErrCode.code : ErrCode → BitVec 8
  | .illegalOpcode => 1#8
  | .reservedField => 2#8
  | .lengthMismatch => 3#8
  | .slotRange => 4#8
  | .noncanonical => 5#8
  | .notOnCurve => 6#8
  | .notInSubgroup => 7#8

/-- An error as a command raises it: `raise <Error>(slot, operand, index)` (00_scope.md R18). -/
structure ErrReport where
  code : ErrCode
  slot : Nat := 0
  operand : FieldName := .none
  index : Nat := 0
deriving DecidableEq, Repr

/-- ERRINFO of an error (60_exceptions.md R410). -/
def ErrReport.info (e : ErrReport) : ErrInfo where
  slot := BitVec.ofNat 8 e.slot
  operand := e.operand.code
  index := BitVec.ofNat 8 e.index

/-- The error of a word that is no command (60_exceptions.md R402, R403.1-3). -/
def decodeReport : DecodeError → ErrReport
  | .illegalOpcode => { code := .illegalOpcode }
  | .reservedField fld => { code := .reservedField, operand := fld }

/-- STATUS when a start is accepted; OVR is unchanged (60_exceptions.md R419). -/
def Status.started (st : Status) : Status :=
  { st with busy := true, done := false, err := false, result := false, zdiv := false, errcode := 0#8 }

/-- STATUS at a completion without error; OVR is unchanged (60_exceptions.md R420; 10_state.md R52-R57). -/
def Status.completed (st : Status) (result zdiv : Bool) : Status :=
  { st with busy := false, done := true, err := false, result := result, zdiv := zdiv, errcode := 0#8 }

/-- STATUS after an aborted command; OVR is unchanged (60_exceptions.md R411). -/
def Status.aborted (st : Status) (code : BitVec 8) : Status :=
  { st with busy := false, done := true, err := true, result := false, zdiv := false, errcode := code }

/-- STATUS when a host action is dropped (10_state.md R55). -/
def Status.overrun (st : Status) : Status := { st with ovr := true }

/-- A host write of STATUS: bit 1 clears DONE, bit 5 clears OVR, nothing else (10_state.md R43). -/
def Status.writeOneToClear (st : Status) (v : Word) : Status :=
  { st with done := st.done && !v.getLsbD 1, ovr := st.ovr && !v.getLsbD 5 }

/-- The STATUS register (10_state.md R43). -/
def Status.word (st : Status) : Word :=
  0#48 ++ st.errcode ++ 0#2 ++ BitVec.ofBool st.ovr ++ BitVec.ofBool st.zdiv ++ BitVec.ofBool st.result
    ++ BitVec.ofBool st.err ++ BitVec.ofBool st.done ++ BitVec.ofBool st.busy

/-- The ERRINFO register (10_state.md R46). -/
def ErrInfo.word (ei : ErrInfo) : Word := 0#40 ++ ei.index ++ 0#5 ++ ei.operand ++ ei.slot

/-- The CTRL register: START and SRST read 0 (10_state.md R42). -/
def State.ctrlWord (s : State) : Word := 0#62 ++ BitVec.ofBool s.ie ++ 0#1

/-- The PARAM register (10_state.md R44). -/
def State.paramWord (s : State) : Word := 0#40 ++ Config.version ++ BitVec.ofNat 16 s.nslots

/-- The irq output (10_state.md R51). -/
def State.irq (s : State) : Bool := s.ie && s.status.done

end Sys2Proof.Machine
end

