-- ==== Sys2Proof/Machine/Ops.lean ====
section
/-! DEFINITION. The named operations over the slot memory and the registers: bytes, limbs and slots of
EM, the completion of a command, the abort of a command (the CORE's only "exception entry"; it takes no
traps, 60_exceptions.md R422, and there is no return from one, R423), the start, and the resets. -/

namespace Sys2Proof.Machine

/-! ### The slot memory -/

/-- The window offset of byte 0 of a slot (20_memory.md R73). -/
def slotOffset (slot : Nat) : Nat := 0x4000 + 64 * slot

/-- The bytes listed at offsets `off`, ..., `off + n - 1`. -/
def Memory.range (m : Memory) (off n : Nat) : Memory :=
  m.filter fun c => off ≤ c.1 && c.1 < off + n

/-- The memory without its bytes at offsets `off`, ..., `off + n - 1`. -/
def Memory.clear (m : Memory) (off n : Nat) : Memory :=
  m.filter fun c => !(off ≤ c.1 && c.1 < off + n)

/-- The byte at an offset, none if it holds no value (10_state.md R33). -/
def Memory.readByte (m : Memory) (off : Nat) : Option Byte :=
  (m.find? fun c => c.1 == off).map (·.2)

/-- The little-endian integer of a run of bytes (20_memory.md R77). -/
def littleEndian : Memory → Nat
  | [] => 0
  | c :: rest => c.2.toNat + 256 * littleEndian rest

/-- The `n` bytes of an integer at rising offsets from `off`, byte 0 least significant
(20_memory.md R77). -/
def bytesOf (off v : Nat) : Nat → Memory
  | 0 => []
  | n + 1 => (off, BitVec.ofNat 8 v) :: bytesOf (off + 1) (v / 256) n

/-- Writes the `n` low bytes of `v` from `off` on, keeping the offsets rising. -/
def Memory.write (m : Memory) (off n v : Nat) : Memory :=
  m.filter (fun c => c.1 < off) ++ bytesOf off v n ++ m.filter (fun c => off + n ≤ c.1)

/-- `EM[s]`: the 384-bit integer of a slot, none unless all 48 bytes hold a value
(10_state.md R30, R33; 20_memory.md R76). -/
def Memory.readSlot (m : Memory) (slot : Nat) : Option SlotVal :=
  let bytes := m.range (slotOffset slot) 48
  if bytes.length = 48 then some (BitVec.ofNat 384 (littleEndian bytes)) else none

/-- `EM[s] <- v` (00_scope.md R18). -/
def Memory.writeSlot (m : Memory) (slot : Nat) (v : SlotVal) : Memory :=
  m.write (slotOffset slot) 48 v.toNat

/-- Writes in the given order: a later write wins on a slot two of them name (20_memory.md R80). -/
def Memory.writeSlots (m : Memory) (writes : List (Nat × SlotVal)) : Memory :=
  writes.foldl (fun m w => m.writeSlot w.1 w.2) m

/-- Makes the slots `base`, ..., `base + n - 1` empty (70_reset_and_hazards.md R443). -/
def Memory.clearSlots (m : Memory) (base : Nat) : Nat → Memory
  | 0 => m
  | n + 1 => (m.clear (slotOffset (base + n)) 48).clearSlots base n

/-- The offset names a byte of a slot below `nslots` (20_memory.md R73, R74). -/
def slotByte (nslots off : Nat) : Bool :=
  0x4000 ≤ off && (off - 0x4000) / 64 < nslots && (off - 0x4000) % 64 < 48

/-- The canonical form: offsets strictly rising. No listed byte equals what an unlisted offset reads as,
since that is no value. -/
def Memory.wf (m : Memory) : Bool := decide (m.Pairwise fun c d => c.1 < d.1)

/-! ### Reading operands -/

/-- The slot integer `EM[s]`. The meanings of commands use it only behind a check that the slot holds a
value (`firstStop`), so none of them sees the 0 for an empty slot; the host's byte encodings do (log
entry 23). -/
def State.slotInt (s : State) (slot : Nat) : Nat := ((s.em.readSlot slot).getD 0#384).toNat

/-! ### Completion, abort, start -/

/-- What a command that passes its checks does: its writes in order, RESULT and ZDIV. -/
structure Effect where
  writes : List (Nat × SlotVal) := []
  result : Bool := false
  zdiv : Bool := false
deriving DecidableEq, Repr

/-- The completion of a command without error (60_exceptions.md R420). -/
def State.complete (s : State) (e : Effect) : State :=
  { s with
    em := s.em.writeSlots e.writes
    status := s.status.completed e.result e.zdiv
    errinfo := ErrInfo.zero }

/-- The abort of a command: no slot changes, STATUS and ERRINFO report the error
(60_exceptions.md R411). -/
def State.abort (s : State) (e : ErrReport) : State :=
  { s with status := s.status.aborted e.code.code, errinfo := e.info }

/-- Latches a command word: the start without its IE bit (60_exceptions.md R419). -/
def State.latch (s : State) (w : Word) : State :=
  { s with lcmd := w, status := s.status.started, errinfo := ErrInfo.zero }

/-- Hardware reset (70_reset_and_hazards.md R440). The parameters, the host's remaining events and the
model's own counters are no state of the CORE and stay. LCMD is 0: DESIGN CHOICE, log entry 6. -/
def State.hardReset (s : State) : State :=
  { s with
    em := []
    ie := false
    cmd := 0#64
    status := Status.zero
    errinfo := ErrInfo.zero
    lcmd := 0#64
    rdata := none }

end Sys2Proof.Machine
end

