-- ==== Sys2Proof/Machine/Constants.lean ====
section
/-! DEFINITION. The constant store (10_state.md R49): the numbers of 00_scope.md R11-R15, the
generators, and the table of CONST (30_encoding.md R108). -/

namespace Sys2Proof.Machine

/-- The prime p (00_scope.md R13). -/
def P : Nat :=
  0x1a0111ea397fe69a4b1ba7b6434bacd764774b84f38512bf6730d2a0f6b0f6241eabfffeb153ffffb9feffffffffaaab

/-- The subgroup order q (00_scope.md R12). -/
def Q : Nat := 0x73eda753299d7d483339d80809a1d80553bda402fffe5bfeffffffff00000001

/-- |x| of the BLS parameter (00_scope.md R11). -/
def XABS : Nat := 0xd201000000010000

/-- The Montgomery radix R = 2³⁸⁴ (00_scope.md R14). -/
def R : Nat := 2 ^ 384

/-- RINV = R⁻¹ mod p (00_scope.md R17); that it is the inverse is a test. -/
def RINV : Nat :=
  0x14fec701e8fb0ce9ed5e64273c4f538b1797ab1458a88de9343ea97914956dc87fe11274d898fafbf4d38259380b4820

/-- One = R mod p (00_scope.md R14). -/
def ONE : Nat :=
  0x15f65ec3fa80e4935c071a97a256ec6d77ce5853705257455f48985753c758baebf4000bc40c0002760900000002fffd

/-- R2 = R² mod p (00_scope.md R14). -/
def R2 : Nat :=
  0x11988fe592cae3aa9a793e85b519952d67eb88a9939d83c08de5476c4c95b6d50a76e6a609d104f1f4df1f341c341746

/-- N0 = −p⁻¹ mod 2⁶⁴ (00_scope.md R14). -/
def N0 : Nat := 0x89f3fffcfffcfffd

/-- NP = −p⁻¹ mod R (41_fp.md R159); that it is the inverse is a test. -/
def NP : Nat :=
  0xceb06106feaafc9468b316fee268cf5819ecca0e8eb2db4c16ef2ef0c8e30b48286adb92d9d113e889f3fffcfffcfffd

/-- mont(y) = y·R mod p, as an integer (00_scope.md R19). -/
def montInt (y : Nat) : Nat := y * R % P

/-- The affine x of G1One (45_g1.md R300). -/
def G1X : Nat :=
  0x17f1d3a73197d7942695638c4fa9ac0fc3688c4f9774b905a14e3a3f171bac586c55e83ff97a1aeffb3af00adb22c6bb
/-- The affine y of G1One (45_g1.md R300). -/
def G1Y : Nat :=
  0x08b3f481e3aaa0f1a09e30ed741d8ae4fcf5e095d5d00af600db18cb2c04b3edd03cc744a2888ae40caa232946c5e7e1
/-- g2x0 of G2One (46_g2.md R330). -/
def G2X0 : Nat :=
  0x024aa2b2f08f0a91260805272dc51051c6e47ad4fa403b02b4510b647ae3d1770bac0326a805bbefd48056c8c121bdb8
/-- g2x1 of G2One (46_g2.md R330). -/
def G2X1 : Nat :=
  0x13e02b6052719f607dacd3a088274f65596bd0d09920b61ab5da61bbdc7f5049334cf11213945d57e5ac7d055d042b7e
/-- g2y0 of G2One (46_g2.md R330). -/
def G2Y0 : Nat :=
  0x0ce5d527727d6e118cc9cdc6da2e351aadfd9baa8cbdd3a76d429a695160d12c923ac9cc3baca289e193548608b82801
/-- g2y1 of G2One (46_g2.md R330). -/
def G2Y1 : Nat :=
  0x0606c4a02ea734cc32acd2b02bc28b99cb3e287e85a763af267492ab572e99ab3f370d275cec1da1aaa9075ff05f79be

/-- The slot integers CONST writes for an id, in slot order (30_encoding.md R108). The ids 0x00 and
0x10-0xFF are reserved and name no constant. -/
def constTable (id : Imm) : List Nat :=
  match id.toNat with
  | 0x01 => [ONE]
  | 0x02 => [ONE, 0]
  | 0x03 => [ONE, 0, 0, 0, 0, 0]
  | 0x04 => [ONE, 0, 0, 0, 0, 0, 0, 0, 0, 0, 0, 0]
  | 0x05 => [R2]
  | 0x06 => [P]
  | 0x07 => [Q]
  | 0x08 => [XABS]
  | 0x09 => [montInt G1X, montInt G1Y, ONE]
  | 0x0A => [montInt G2X0, montInt G2X1, montInt G2Y0, montInt G2Y1, ONE, 0]
  | 0x0B => [0, ONE, 0]
  | 0x0C => [0, 0, ONE, 0, 0, 0]
  | 0x0D => [ONE, ONE]
  | 0x0E => [montInt (P - 1)]
  | 0x0F => [1]
  | _ => []

end Sys2Proof.Machine
end

