-- ==== Sys2Proof/Machine/Operands.lean ====
section
/-! DEFINITION. The operands of every command (the table of 30_encoding.md R120 with the kinds of
R103), and the checks of 60_exceptions.md R409 that are made on them: command-word checks, ranges,
presence of a value, canonical form. -/

namespace Sys2Proof.Machine

/-- The direction of an operand (30_encoding.md R103). -/
inductive Dir where
  /-- read only -/
  | inp
  /-- written only -/
  | out
  /-- read as an input, then written -/
  | io
deriving DecidableEq, Repr

/-- One slot operand of a command. -/
structure Operand where
  fld : FieldName
  dir : Dir
  base : SlotNo
  width : Nat
  /-- Its input slots must hold integers below p (30_encoding.md R103, last column). -/
  canonical : Bool
  /-- Slots per point in a point array, 0 for any other operand; it gives ERRINFO.INDEX. -/
  stride : Nat := 0
deriving DecidableEq, Repr

def Operand.isInput (o : Operand) : Bool := o.dir == .inp || o.dir == .io
def Operand.isOutput (o : Operand) : Bool := o.dir == .out || o.dir == .io

/-- A destination in field D. -/
def destD (d : SlotNo) (width : Nat) : Operand := ⟨.d, .out, d, width, false, 0⟩
/-- A typed input or an in/out operand in field D. -/
def inoutD (d : SlotNo) (width : Nat) : Operand := ⟨.d, .io, d, width, true, 0⟩
/-- A typed input. -/
def input (fld : FieldName) (base : SlotNo) (width : Nat) : Operand := ⟨fld, .inp, base, width, true, 0⟩
/-- A raw input: an integer used as written (30_encoding.md R103). -/
def rawInput (fld : FieldName) (base : SlotNo) (width : Nat) : Operand :=
  ⟨fld, .inp, base, width, false, 0⟩
/-- An array of `n` points of `stride` slots each (30_encoding.md R103). -/
def pointArray (fld : FieldName) (base : SlotNo) (stride : Nat) (n : Imm) : Operand :=
  ⟨fld, .inp, base, stride * n.toNat, true, stride⟩

/-- The operands of the two-source form of one field type of width `w`. -/
def opsDAB (w : Nat) (d a b : SlotNo) : List Operand := [destD d w, input .a a w, input .b b w]
/-- The operands of the one-source form. -/
def opsDA (w : Nat) (d a : SlotNo) : List Operand := [destD d w, input .a a w]
/-- The operands of an equality predicate. -/
def opsAB (w : Nat) (a b : SlotNo) : List Operand := [input .a a w, input .b b w]
/-- The operands of a one-operand predicate. -/
def opsA (w : Nat) (a : SlotNo) : List Operand := [input .a a w]
/-- The operands of an exponentiation or scalar multiplication: B is raw, one slot. -/
def opsDAraw (w : Nat) (d a b : SlotNo) : List Operand :=
  [destD d w, input .a a w, rawInput .b b 1]

/-- The slot operands of a command in the order D, A, B, C (30_encoding.md R120). -/
def operandsOf : Instr → List Operand
  | .nop => []
  | .mov d a n => [destD d n.toNat, rawInput .a a n.toNat]
  | .zero d n => [destD d n.toNat]
  | .const d id => [destD d (constTable id).length]
  | .fpAdd d a b => opsDAB 1 d a b
  | .fpSub d a b => opsDAB 1 d a b
  | .fpDbl d a => opsDA 1 d a
  | .fpNeg d a => opsDA 1 d a
  | .fpMul d a b => opsDAB 1 d a b
  | .fpSqr d a => opsDA 1 d a
  | .fpMont d a => opsDA 1 d a
  | .fpDemont d a => opsDA 1 d a
  | .fpRedc d a b => [destD d 1, rawInput .a a 1, rawInput .b b 1]
  | .fpExp d a b => opsDAraw 1 d a b
  | .fpInvup d a => opsDA 1 d a
  | .fpInvdown d a => opsDA 1 d a
  | .fpInveea d a => opsDA 1 d a
  | .fpSqrt d a => opsDA 1 d a
  | .fpEq a b => opsAB 1 a b
  | .fpIszero a => opsA 1 a
  | .fp2Add d a b => opsDAB 2 d a b
  | .fp2Sub d a b => opsDAB 2 d a b
  | .fp2Dbl d a => opsDA 2 d a
  | .fp2Neg d a => opsDA 2 d a
  | .fp2Mul d a b => opsDAB 2 d a b
  | .fp2Sqr d a => opsDA 2 d a
  | .fp2Mulnr d a => opsDA 2 d a
  | .fp2Inv d a => opsDA 2 d a
  | .fp2Exp d a b => opsDAraw 2 d a b
  | .fp2Sqrt d a => opsDA 2 d a
  | .fp2Eq a b => opsAB 2 a b
  | .fp2Iszero a => opsA 2 a
  | .fp6Add d a b => opsDAB 6 d a b
  | .fp6Sub d a b => opsDAB 6 d a b
  | .fp6Dbl d a => opsDA 6 d a
  | .fp6Neg d a => opsDA 6 d a
  | .fp6Mul d a b => opsDAB 6 d a b
  | .fp6Sqr d a => opsDA 6 d a
  | .fp6Mulby01 d a b => [inoutD d 6, input .a a 2, input .b b 2]
  | .fp6Mulby1 d a => [inoutD d 6, input .a a 2]
  | .fp6Mulnr d a => opsDA 6 d a
  | .fp6Inv d a => opsDA 6 d a
  | .fp6Frob d a _ => opsDA 6 d a
  | .fp6Eq a b => opsAB 6 a b
  | .fp6Iszero a => opsA 6 a
  | .fp12Add d a b => opsDAB 12 d a b
  | .fp12Sub d a b => opsDAB 12 d a b
  | .fp12Dbl d a => opsDA 12 d a
  | .fp12Neg d a => opsDA 12 d a
  | .fp12Mul d a b => opsDAB 12 d a b
  | .fp12Sqr d a => opsDA 12 d a
  | .fp12Cycsqr d a => opsDA 12 d a
  | .fp12Mulby014 d a b c => [inoutD d 12, input .a a 2, input .b b 2, input .c c 2]
  | .fp12Mulby034 d a b c => [inoutD d 12, input .a a 2, input .b b 2, input .c c 2]
  | .fp12Inv d a => opsDA 12 d a
  | .fp12Conj d a => opsDA 12 d a
  | .fp12Frob d a _ => opsDA 12 d a
  | .fp12Exp d a b => opsDAraw 12 d a b
  | .fp12Eq a b => opsAB 12 a b
  | .fp12Iszero a => opsA 12 a
  | .g1Dbl d a => opsDA 3 d a
  | .g1Add d a b => opsDAB 3 d a b
  | .g1Neg d a => opsDA 3 d a
  | .g1Affine d a => opsDA 3 d a
  | .g1Mul d a b => opsDAraw 3 d a b
  | .g1Iszero a => opsA 3 a
  | .g1Oncurve a => opsA 3 a
  | .g1Insub a => opsA 3 a
  | .g1Eq a b => opsAB 3 a b
  | .g2Dbl d a => opsDA 6 d a
  | .g2Add d a b => opsDAB 6 d a b
  | .g2Neg d a => opsDA 6 d a
  | .g2Affine d a => opsDA 6 d a
  | .g2Mul d a b => opsDAraw 6 d a b
  | .g2Iszero a => opsA 6 a
  | .g2Oncurve a => opsA 6 a
  | .g2Insub a => opsA 6 a
  | .g2Eq a b => opsAB 6 a b
  | .lineDbl d a b => [destD d 6, ⟨.a, .io, a, 6, true, 0⟩, input .b b 2]
  | .lineAdd d a b c => [destD d 6, ⟨.a, .io, a, 6, true, 0⟩, input .b b 2, input .c c 4]
  | .miller d a b n1 n2 _ => [destD d 12, pointArray .a a 3 n1, pointArray .b b 6 n2]
  | .finalexp d a => opsDA 12 d a
  | .pair d a b n1 n2 _ => [destD d 12, pointArray .a a 3 n1, pointArray .b b 6 n2]

/-- How a check ends a command: with an error of the command, or with a fault of the model. -/
inductive Stop where
  | error (e : ErrReport)
  | fault (f : Fault)
deriving DecidableEq, Repr

/-- The command-word checks after decoding: an undefined CONST id (60_exceptions.md R403.4) and unequal
lengths (R404). -/
def wordError (i : Instr) : Option ErrReport :=
  if i.wellFormed then none
  else
    match i with
    | .const _ _ => some { code := .reservedField, operand := .e }
    | _ => some { code := .lengthMismatch, operand := .f }

/-- SLOT_RANGE of one operand (60_exceptions.md R405). -/
def Operand.rangeError (o : Operand) (nslots : Nat) : Option ErrReport :=
  if o.width ≠ 0 ∧ nslots < o.base.toNat + o.width then
    some { code := .slotRange, slot := o.base.toNat, operand := o.fld }
  else none

/-- The checks of 60_exceptions.md R409 up to and including SLOT_RANGE, which read no slot. -/
def earlyError (i : Instr) (nslots : Nat) : Option ErrReport :=
  (wordError i).or ((operandsOf i).findSome? (·.rangeError nslots))

/-- ERRINFO.INDEX of a slot of an operand (60_exceptions.md R406). -/
def Operand.indexOf (o : Operand) (k : Nat) : Nat := if o.stride = 0 then 0 else k / o.stride

/-- Reads slot `k` of an input operand in a check: an empty slot is a fault of the model
(60_exceptions.md R414), a checked slot ≥ p is NONCANONICAL (R406). -/
def Operand.slotStop (o : Operand) (m : Memory) (k : Nat) : Option Stop :=
  match m.readSlot (o.base.toNat + k) with
  | none => some (.fault .emptySlot)
  | some v =>
    if o.canonical ∧ P ≤ v.toNat then
      some (.error
        { code := .noncanonical, slot := o.base.toNat + k, operand := o.fld, index := o.indexOf k })
    else none

/-- The slots of one input operand, ascending. -/
def Operand.inputStop (o : Operand) (m : Memory) : Option Stop :=
  (List.range o.width).findSome? (o.slotStop m)

/-- The input operands in the order they are read: the checked ones, A, B, C before an in/out D
(60_exceptions.md R406), then the raw ones (log entry 9). -/
def readOrder (ops : List Operand) : List Operand :=
  let ins := ops.filter (·.isInput)
  ins.filter (fun o => o.canonical && o.fld != .d) ++ ins.filter (fun o => o.canonical && o.fld == .d)
    ++ ins.filter (fun o => !o.canonical)

/-- What ends a command before it computes, if anything: the checks of 60_exceptions.md R409 that every
command makes, in their order. The checks of FP_REDC, MILLER and PAIR that follow stand in their
meanings. -/
def firstStop (i : Instr) (s : State) : Option Stop :=
  ((earlyError i s.nslots).map .error).or
    ((readOrder (operandsOf i)).findSome? (·.inputStop s.em))

/-- Runs the body of a command that passes its checks; otherwise aborts it or faults. -/
def guarded (i : Instr) (s : State) (body : Unit → Answer) : Answer :=
  match firstStop i s with
  | none => body ()
  | some (.error e) => .next (s.abort e)
  | some (.fault f) => .fault f

/-- A command that passes its checks and completes with one effect. -/
def completes (i : Instr) (s : State) (effect : Unit → Effect) : Answer :=
  guarded i s fun _ => .next (s.complete (effect ()))

end Sys2Proof.Machine
end

