-- ==== Sys2Proof/Machine/Field.lean ====
section
/-! DEFINITION. The arithmetic of Fp, Fp2, Fp6 and Fp12 on values (00_scope.md R19, R20), the Montgomery
reduction on integers (41_fp.md R159), and how elements stand in slots (10_state.md R34-R39). -/

namespace Sys2Proof.Machine

/-- Fp, the integers modulo p (00_scope.md R20). -/
abbrev Fp := ZMod P

/-- Fp2 = Fp[u]/(u² + 1) (00_scope.md R20): the pair c0 = `re`, c1 = `im` of c0 + c1·u, u² = −1. -/
abbrev Fp2 := QuadraticAlgebra Fp (-1) 0

/-- Fp6 = Fp2[v]/(v³ − ξ): c0 + c1·v + c2·v² (00_scope.md R20). -/
@[ext] structure Fp6 where
  c0 : Fp2
  c1 : Fp2
  c2 : Fp2
deriving DecidableEq

/-- Fp12 = Fp6[w]/(w² − v): c0 + c1·w (00_scope.md R20). -/
@[ext] structure Fp12 where
  c0 : Fp6
  c1 : Fp6
deriving DecidableEq

/-! ### The left-to-right loop over the bits of an integer -/

/-- `for i from n-1 down to 0: r <- double r; if k[i] = 1 then r <- add r`: the loop of the
exponentiations (41_fp.md R161), of the scalar multiplication (45_g1.md R304) and of the Miller loop
(47_pairing.md R366). -/
def ladder {α : Type} (double add : α → α) (k : Nat) : Nat → α → α
  | 0, r => r
  | i + 1, r => ladder double add k i (if k.testBit i then add (double r) else double r)

/-- a^k by square-and-multiply over the low `bits` bits of k. -/
def powBits {F : Type} [Mul F] [One F] (bits : Nat) (a : F) (k : Nat) : F :=
  ladder (fun r => r * r) (fun r => r * a) k bits 1

/-- a^k over all bits of k. -/
def powAll {F : Type} [Mul F] [One F] (a : F) (k : Nat) : F := powBits (k.log2 + 1) a k

/-! ### Fp -/

/-- The Montgomery reduction of T < p·R (41_fp.md R159). -/
def redc (t : Nat) : Nat :=
  let m := (t % R) * NP % R
  let u := (t + m * P) / R
  if P ≤ u then u - P else u

/-- inv0: the inverse, and 0 for 0 (00_scope.md R17), as a^(p−2). p is prime, so this is the inverse
(DEDUCED, log entry 14). -/
def fpInv (a : Fp) : Fp := powAll a (P - 2)

/-- inv0 on integers (00_scope.md R17). -/
def inv0 (a : Nat) : Nat := (fpInv (a : Fp)).val

/-- sqrtp(y) = y^((p+1)/4) (41_fp.md R165, 42_fp2.md R210). -/
def sqrtp (y : Fp) : Fp := powAll y ((P + 1) / 4)

/-- isqr(y) = (y = 0 or y^((p−1)/2) = 1) (42_fp2.md R210). -/
def isqr (y : Fp) : Bool := y == 0 || powAll y ((P - 1) / 2) == 1

/-! ### Fp2 -/

/-- The non-residue ξ = 1 + u (00_scope.md R15). -/
def xi : Fp2 := ⟨1, 1⟩

/-- ξ·x (42_fp2.md R207). -/
def mulXi (x : Fp2) : Fp2 := ⟨x.re - x.im, x.re + x.im⟩

/-- The product by the steps of 42_fp2.md R205; the same value as `x * y`. -/
def fp2MulKaratsuba (x y : Fp2) : Fp2 :=
  let v0 := x.re * y.re
  let v1 := x.im * y.im
  ⟨v0 - v1, (x.re + x.im) * (y.re + y.im) - v0 - v1⟩

/-- The square by the steps of 42_fp2.md R206; the same value as `x * x`. -/
def fp2SqrComplex (x : Fp2) : Fp2 := ⟨(x.re + x.im) * (x.re - x.im), 2 * x.re * x.im⟩

/-- The inverse, 0 for 0 (42_fp2.md R208). -/
def fp2Inv (x : Fp2) : Fp2 :=
  let t := fpInv (x.re * x.re + x.im * x.im)
  ⟨x.re * t, -x.im * t⟩

/-- x·e for a scalar e of Fp (47_pairing.md R362). -/
def scale (x : Fp2) (e : Fp) : Fp2 := ⟨x.re * e, x.im * e⟩

/-- The square root of 42_fp2.md R210, none when RESULT = 0. -/
def fp2Sqrt (x : Fp2) : Option Fp2 :=
  if x.im = 0 then
    if isqr x.re then some ⟨sqrtp x.re, 0⟩ else some ⟨0, sqrtp (-x.re)⟩
  else
    let n := x.re * x.re + x.im * x.im
    if isqr n then
      let s := sqrtp n
      let half := fpInv 2
      let t := (x.re + s) * half
      let t := if isqr t then t else (x.re - s) * half
      let x0 := sqrtp t
      some ⟨x0, x.im * fpInv (2 * x0)⟩
    else none

/-! ### Fp6 -/

namespace Fp6

def zero : Fp6 := ⟨0, 0, 0⟩
def one : Fp6 := ⟨1, 0, 0⟩

/-- Componentwise (43_fp6.md R231). -/
def add (a b : Fp6) : Fp6 := ⟨a.c0 + b.c0, a.c1 + b.c1, a.c2 + b.c2⟩
/-- Componentwise (43_fp6.md R232). -/
def sub (a b : Fp6) : Fp6 := ⟨a.c0 - b.c0, a.c1 - b.c1, a.c2 - b.c2⟩
/-- Componentwise (43_fp6.md R234). -/
def neg (a : Fp6) : Fp6 := ⟨-a.c0, -a.c1, -a.c2⟩
/-- Componentwise (43_fp6.md R233). -/
def dbl (a : Fp6) : Fp6 := ⟨2 * a.c0, 2 * a.c1, 2 * a.c2⟩

/-- The product (43_fp6.md R235). -/
def mul (a b : Fp6) : Fp6 where
  c0 := a.c0 * b.c0 + mulXi (a.c1 * b.c2 + a.c2 * b.c1)
  c1 := a.c0 * b.c1 + a.c1 * b.c0 + mulXi (a.c2 * b.c2)
  c2 := a.c0 * b.c2 + a.c1 * b.c1 + a.c2 * b.c0

/-- The product by b0 + b1·v (43_fp6.md R237). -/
def mulBy01 (a : Fp6) (b0 b1 : Fp2) : Fp6 where
  c0 := a.c0 * b0 + mulXi (a.c2 * b1)
  c1 := a.c0 * b1 + a.c1 * b0
  c2 := a.c1 * b1 + a.c2 * b0

/-- The product by b1·v (43_fp6.md R238). -/
def mulBy1 (a : Fp6) (b1 : Fp2) : Fp6 := ⟨mulXi (a.c2 * b1), a.c0 * b1, a.c1 * b1⟩

/-- v·a (43_fp6.md R239, 90_conflicts.md C6). -/
def mulV (a : Fp6) : Fp6 := ⟨mulXi a.c2, a.c0, a.c1⟩

/-- Each Fp2 coefficient times x. -/
def scale2 (a : Fp6) (x : Fp2) : Fp6 := ⟨a.c0 * x, a.c1 * x, a.c2 * x⟩

/-- The inverse, 0 for 0 (43_fp6.md R240). -/
def inv (a : Fp6) : Fp6 :=
  let t0 := a.c0 * a.c0 - mulXi (a.c1 * a.c2)
  let t1 := mulXi (a.c2 * a.c2) - a.c0 * a.c1
  let t2 := a.c1 * a.c1 - a.c0 * a.c2
  let n := a.c0 * t0 + mulXi (a.c2 * t1 + a.c1 * t2)
  let ni := fp2Inv n
  ⟨t0 * ni, t1 * ni, t2 * ni⟩

end Fp6

/-- π^k on Fp2: conjugation when k is odd (43_fp6.md R241). -/
def conjOdd (k : Nat) (x : Fp2) : Fp2 := if k % 2 = 1 then ⟨x.re, -x.im⟩ else x

/-- The p^k-power Frobenius of Fp6 (43_fp6.md R241). -/
def frob6 (a : Fp6) (k : Nat) : Fp6 :=
  let g1 := powAll xi ((P ^ k - 1) / 3)
  let g2 := powAll xi (2 * (P ^ k - 1) / 3)
  ⟨conjOdd k a.c0, conjOdd k a.c1 * g1, conjOdd k a.c2 * g2⟩

/-! ### Fp12 -/

namespace Fp12

def zero : Fp12 := ⟨.zero, .zero⟩
def one : Fp12 := ⟨.one, .zero⟩

/-- Componentwise (44_fp12.md R261). -/
def add (a b : Fp12) : Fp12 := ⟨a.c0.add b.c0, a.c1.add b.c1⟩
/-- Componentwise (44_fp12.md R262). -/
def sub (a b : Fp12) : Fp12 := ⟨a.c0.sub b.c0, a.c1.sub b.c1⟩
/-- Componentwise (44_fp12.md R264). -/
def neg (a : Fp12) : Fp12 := ⟨a.c0.neg, a.c1.neg⟩
/-- Componentwise (44_fp12.md R263). -/
def dbl (a : Fp12) : Fp12 := ⟨a.c0.dbl, a.c1.dbl⟩

/-- The product (44_fp12.md R265). -/
def mul (a b : Fp12) : Fp12 where
  c0 := (a.c0.mul b.c0).add (a.c1.mul b.c1).mulV
  c1 := (a.c0.mul b.c1).add (a.c1.mul b.c0)

/-- The square (44_fp12.md R266). -/
def sqr (a : Fp12) : Fp12 := a.mul a

/-- The conjugate (44_fp12.md R271). -/
def conj (a : Fp12) : Fp12 := ⟨a.c0, a.c1.neg⟩

/-- The inverse, 0 for 0 (44_fp12.md R270). -/
def inv (a : Fp12) : Fp12 :=
  let ti := ((a.c0.mul a.c0).sub (a.c1.mul a.c1).mulV).inv
  ⟨a.c0.mul ti, (a.c1.mul ti).neg⟩

/-- The sparse element of shape 014 (44_fp12.md R268). -/
def shape014 (x0 x1 x4 : Fp2) : Fp12 := ⟨⟨x0, x1, 0⟩, ⟨0, x4, 0⟩⟩

/-- The sparse element of shape 034 (44_fp12.md R269). -/
def shape034 (x0 x3 x4 : Fp2) : Fp12 := ⟨⟨x0, 0, 0⟩, ⟨x3, x4, 0⟩⟩

/-- sq4(x, y) of the cyclotomic square (44_fp12.md R267). -/
def sq4 (x y : Fp2) : Fp2 × Fp2 := (mulXi (y * y) + x * x, (x + y) * (x + y) - x * x - y * y)

/-- The cyclotomic square, the formula for every input (44_fp12.md R267). -/
def cycSqr (a : Fp12) : Fp12 :=
  let t34 := sq4 a.c0.c0 a.c1.c1
  let t01 := sq4 a.c1.c0 a.c0.c2
  let t56 := sq4 a.c0.c1 a.c1.c2
  { c0 :=
      { c0 := 3 * t34.1 - 2 * a.c0.c0
        c1 := 3 * t01.1 - 2 * a.c0.c1
        c2 := 3 * t56.1 - 2 * a.c0.c2 }
    c1 :=
      { c0 := 3 * mulXi t56.2 + 2 * a.c1.c0
        c1 := 3 * t34.2 + 2 * a.c1.c1
        c2 := 3 * t01.2 + 2 * a.c1.c2 } }

/-- a^k by square-and-multiply over the low `bits` bits of k (44_fp12.md R273). -/
def pow (bits : Nat) (a : Fp12) (k : Nat) : Fp12 := ladder sqr (fun r => r.mul a) k bits one

/-- The p^k-power Frobenius of Fp12 (44_fp12.md R272). -/
def frob (a : Fp12) (k : Nat) : Fp12 :=
  let g := powAll xi ((P ^ k - 1) / 6)
  ⟨frob6 a.c0 k, (frob6 a.c1 k).scale2 g⟩

end Fp12

/-! ### Elements in slots -/

/-- val(EM[slot]), the element a slot represents in Montgomery form (00_scope.md R19). -/
def State.val1 (s : State) (slot : Nat) : Fp := ((s.slotInt slot * RINV : Nat) : Fp)

/-- val2 (00_scope.md R19, 10_state.md R35). -/
def State.val2 (s : State) (slot : Nat) : Fp2 := ⟨s.val1 slot, s.val1 (slot + 1)⟩

/-- val6 (00_scope.md R19, 10_state.md R36). -/
def State.val6 (s : State) (slot : Nat) : Fp6 := ⟨s.val2 slot, s.val2 (slot + 2), s.val2 (slot + 4)⟩

/-- val12 (00_scope.md R19, 10_state.md R37). -/
def State.val12 (s : State) (slot : Nat) : Fp12 := ⟨s.val6 slot, s.val6 (slot + 6)⟩

/-- Writes an integer to a slot. -/
def putInt (slot v : Nat) : List (Nat × SlotVal) := [(slot, BitVec.ofNat 384 v)]

/-- Writes integers to consecutive slots. -/
def putInts (slot : Nat) : List Nat → List (Nat × SlotVal)
  | [] => []
  | v :: rest => putInt slot v ++ putInts (slot + 1) rest

/-- put1: the Montgomery form of an element (00_scope.md R19). -/
def put1 (slot : Nat) (y : Fp) : List (Nat × SlotVal) := putInt slot (montInt y.val)

/-- put2 (00_scope.md R19). -/
def put2 (slot : Nat) (y : Fp2) : List (Nat × SlotVal) := put1 slot y.re ++ put1 (slot + 1) y.im

/-- put6 (00_scope.md R19). -/
def put6 (slot : Nat) (y : Fp6) : List (Nat × SlotVal) :=
  put2 slot y.c0 ++ put2 (slot + 2) y.c1 ++ put2 (slot + 4) y.c2

/-- put12 (00_scope.md R19). -/
def put12 (slot : Nat) (y : Fp12) : List (Nat × SlotVal) := put6 slot y.c0 ++ put6 (slot + 6) y.c1

/-- All `n` slots from `slot` on hold 0. -/
def State.allZero (s : State) (slot n : Nat) : Bool := (List.range n).all fun k => s.slotInt (slot + k) == 0

/-- `n` slots from `a` on hold the same integers as those from `b` on. -/
def State.allEqual (s : State) (a b n : Nat) : Bool :=
  (List.range n).all fun k => s.slotInt (a + k) == s.slotInt (b + k)

end Sys2Proof.Machine
end

