-- ==== Sys2Proof/Machine/Curve.lean ====
section
/-! DEFINITION. The point procedures of 45_g1.md R301-R304, R311-R313, written once over a field F with
constant b, and the points of G1 and G2 in slots. -/

namespace Sys2Proof.Machine

/-- A Jacobian triple; every triple with Z = 0 is the point at infinity (00_scope.md R21). -/
@[ext] structure Jac (F : Type) where
  x : F
  y : F
  z : F
deriving DecidableEq

section Procedures

variable {F : Type} [CommRing F] [DecidableEq F]

/-- INF = (0, 1, 0) (45_g1.md R300). -/
def inf : Jac F := ⟨0, 1, 0⟩

/-- DBL_F (45_g1.md R301). -/
def dblPt (p : Jac F) : Jac F :=
  if p.z = 0 then inf
  else
    let a := p.x * p.x
    let b := p.y * p.y
    let c := b * b
    let s := 4 * (p.x * b)
    let m := 3 * a
    let x3 := m * m - 2 * s
    let y3 := m * (s - x3) - 8 * c
    let z3 := 2 * p.y * p.z
    if z3 = 0 then inf else ⟨x3, y3, z3⟩

/-- ADD_F (45_g1.md R302). -/
def addPt (p1 p2 : Jac F) : Jac F :=
  if p1.z = 0 then (if p2.z = 0 then inf else p2)
  else if p2.z = 0 then p1
  else
    let z1z1 := p1.z * p1.z
    let z2z2 := p2.z * p2.z
    let u1 := p1.x * z2z2
    let u2 := p2.x * z1z1
    let s1 := p1.y * (p2.z * z2z2)
    let s2 := p2.y * (p1.z * z1z1)
    let h := u2 - u1
    let r := s2 - s1
    if h = 0 then (if r = 0 then dblPt p1 else inf)
    else
      let hh := h * h
      let hhh := h * hh
      let v := u1 * hh
      let x3 := r * r - hhh - 2 * v
      let y3 := r * (v - x3) - s1 * hhh
      ⟨x3, y3, h * p1.z * p2.z⟩

/-- Negates Y (45_g1.md R307). -/
def negPt (p : Jac F) : Jac F := ⟨p.x, -p.y, p.z⟩

/-- AFF_F, with the inverse of F (45_g1.md R303). -/
def affPt (inv : F → F) (p : Jac F) : Jac F :=
  if p.z = 0 then p
  else
    let zi := inv p.z
    let zi2 := zi * zi
    ⟨p.x * zi2, p.y * (zi2 * zi), 1⟩

/-- MUL_F (45_g1.md R304). -/
def mulPt (inv : F → F) (p : Jac F) (k : Nat) : Jac F :=
  let t := ladder dblPt (fun t => addPt t p) k 384 inf
  if t.z = 0 then inf else affPt inv t

/-- ONC_F (45_g1.md R311). -/
def onCurve (b : F) (p : Jac F) : Bool :=
  if p.z = 0 then true
  else
    let z2 := p.z * p.z
    let z6 := z2 * z2 * z2
    p.y * p.y == p.x * p.x * p.x + b * z6

/-- SUB_F (45_g1.md R312). -/
def inSubgroup (inv : F → F) (p : Jac F) : Bool := (mulPt inv p Q).z == 0

/-- EQ_F (45_g1.md R313). -/
def eqPt (p1 p2 : Jac F) : Bool :=
  if p1.z = 0 ∨ p2.z = 0 then p1.z == 0 && p2.z == 0
  else
    p1.x * (p2.z * p2.z) == p2.x * (p1.z * p1.z) &&
      p1.y * (p2.z * p2.z * p2.z) == p2.y * (p1.z * p1.z * p1.z)

end Procedures

/-- b = 4 (00_scope.md R15). -/
def b1 : Fp := 4

/-- b' = 4 + 4u (00_scope.md R15). -/
def b2 : Fp2 := ⟨4, 4⟩

/-- Reads a G1 triple (10_state.md R38, 45_g1.md R300). -/
def State.readG1 (s : State) (slot : Nat) : Jac Fp := ⟨s.val1 slot, s.val1 (slot + 1), s.val1 (slot + 2)⟩

/-- Reads a G2 triple (10_state.md R39, 46_g2.md R330). -/
def State.readG2 (s : State) (slot : Nat) : Jac Fp2 := ⟨s.val2 slot, s.val2 (slot + 2), s.val2 (slot + 4)⟩

/-- Writes a G1 triple (45_g1.md R300). -/
def putG1 (slot : Nat) (p : Jac Fp) : List (Nat × SlotVal) :=
  put1 slot p.x ++ put1 (slot + 1) p.y ++ put1 (slot + 2) p.z

/-- Writes a G2 triple (46_g2.md R330). -/
def putG2 (slot : Nat) (p : Jac Fp2) : List (Nat × SlotVal) :=
  put2 slot p.x ++ put2 (slot + 2) p.y ++ put2 (slot + 4) p.z

end Sys2Proof.Machine
end

