-- ==== Sys2Proof/Machine/Miller.lean ====
section
/-! DEFINITION. The lines, the Miller loop, the final exponentiation and the input checks of the pairing
engine (47_pairing.md R361-R368). -/

namespace Sys2Proof.Machine

/-- The three coefficients of a line of shape 014 (47_pairing.md R361). -/
structure Line where
  c0 : Fp2
  c1 : Fp2
  c4 : Fp2
deriving DecidableEq

/-- The line as an Fp12 element (47_pairing.md R361). -/
def Line.elem (l : Line) : Fp12 := .shape014 l.c0 l.c1 l.c4

/-- LDBL: the tangent line at T evaluated at (xP, yP), and 2·T (47_pairing.md R362). -/
def lineDouble (t : Jac Fp2) (xp yp : Fp) : Line × Jac Fp2 :=
  let xx := t.x * t.x
  let zz := t.z * t.z
  let c0 := 3 * (xx * t.x) - 2 * (t.y * t.y)
  let c1 := scale (-(3 * (xx * zz))) xp
  let c4 := scale (2 * (t.y * (t.z * zz))) yp
  (⟨c0, c1, c4⟩, dblPt t)

/-- LADD: the line through T and the affine (xQ, yQ) evaluated at (xP, yP), and T + Q
(47_pairing.md R363). -/
def lineAddition (t : Jac Fp2) (xq yq : Fp2) (xp yp : Fp) : Line × Jac Fp2 :=
  let zz := t.z * t.z
  let h := xq * zz - t.x
  let r := yq * (t.z * zz) - t.y
  let hz := h * t.z
  let c0 := r * xq - yq * hz
  let c1 := scale (-r) xp
  let c4 := scale hz yp
  (⟨c0, c1, c4⟩, addPt t ⟨xq, yq, 1⟩)

/-- One pair of the work list W with its running point T (47_pairing.md R366). -/
structure Work where
  xp : Fp
  yp : Fp
  xq : Fp2
  yq : Fp2
  t : Jac Fp2
deriving DecidableEq

/-- Step 1 of the Miller loop: affinises a pair; a pair with a point at infinity is skipped
(47_pairing.md R366). -/
def workOf (p : Jac Fp) (q : Jac Fp2) : Option Work :=
  if p.z = 0 ∨ q.z = 0 then none
  else
    let p' := affPt fpInv p
    let q' := affPt fp2Inv q
    some ⟨p'.x, p'.y, q'.x, q'.y, ⟨q'.x, q'.y, 1⟩⟩

/-- A doubling step of every pair in ascending order, each multiplying its line into f. -/
def doubleAll : List Work → Fp12 → List Work × Fp12
  | [], f => ([], f)
  | w :: rest, f =>
    let lt := lineDouble w.t w.xp w.yp
    let more := doubleAll rest (f.mul lt.1.elem)
    ({ w with t := lt.2 } :: more.1, more.2)

/-- An addition step of every pair in ascending order. -/
def addAll : List Work → Fp12 → List Work × Fp12
  | [], f => ([], f)
  | w :: rest, f =>
    let lt := lineAddition w.t w.xq w.yq w.xp w.yp
    let more := addAll rest (f.mul lt.1.elem)
    ({ w with t := lt.2 } :: more.1, more.2)

/-- MLOOP over a list of pairs (47_pairing.md R366): bits 62 to 0 of |x|, then the conjugation. -/
def millerLoop (pairs : List (Jac Fp × Jac Fp2)) : Fp12 :=
  let work := pairs.filterMap fun pq => workOf pq.1 pq.2
  (ladder (fun wf => doubleAll wf.1 wf.2.sqr) (fun wf => addAll wf.1 wf.2) XABS 63 (work, Fp12.one)).2.conj

/-- The exponent (p¹² − 1)/q of the final exponentiation (47_pairing.md R368). -/
def finalExponent : Nat := (P ^ 12 - 1) / Q

/-- FE(f) = f^((p¹² − 1)/q), defined by its value (47_pairing.md R368). -/
def finalExp (f : Fp12) : Fp12 := f.pow (finalExponent.log2 + 1) finalExponent

/-- The pairs (P_i, Q_i), P_i at A + 3i and Q_i at B + 6i (47_pairing.md R360). -/
def State.readPairs (s : State) (a b n : Nat) : List (Jac Fp × Jac Fp2) :=
  (List.range n).map fun i => (s.readG1 (a + 3 * i), s.readG2 (b + 6 * i))

/-- The first point off its curve, P_i before Q_i (60_exceptions.md R407, R409). -/
def curveError (s : State) (a b n : Nat) : Option ErrReport :=
  (List.range n).findSome? fun i =>
    if !onCurve b1 (s.readG1 (a + 3 * i)) then
      some { code := .notOnCurve, slot := a + 3 * i, operand := .a, index := i }
    else if !onCurve b2 (s.readG2 (b + 6 * i)) then
      some { code := .notOnCurve, slot := b + 6 * i, operand := .b, index := i }
    else none

/-- The first point outside its order-q subgroup, P_i before Q_i (60_exceptions.md R408, R409). -/
def subgroupError (s : State) (a b n : Nat) : Option ErrReport :=
  (List.range n).findSome? fun i =>
    if !inSubgroup fpInv (s.readG1 (a + 3 * i)) then
      some { code := .notInSubgroup, slot := a + 3 * i, operand := .a, index := i }
    else if !inSubgroup fp2Inv (s.readG2 (b + 6 * i)) then
      some { code := .notInSubgroup, slot := b + 6 * i, operand := .b, index := i }
    else none

/-- The curve checks of every pair, then, with CHK = 1, the subgroup checks (60_exceptions.md R409). -/
def pairingError (s : State) (a b n : Nat) (chk : Bool) : Option ErrReport :=
  (curveError s a b n).or (if chk then subgroupError s a b n else none)

/-- The checks of 47_pairing.md R367 after the common ones, then the completion with one Fp12 result. -/
def pairingCommand (i : Instr) (s : State) (d a b : SlotNo) (n : Imm) (chk : Bool)
    (result : List (Jac Fp × Jac Fp2) → Fp12) : Answer :=
  guarded i s fun _ =>
    match pairingError s a.toNat b.toNat n.toNat chk with
    | some e => .next (s.abort e)
    | none =>
      .next (s.complete
        { writes := put12 d.toNat (result (s.readPairs a.toNat b.toNat n.toNat)) })

end Sys2Proof.Machine
end

