-- ==== Sys2Proof/Machine/Data.lean ====
section
/-! DEFINITION. The meanings of the data movement commands (40_data.md). -/

namespace Sys2Proof.Machine

/-- NOP (40_data.md R140). -/
def execNop (s : State) : Answer := completes .nop s fun _ => { }

/-- MOV: copies n slots, all reads first (40_data.md R141). -/
def execMov (d a : SlotNo) (n : Imm) (s : State) : Answer :=
  completes (.mov d a n) s fun _ =>
    { writes := putInts d.toNat ((List.range n.toNat).map fun i => s.slotInt (a.toNat + i)) }

/-- ZERO: sets n slots to 0 (40_data.md R142). -/
def execZero (d : SlotNo) (n : Imm) (s : State) : Answer :=
  completes (.zero d n) s fun _ => { writes := putInts d.toNat (List.replicate n.toNat 0) }

/-- CONST: writes a constant of the constant store (40_data.md R143). -/
def execConst (d : SlotNo) (id : Imm) (s : State) : Answer :=
  completes (.const d id) s fun _ => { writes := putInts d.toNat (constTable id) }

end Sys2Proof.Machine
end

