-- ==== Sys2Proof/Machine/Fp.lean ====
section
/-! DEFINITION. The meanings of the Fp commands, on slot integers as 41_fp.md states them. -/

namespace Sys2Proof.Machine

/-- FP_ADD: `EM[D] <- (EM[A] + EM[B]) mod p` (41_fp.md R151). -/
def execFpAdd (d a b : SlotNo) (s : State) : Answer :=
  completes (.fpAdd d a b) s fun _ =>
    { writes := putInt d.toNat ((s.slotInt a.toNat + s.slotInt b.toNat) % P) }

/-- FP_SUB: `EM[D] <- (EM[A] - EM[B]) mod p` (41_fp.md R152); p is added first, which keeps the
difference of canonical integers a natural number. -/
def execFpSub (d a b : SlotNo) (s : State) : Answer :=
  completes (.fpSub d a b) s fun _ =>
    { writes := putInt d.toNat ((s.slotInt a.toNat + P - s.slotInt b.toNat) % P) }

/-- FP_DBL: `EM[D] <- (2·EM[A]) mod p` (41_fp.md R153). -/
def execFpDbl (d a : SlotNo) (s : State) : Answer :=
  completes (.fpDbl d a) s fun _ => { writes := putInt d.toNat (2 * s.slotInt a.toNat % P) }

/-- FP_NEG: `EM[D] <- (p - EM[A]) mod p` (41_fp.md R154). -/
def execFpNeg (d a : SlotNo) (s : State) : Answer :=
  completes (.fpNeg d a) s fun _ => { writes := putInt d.toNat ((P - s.slotInt a.toNat) % P) }

/-- FP_MUL: `EM[D] <- REDC(EM[A]·EM[B])` (41_fp.md R155). -/
def execFpMul (d a b : SlotNo) (s : State) : Answer :=
  completes (.fpMul d a b) s fun _ =>
    { writes := putInt d.toNat (redc (s.slotInt a.toNat * s.slotInt b.toNat)) }

/-- FP_SQR: `EM[D] <- REDC(EM[A]·EM[A])` (41_fp.md R156). -/
def execFpSqr (d a : SlotNo) (s : State) : Answer :=
  completes (.fpSqr d a) s fun _ =>
    { writes := putInt d.toNat (redc (s.slotInt a.toNat * s.slotInt a.toNat)) }

/-- FP_MONT: `EM[D] <- REDC(EM[A]·R2)` (41_fp.md R157). -/
def execFpMont (d a : SlotNo) (s : State) : Answer :=
  completes (.fpMont d a) s fun _ => { writes := putInt d.toNat (redc (s.slotInt a.toNat * R2)) }

/-- FP_DEMONT: `EM[D] <- REDC(EM[A]·1)` (41_fp.md R158). -/
def execFpDemont (d a : SlotNo) (s : State) : Answer :=
  completes (.fpDemont d a) s fun _ => { writes := putInt d.toNat (redc (s.slotInt a.toNat * 1)) }

/-- The double-width input of FP_REDC (41_fp.md R160). -/
def State.redcInput (s : State) (a b : SlotNo) : Nat := s.slotInt a.toNat + s.slotInt b.toNat * R

/-- FP_REDC: the reduction of `T = EM[A] + EM[B]·2³⁸⁴`, NONCANONICAL if T ≥ p·R (41_fp.md R160). -/
def execFpRedc (d a b : SlotNo) (s : State) : Answer :=
  guarded (.fpRedc d a b) s fun _ =>
    if P * R ≤ s.redcInput a b then
      .next (s.abort { code := .noncanonical, slot := b.toNat, operand := .b })
    else .next (s.complete { writes := putInt d.toNat (redc (s.redcInput a b)) })

/-- The loop of FP_EXP on slot integers, bits 383 down to 0 from One (41_fp.md R161). -/
def montPow (a k : Nat) : Nat := ladder (fun r => redc (r * r)) (fun r => redc (r * a)) k 384 ONE

/-- FP_EXP (41_fp.md R161). -/
def execFpExp (d a b : SlotNo) (s : State) : Answer :=
  completes (.fpExp d a b) s fun _ =>
    { writes := putInt d.toNat (montPow (s.slotInt a.toNat) (s.slotInt b.toNat)) }

/-- FP_INVUP: `EM[D] <- inv0(EM[A])·R2 mod p` (41_fp.md R162). -/
def execFpInvup (d a : SlotNo) (s : State) : Answer :=
  completes (.fpInvup d a) s fun _ =>
    { writes := putInt d.toNat (inv0 (s.slotInt a.toNat) * R2 % P), zdiv := s.allZero a.toNat 1 }

/-- FP_INVDOWN: `EM[D] <- inv0(EM[A])·R mod p` (41_fp.md R163). -/
def execFpInvdown (d a : SlotNo) (s : State) : Answer :=
  completes (.fpInvdown d a) s fun _ =>
    { writes := putInt d.toNat (inv0 (s.slotInt a.toNat) * R % P), zdiv := s.allZero a.toNat 1 }

/-- FP_INVEEA: `EM[D] <- inv0(EM[A])` (41_fp.md R164). -/
def execFpInveea (d a : SlotNo) (s : State) : Answer :=
  completes (.fpInveea d a) s fun _ =>
    { writes := putInt d.toNat (inv0 (s.slotInt a.toNat)), zdiv := s.allZero a.toNat 1 }

/-- FP_SQRT: writes the root `y^((p+1)/4)` if it is one (41_fp.md R165). -/
def execFpSqrt (d a : SlotNo) (s : State) : Answer :=
  completes (.fpSqrt d a) s fun _ =>
    let y := s.val1 a.toNat
    let r := sqrtp y
    if r * r = y then { writes := put1 d.toNat r, result := true } else { }

/-- FP_EQ (41_fp.md R166). -/
def execFpEq (a b : SlotNo) (s : State) : Answer :=
  completes (.fpEq a b) s fun _ => { result := s.allEqual a.toNat b.toNat 1 }

/-- FP_ISZERO (41_fp.md R167). -/
def execFpIszero (a : SlotNo) (s : State) : Answer :=
  completes (.fpIszero a) s fun _ => { result := s.allZero a.toNat 1 }

end Sys2Proof.Machine
end

