-- ==== Sys2Proof/Machine/Fp12.lean ====
section
/-! DEFINITION. The meanings of the Fp12 commands (44_fp12.md), on values. -/

namespace Sys2Proof.Machine

/-- FP12_ADD (44_fp12.md R261). -/
def execFp12Add (d a b : SlotNo) (s : State) : Answer :=
  completes (.fp12Add d a b) s fun _ =>
    { writes := put12 d.toNat ((s.val12 a.toNat).add (s.val12 b.toNat)) }

/-- FP12_SUB (44_fp12.md R262). -/
def execFp12Sub (d a b : SlotNo) (s : State) : Answer :=
  completes (.fp12Sub d a b) s fun _ =>
    { writes := put12 d.toNat ((s.val12 a.toNat).sub (s.val12 b.toNat)) }

/-- FP12_DBL (44_fp12.md R263). -/
def execFp12Dbl (d a : SlotNo) (s : State) : Answer :=
  completes (.fp12Dbl d a) s fun _ => { writes := put12 d.toNat (s.val12 a.toNat).dbl }

/-- FP12_NEG (44_fp12.md R264). -/
def execFp12Neg (d a : SlotNo) (s : State) : Answer :=
  completes (.fp12Neg d a) s fun _ => { writes := put12 d.toNat (s.val12 a.toNat).neg }

/-- FP12_MUL (44_fp12.md R265). -/
def execFp12Mul (d a b : SlotNo) (s : State) : Answer :=
  completes (.fp12Mul d a b) s fun _ =>
    { writes := put12 d.toNat ((s.val12 a.toNat).mul (s.val12 b.toNat)) }

/-- FP12_SQR (44_fp12.md R266). -/
def execFp12Sqr (d a : SlotNo) (s : State) : Answer :=
  completes (.fp12Sqr d a) s fun _ => { writes := put12 d.toNat (s.val12 a.toNat).sqr }

/-- FP12_CYCSQR: the formula, for every input (44_fp12.md R267). -/
def execFp12Cycsqr (d a : SlotNo) (s : State) : Answer :=
  completes (.fp12Cycsqr d a) s fun _ => { writes := put12 d.toNat (s.val12 a.toNat).cycSqr }

/-- FP12_MULBY014: D in place, by the sparse factor of shape 014 (44_fp12.md R268). -/
def execFp12Mulby014 (d a b c : SlotNo) (s : State) : Answer :=
  completes (.fp12Mulby014 d a b c) s fun _ =>
    { writes := put12 d.toNat
        ((s.val12 d.toNat).mul (.shape014 (s.val2 a.toNat) (s.val2 b.toNat) (s.val2 c.toNat))) }

/-- FP12_MULBY034: D in place, by the sparse factor of shape 034 (44_fp12.md R269). -/
def execFp12Mulby034 (d a b c : SlotNo) (s : State) : Answer :=
  completes (.fp12Mulby034 d a b c) s fun _ =>
    { writes := put12 d.toNat
        ((s.val12 d.toNat).mul (.shape034 (s.val2 a.toNat) (s.val2 b.toNat) (s.val2 c.toNat))) }

/-- FP12_INV (44_fp12.md R270). -/
def execFp12Inv (d a : SlotNo) (s : State) : Answer :=
  completes (.fp12Inv d a) s fun _ =>
    { writes := put12 d.toNat (s.val12 a.toNat).inv, zdiv := s.allZero a.toNat 12 }

/-- FP12_CONJ (44_fp12.md R271). -/
def execFp12Conj (d a : SlotNo) (s : State) : Answer :=
  completes (.fp12Conj d a) s fun _ => { writes := put12 d.toNat (s.val12 a.toNat).conj }

/-- FP12_FROB (44_fp12.md R272). -/
def execFp12Frob (d a : SlotNo) (k : Imm) (s : State) : Answer :=
  completes (.fp12Frob d a k) s fun _ =>
    { writes := put12 d.toNat ((s.val12 a.toNat).frob k.toNat) }

/-- FP12_EXP (44_fp12.md R273). -/
def execFp12Exp (d a b : SlotNo) (s : State) : Answer :=
  completes (.fp12Exp d a b) s fun _ =>
    { writes := put12 d.toNat ((s.val12 a.toNat).pow 384 (s.slotInt b.toNat)) }

/-- FP12_EQ (44_fp12.md R274). -/
def execFp12Eq (a b : SlotNo) (s : State) : Answer :=
  completes (.fp12Eq a b) s fun _ => { result := s.allEqual a.toNat b.toNat 12 }

/-- FP12_ISZERO (44_fp12.md R275). -/
def execFp12Iszero (a : SlotNo) (s : State) : Answer :=
  completes (.fp12Iszero a) s fun _ => { result := s.allZero a.toNat 12 }

end Sys2Proof.Machine
end

