-- ==== Sys2Proof/Machine/Fp2.lean ====
section
/-! DEFINITION. The meanings of the Fp2 commands (42_fp2.md), on values. -/

namespace Sys2Proof.Machine

/-- FP2_ADD (42_fp2.md R201). -/
def execFp2Add (d a b : SlotNo) (s : State) : Answer :=
  completes (.fp2Add d a b) s fun _ => { writes := put2 d.toNat (s.val2 a.toNat + s.val2 b.toNat) }

/-- FP2_SUB (42_fp2.md R202). -/
def execFp2Sub (d a b : SlotNo) (s : State) : Answer :=
  completes (.fp2Sub d a b) s fun _ => { writes := put2 d.toNat (s.val2 a.toNat - s.val2 b.toNat) }

/-- FP2_DBL (42_fp2.md R203). -/
def execFp2Dbl (d a : SlotNo) (s : State) : Answer :=
  completes (.fp2Dbl d a) s fun _ => { writes := put2 d.toNat (2 * s.val2 a.toNat) }

/-- FP2_NEG (42_fp2.md R204). -/
def execFp2Neg (d a : SlotNo) (s : State) : Answer :=
  completes (.fp2Neg d a) s fun _ => { writes := put2 d.toNat (-s.val2 a.toNat) }

/-- FP2_MUL, by the Karatsuba steps (42_fp2.md R205). -/
def execFp2Mul (d a b : SlotNo) (s : State) : Answer :=
  completes (.fp2Mul d a b) s fun _ =>
    { writes := put2 d.toNat (fp2MulKaratsuba (s.val2 a.toNat) (s.val2 b.toNat)) }

/-- FP2_SQR, by the complex squaring (42_fp2.md R206). -/
def execFp2Sqr (d a : SlotNo) (s : State) : Answer :=
  completes (.fp2Sqr d a) s fun _ => { writes := put2 d.toNat (fp2SqrComplex (s.val2 a.toNat)) }

/-- FP2_MULNR: times ξ = 1 + u (42_fp2.md R207). -/
def execFp2Mulnr (d a : SlotNo) (s : State) : Answer :=
  completes (.fp2Mulnr d a) s fun _ => { writes := put2 d.toNat (mulXi (s.val2 a.toNat)) }

/-- FP2_INV (42_fp2.md R208). -/
def execFp2Inv (d a : SlotNo) (s : State) : Answer :=
  completes (.fp2Inv d a) s fun _ =>
    { writes := put2 d.toNat (fp2Inv (s.val2 a.toNat)), zdiv := s.allZero a.toNat 2 }

/-- FP2_EXP (42_fp2.md R209). -/
def execFp2Exp (d a b : SlotNo) (s : State) : Answer :=
  completes (.fp2Exp d a b) s fun _ =>
    { writes := put2 d.toNat (powBits 384 (s.val2 a.toNat) (s.slotInt b.toNat)) }

/-- FP2_SQRT: D is not written when RESULT = 0 (42_fp2.md R210). -/
def execFp2Sqrt (d a : SlotNo) (s : State) : Answer :=
  completes (.fp2Sqrt d a) s fun _ =>
    match fp2Sqrt (s.val2 a.toNat) with
    | some r => { writes := put2 d.toNat r, result := true }
    | none => { }

/-- FP2_EQ (42_fp2.md R211). -/
def execFp2Eq (a b : SlotNo) (s : State) : Answer :=
  completes (.fp2Eq a b) s fun _ => { result := s.allEqual a.toNat b.toNat 2 }

/-- FP2_ISZERO (42_fp2.md R212). -/
def execFp2Iszero (a : SlotNo) (s : State) : Answer :=
  completes (.fp2Iszero a) s fun _ => { result := s.allZero a.toNat 2 }

end Sys2Proof.Machine
end

