-- ==== Sys2Proof/Machine/Fp6.lean ====
section
/-! DEFINITION. The meanings of the Fp6 commands (43_fp6.md), on values. -/

namespace Sys2Proof.Machine

/-- FP6_ADD (43_fp6.md R231). -/
def execFp6Add (d a b : SlotNo) (s : State) : Answer :=
  completes (.fp6Add d a b) s fun _ => { writes := put6 d.toNat ((s.val6 a.toNat).add (s.val6 b.toNat)) }

/-- FP6_SUB (43_fp6.md R232). -/
def execFp6Sub (d a b : SlotNo) (s : State) : Answer :=
  completes (.fp6Sub d a b) s fun _ => { writes := put6 d.toNat ((s.val6 a.toNat).sub (s.val6 b.toNat)) }

/-- FP6_DBL (43_fp6.md R233). -/
def execFp6Dbl (d a : SlotNo) (s : State) : Answer :=
  completes (.fp6Dbl d a) s fun _ => { writes := put6 d.toNat (s.val6 a.toNat).dbl }

/-- FP6_NEG (43_fp6.md R234). -/
def execFp6Neg (d a : SlotNo) (s : State) : Answer :=
  completes (.fp6Neg d a) s fun _ => { writes := put6 d.toNat (s.val6 a.toNat).neg }

/-- FP6_MUL (43_fp6.md R235). -/
def execFp6Mul (d a b : SlotNo) (s : State) : Answer :=
  completes (.fp6Mul d a b) s fun _ => { writes := put6 d.toNat ((s.val6 a.toNat).mul (s.val6 b.toNat)) }

/-- FP6_SQR: a·a with the product of R235 (43_fp6.md R236). -/
def execFp6Sqr (d a : SlotNo) (s : State) : Answer :=
  completes (.fp6Sqr d a) s fun _ => { writes := put6 d.toNat ((s.val6 a.toNat).mul (s.val6 a.toNat)) }

/-- FP6_MULBY01: D in place, by b0 + b1·v (43_fp6.md R237). -/
def execFp6Mulby01 (d a b : SlotNo) (s : State) : Answer :=
  completes (.fp6Mulby01 d a b) s fun _ =>
    { writes := put6 d.toNat ((s.val6 d.toNat).mulBy01 (s.val2 a.toNat) (s.val2 b.toNat)) }

/-- FP6_MULBY1: D in place, by b1·v (43_fp6.md R238). -/
def execFp6Mulby1 (d a : SlotNo) (s : State) : Answer :=
  completes (.fp6Mulby1 d a) s fun _ =>
    { writes := put6 d.toNat ((s.val6 d.toNat).mulBy1 (s.val2 a.toNat)) }

/-- FP6_MULNR: times v (43_fp6.md R239). -/
def execFp6Mulnr (d a : SlotNo) (s : State) : Answer :=
  completes (.fp6Mulnr d a) s fun _ => { writes := put6 d.toNat (s.val6 a.toNat).mulV }

/-- FP6_INV (43_fp6.md R240). -/
def execFp6Inv (d a : SlotNo) (s : State) : Answer :=
  completes (.fp6Inv d a) s fun _ =>
    { writes := put6 d.toNat (s.val6 a.toNat).inv, zdiv := s.allZero a.toNat 6 }

/-- FP6_FROB (43_fp6.md R241). -/
def execFp6Frob (d a : SlotNo) (k : Imm) (s : State) : Answer :=
  completes (.fp6Frob d a k) s fun _ => { writes := put6 d.toNat (frob6 (s.val6 a.toNat) k.toNat) }

/-- FP6_EQ (43_fp6.md R242). -/
def execFp6Eq (a b : SlotNo) (s : State) : Answer :=
  completes (.fp6Eq a b) s fun _ => { result := s.allEqual a.toNat b.toNat 6 }

/-- FP6_ISZERO (43_fp6.md R243). -/
def execFp6Iszero (a : SlotNo) (s : State) : Answer :=
  completes (.fp6Iszero a) s fun _ => { result := s.allZero a.toNat 6 }

end Sys2Proof.Machine
end

