-- ==== Sys2Proof/Machine/G1.lean ====
section
/-! DEFINITION. The meanings of the G1 commands (45_g1.md): the point procedures of 45_g1.md over Fp. -/

namespace Sys2Proof.Machine

/-- G1_DBL (45_g1.md R305). -/
def execG1Dbl (d a : SlotNo) (s : State) : Answer :=
  completes (.g1Dbl d a) s fun _ => { writes := putG1 d.toNat (dblPt (s.readG1 a.toNat)) }

/-- G1_ADD (45_g1.md R306). -/
def execG1Add (d a b : SlotNo) (s : State) : Answer :=
  completes (.g1Add d a b) s fun _ =>
    { writes := putG1 d.toNat (addPt (s.readG1 a.toNat) (s.readG1 b.toNat)) }

/-- G1_NEG (45_g1.md R307). -/
def execG1Neg (d a : SlotNo) (s : State) : Answer :=
  completes (.g1Neg d a) s fun _ => { writes := putG1 d.toNat (negPt (s.readG1 a.toNat)) }

/-- G1_AFFINE (45_g1.md R308). -/
def execG1Affine (d a : SlotNo) (s : State) : Answer :=
  completes (.g1Affine d a) s fun _ => { writes := putG1 d.toNat (affPt fpInv (s.readG1 a.toNat)) }

/-- G1_MUL (45_g1.md R309). -/
def execG1Mul (d a b : SlotNo) (s : State) : Answer :=
  completes (.g1Mul d a b) s fun _ =>
    { writes := putG1 d.toNat (mulPt fpInv (s.readG1 a.toNat) (s.slotInt b.toNat)) }

/-- G1_ISZERO: the slots of Z hold 0 (45_g1.md R310). -/
def execG1Iszero (a : SlotNo) (s : State) : Answer :=
  completes (.g1Iszero a) s fun _ => { result := s.allZero (a.toNat + 2) 1 }

/-- G1_ONCURVE (45_g1.md R311). -/
def execG1Oncurve (a : SlotNo) (s : State) : Answer :=
  completes (.g1Oncurve a) s fun _ => { result := onCurve b1 (s.readG1 a.toNat) }

/-- G1_INSUB (45_g1.md R312). -/
def execG1Insub (a : SlotNo) (s : State) : Answer :=
  completes (.g1Insub a) s fun _ => { result := inSubgroup fpInv (s.readG1 a.toNat) }

/-- G1_EQ (45_g1.md R313). -/
def execG1Eq (a b : SlotNo) (s : State) : Answer :=
  completes (.g1Eq a b) s fun _ => { result := eqPt (s.readG1 a.toNat) (s.readG1 b.toNat) }

end Sys2Proof.Machine
end

