-- ==== Sys2Proof/Machine/G2.lean ====
section
/-! DEFINITION. The meanings of the G2 commands (46_g2.md): the point procedures of 45_g1.md over Fp2. -/

namespace Sys2Proof.Machine

/-- G2_DBL (46_g2.md R331). -/
def execG2Dbl (d a : SlotNo) (s : State) : Answer :=
  completes (.g2Dbl d a) s fun _ => { writes := putG2 d.toNat (dblPt (s.readG2 a.toNat)) }

/-- G2_ADD (46_g2.md R332). -/
def execG2Add (d a b : SlotNo) (s : State) : Answer :=
  completes (.g2Add d a b) s fun _ =>
    { writes := putG2 d.toNat (addPt (s.readG2 a.toNat) (s.readG2 b.toNat)) }

/-- G2_NEG (46_g2.md R333). -/
def execG2Neg (d a : SlotNo) (s : State) : Answer :=
  completes (.g2Neg d a) s fun _ => { writes := putG2 d.toNat (negPt (s.readG2 a.toNat)) }

/-- G2_AFFINE (46_g2.md R334). -/
def execG2Affine (d a : SlotNo) (s : State) : Answer :=
  completes (.g2Affine d a) s fun _ => { writes := putG2 d.toNat (affPt fp2Inv (s.readG2 a.toNat)) }

/-- G2_MUL (46_g2.md R335). -/
def execG2Mul (d a b : SlotNo) (s : State) : Answer :=
  completes (.g2Mul d a b) s fun _ =>
    { writes := putG2 d.toNat (mulPt fp2Inv (s.readG2 a.toNat) (s.slotInt b.toNat)) }

/-- G2_ISZERO: the slots of Z hold 0 (46_g2.md R336). -/
def execG2Iszero (a : SlotNo) (s : State) : Answer :=
  completes (.g2Iszero a) s fun _ => { result := s.allZero (a.toNat + 4) 2 }

/-- G2_ONCURVE (46_g2.md R337). -/
def execG2Oncurve (a : SlotNo) (s : State) : Answer :=
  completes (.g2Oncurve a) s fun _ => { result := onCurve b2 (s.readG2 a.toNat) }

/-- G2_INSUB (46_g2.md R338). -/
def execG2Insub (a : SlotNo) (s : State) : Answer :=
  completes (.g2Insub a) s fun _ => { result := inSubgroup fp2Inv (s.readG2 a.toNat) }

/-- G2_EQ (46_g2.md R339). -/
def execG2Eq (a b : SlotNo) (s : State) : Answer :=
  completes (.g2Eq a b) s fun _ => { result := eqPt (s.readG2 a.toNat) (s.readG2 b.toNat) }

end Sys2Proof.Machine
end

