-- ==== Sys2Proof/Machine/Pairing.lean ====
section
/-! DEFINITION. The meanings of the commands of the pairing engine (47_pairing.md). -/

namespace Sys2Proof.Machine

/-- Writes the three coefficients of a line (47_pairing.md R361). -/
def putLine (slot : Nat) (l : Line) : List (Nat × SlotVal) :=
  put2 slot l.c0 ++ put2 (slot + 2) l.c1 ++ put2 (slot + 4) l.c4

/-- LINE_DBL: the coefficients first, T second (47_pairing.md R364). -/
def execLineDbl (d a b : SlotNo) (s : State) : Answer :=
  completes (.lineDbl d a b) s fun _ =>
    let lt := lineDouble (s.readG2 a.toNat) (s.val1 b.toNat) (s.val1 (b.toNat + 1))
    { writes := putLine d.toNat lt.1 ++ putG2 a.toNat lt.2 }

/-- LINE_ADD: the coefficients first, T second (47_pairing.md R365). -/
def execLineAdd (d a b c : SlotNo) (s : State) : Answer :=
  completes (.lineAdd d a b c) s fun _ =>
    let lt := lineAddition (s.readG2 a.toNat) (s.val2 c.toNat) (s.val2 (c.toNat + 2))
      (s.val1 b.toNat) (s.val1 (b.toNat + 1))
    { writes := putLine d.toNat lt.1 ++ putG2 a.toNat lt.2 }

/-- MILLER (47_pairing.md R367); n1 = n2 once the checks are passed. -/
def execMiller (d a b : SlotNo) (n1 n2 : Imm) (chk : Bool) (s : State) : Answer :=
  pairingCommand (.miller d a b n1 n2 chk) s d a b n1 chk millerLoop

/-- FINALEXP (47_pairing.md R369). -/
def execFinalexp (d a : SlotNo) (s : State) : Answer :=
  completes (.finalexp d a) s fun _ => { writes := put12 d.toNat (finalExp (s.val12 a.toNat)) }

/-- PAIR: the final exponentiation of the Miller loop (47_pairing.md R370). -/
def execPair (d a b : SlotNo) (n1 n2 : Imm) (chk : Bool) (s : State) : Answer :=
  pairingCommand (.pair d a b n1 n2 chk) s d a b n1 chk fun pairs => finalExp (millerLoop pairs)

end Sys2Proof.Machine
end

