-- ==== Sys2Proof/Machine/Dispatch.lean ====
section
/-! DEFINITION. The meaning of every command, one arm per constructor of `Instr`. -/

namespace Sys2Proof.Machine

/-- Executes a decoded command (60_exceptions.md R420, the step `execute the rule of LCMD's opcode` with
the checks of R409 that follow decoding). -/
def exec (i : Instr) (s : State) : Host.Outcome State Fault Refusal :=
  match i with
  -- 40_data.md
  | .nop => Sys2Proof.Machine.execNop s
  | .mov d a n => Sys2Proof.Machine.execMov d a n s
  | .zero d n => Sys2Proof.Machine.execZero d n s
  | .const d id => Sys2Proof.Machine.execConst d id s
  -- 41_fp.md
  | .fpAdd d a b => Sys2Proof.Machine.execFpAdd d a b s
  | .fpSub d a b => Sys2Proof.Machine.execFpSub d a b s
  | .fpDbl d a => Sys2Proof.Machine.execFpDbl d a s
  | .fpNeg d a => Sys2Proof.Machine.execFpNeg d a s
  | .fpMul d a b => Sys2Proof.Machine.execFpMul d a b s
  | .fpSqr d a => Sys2Proof.Machine.execFpSqr d a s
  | .fpMont d a => Sys2Proof.Machine.execFpMont d a s
  | .fpDemont d a => Sys2Proof.Machine.execFpDemont d a s
  | .fpRedc d a b => Sys2Proof.Machine.execFpRedc d a b s
  | .fpExp d a b => Sys2Proof.Machine.execFpExp d a b s
  | .fpInvup d a => Sys2Proof.Machine.execFpInvup d a s
  | .fpInvdown d a => Sys2Proof.Machine.execFpInvdown d a s
  | .fpInveea d a => Sys2Proof.Machine.execFpInveea d a s
  | .fpSqrt d a => Sys2Proof.Machine.execFpSqrt d a s
  | .fpEq a b => Sys2Proof.Machine.execFpEq a b s
  | .fpIszero a => Sys2Proof.Machine.execFpIszero a s
  -- 42_fp2.md
  | .fp2Add d a b => Sys2Proof.Machine.execFp2Add d a b s
  | .fp2Sub d a b => Sys2Proof.Machine.execFp2Sub d a b s
  | .fp2Dbl d a => Sys2Proof.Machine.execFp2Dbl d a s
  | .fp2Neg d a => Sys2Proof.Machine.execFp2Neg d a s
  | .fp2Mul d a b => Sys2Proof.Machine.execFp2Mul d a b s
  | .fp2Sqr d a => Sys2Proof.Machine.execFp2Sqr d a s
  | .fp2Mulnr d a => Sys2Proof.Machine.execFp2Mulnr d a s
  | .fp2Inv d a => Sys2Proof.Machine.execFp2Inv d a s
  | .fp2Exp d a b => Sys2Proof.Machine.execFp2Exp d a b s
  | .fp2Sqrt d a => Sys2Proof.Machine.execFp2Sqrt d a s
  | .fp2Eq a b => Sys2Proof.Machine.execFp2Eq a b s
  | .fp2Iszero a => Sys2Proof.Machine.execFp2Iszero a s
  -- 43_fp6.md
  | .fp6Add d a b => Sys2Proof.Machine.execFp6Add d a b s
  | .fp6Sub d a b => Sys2Proof.Machine.execFp6Sub d a b s
  | .fp6Dbl d a => Sys2Proof.Machine.execFp6Dbl d a s
  | .fp6Neg d a => Sys2Proof.Machine.execFp6Neg d a s
  | .fp6Mul d a b => Sys2Proof.Machine.execFp6Mul d a b s
  | .fp6Sqr d a => Sys2Proof.Machine.execFp6Sqr d a s
  | .fp6Mulby01 d a b => Sys2Proof.Machine.execFp6Mulby01 d a b s
  | .fp6Mulby1 d a => Sys2Proof.Machine.execFp6Mulby1 d a s
  | .fp6Mulnr d a => Sys2Proof.Machine.execFp6Mulnr d a s
  | .fp6Inv d a => Sys2Proof.Machine.execFp6Inv d a s
  | .fp6Frob d a k => Sys2Proof.Machine.execFp6Frob d a k s
  | .fp6Eq a b => Sys2Proof.Machine.execFp6Eq a b s
  | .fp6Iszero a => Sys2Proof.Machine.execFp6Iszero a s
  -- 44_fp12.md
  | .fp12Add d a b => Sys2Proof.Machine.execFp12Add d a b s
  | .fp12Sub d a b => Sys2Proof.Machine.execFp12Sub d a b s
  | .fp12Dbl d a => Sys2Proof.Machine.execFp12Dbl d a s
  | .fp12Neg d a => Sys2Proof.Machine.execFp12Neg d a s
  | .fp12Mul d a b => Sys2Proof.Machine.execFp12Mul d a b s
  | .fp12Sqr d a => Sys2Proof.Machine.execFp12Sqr d a s
  | .fp12Cycsqr d a => Sys2Proof.Machine.execFp12Cycsqr d a s
  | .fp12Mulby014 d a b c => Sys2Proof.Machine.execFp12Mulby014 d a b c s
  | .fp12Mulby034 d a b c => Sys2Proof.Machine.execFp12Mulby034 d a b c s
  | .fp12Inv d a => Sys2Proof.Machine.execFp12Inv d a s
  | .fp12Conj d a => Sys2Proof.Machine.execFp12Conj d a s
  | .fp12Frob d a k => Sys2Proof.Machine.execFp12Frob d a k s
  | .fp12Exp d a b => Sys2Proof.Machine.execFp12Exp d a b s
  | .fp12Eq a b => Sys2Proof.Machine.execFp12Eq a b s
  | .fp12Iszero a => Sys2Proof.Machine.execFp12Iszero a s
  -- 45_g1.md
  | .g1Dbl d a => Sys2Proof.Machine.execG1Dbl d a s
  | .g1Add d a b => Sys2Proof.Machine.execG1Add d a b s
  | .g1Neg d a => Sys2Proof.Machine.execG1Neg d a s
  | .g1Affine d a => Sys2Proof.Machine.execG1Affine d a s
  | .g1Mul d a b => Sys2Proof.Machine.execG1Mul d a b s
  | .g1Iszero a => Sys2Proof.Machine.execG1Iszero a s
  | .g1Oncurve a => Sys2Proof.Machine.execG1Oncurve a s
  | .g1Insub a => Sys2Proof.Machine.execG1Insub a s
  | .g1Eq a b => Sys2Proof.Machine.execG1Eq a b s
  -- 46_g2.md
  | .g2Dbl d a => Sys2Proof.Machine.execG2Dbl d a s
  | .g2Add d a b => Sys2Proof.Machine.execG2Add d a b s
  | .g2Neg d a => Sys2Proof.Machine.execG2Neg d a s
  | .g2Affine d a => Sys2Proof.Machine.execG2Affine d a s
  | .g2Mul d a b => Sys2Proof.Machine.execG2Mul d a b s
  | .g2Iszero a => Sys2Proof.Machine.execG2Iszero a s
  | .g2Oncurve a => Sys2Proof.Machine.execG2Oncurve a s
  | .g2Insub a => Sys2Proof.Machine.execG2Insub a s
  | .g2Eq a b => Sys2Proof.Machine.execG2Eq a b s
  -- 47_pairing.md
  | .lineDbl d a b => Sys2Proof.Machine.execLineDbl d a b s
  | .lineAdd d a b c => Sys2Proof.Machine.execLineAdd d a b c s
  | .miller d a b n1 n2 chk => Sys2Proof.Machine.execMiller d a b n1 n2 chk s
  | .finalexp d a => Sys2Proof.Machine.execFinalexp d a s
  | .pair d a b n1 n2 chk => Sys2Proof.Machine.execPair d a b n1 n2 chk s

end Sys2Proof.Machine
end

