-- ==== Sys2Proof/Machine/Host.lean ====
section
/-! DEFINITION. What an access of the host does: register reads and writes, the start, the soft reset,
and the slot window (10_state.md section 3, 20_memory.md, 70_reset_and_hazards.md). -/

namespace Sys2Proof.Machine

/-- Offset of CTRL (10_state.md R40). -/
def ctrlOffset : Nat := 0x008
/-- Offset of STATUS (10_state.md R40). -/
def statusOffset : Nat := 0x010
/-- Offset of CMD (10_state.md R40). -/
def cmdOffset : Nat := 0x018
/-- First offset of the slot window (20_memory.md R70). -/
def slotWindow : Nat := 0x4000
/-- Size of the window (20_memory.md R70). -/
def windowSize : Nat := 0x8000

/-- What a read of the register window returns (10_state.md R40, R47). -/
def State.readRegister (s : State) (off : Nat) : Word :=
  match off with
  | 0x000 => Config.idWord
  | 0x008 => s.ctrlWord
  | 0x010 => s.status.word
  | 0x018 => s.cmd
  | 0x020 => s.errinfo.word
  | 0x028 => s.paramWord
  | _ => 0#64

/-- Slot number of an offset of the slot window (20_memory.md R73). -/
def windowSlot (off : Nat) : Nat := (off - slotWindow) / 64

/-- Limb number of an offset of the slot window (20_memory.md R73). -/
def windowLimb (off : Nat) : Nat := (off - slotWindow) % 64 / 8

/-- The offset is a limb of an existing slot; every other offset of the slot window is a hole
(20_memory.md R73, R74). -/
def State.isLimb (s : State) (off : Nat) : Bool := windowSlot off < s.nslots && windowLimb off < 6

/-- Limb `l` of a slot integer (10_state.md R30). -/
def limbOf (v : SlotVal) (l : Nat) : Word := v.extractLsb' (64 * l) 64

/-- A read returns `v`; it changes no state of the CORE (20_memory.md R79). -/
def State.returns (s : State) (v : Word) : Answer := .next { s with rdata := some v }

/-- A read of the slot window: a free value while BUSY = 1 (70_reset_and_hazards.md R449; log entry 5),
holes and empty slots included (DEDUCED, log entries 12 and 21), else the limb (20_memory.md R73), 0 for
a hole (R74), a fault for an empty slot (R76). -/
def State.readWindow (s : State) (off : Nat) : Answer :=
  if s.status.busy then { s with draws := s.draws + 1 }.returns (Config.freeRead s.draws)
  else if s.isLimb off then
    match s.em.readSlot (windowSlot off) with
    | none => .fault .emptySlot
    | some v => s.returns (limbOf v (windowLimb off))
  else s.returns 0#64

/-- A read at an accepted offset. -/
def State.hostRead (s : State) (off : Nat) : Answer :=
  if off < slotWindow then s.returns (s.readRegister off) else s.readWindow off

/-- The destination slots of the command in flight are made empty, if LCMD passes the checks up to and
including SLOT_RANGE (70_reset_and_hazards.md R443). -/
def State.abandonedMemory (s : State) : Memory :=
  match decode s.lcmd with
  | .error _ => s.em
  | .ok i =>
    match earlyError i s.nslots with
    | some _ => s.em
    | none =>
      (operandsOf i).foldl (fun m o => if o.isOutput then m.clearSlots o.base.toNat o.width else m) s.em

/-- Soft reset (70_reset_and_hazards.md R442-R444). LCMD, which R442 with R440 leaves unspecified, is
kept: DESIGN CHOICE, log entry 22. -/
def State.softReset (s : State) : State :=
  { s with
    em := if s.status.busy then s.abandonedMemory else s.em
    ie := false
    cmd := 0#64
    status := Status.zero
    errinfo := ErrInfo.zero }

/-- A write of CTRL: a soft reset; or IE, with a start that is accepted when BUSY = 0
(60_exceptions.md R419) and dropped when BUSY = 1 (70_reset_and_hazards.md R447); or IE alone
(10_state.md R42). -/
def State.writeCtrl (s : State) (v : Word) : State :=
  if v.getLsbD 2 then s.softReset
  else
    let s := { s with ie := v.getLsbD 1 }
    if v.getLsbD 0 then
      if s.status.busy then { s with status := s.status.overrun } else s.latch s.cmd
    else s

/-- A write of the register window; ID, ERRINFO, PARAM and unused offsets ignore it (10_state.md
R40, R47). -/
def State.writeRegister (s : State) (off : Nat) (v : Word) : State :=
  if off = ctrlOffset then s.writeCtrl v
  else if off = statusOffset then { s with status := s.status.writeOneToClear v }
  else if off = cmdOffset then { s with cmd := v }
  else s

/-- A write of the slot window: dropped with OVR while BUSY = 1, holes included (70_reset_and_hazards.md
R448; log entry 13), else it sets one limb (20_memory.md R73) or is ignored by a hole (R74). -/
def State.writeWindow (s : State) (off : Nat) (v : Word) : State :=
  if s.status.busy then { s with status := s.status.overrun }
  else if s.isLimb off then { s with em := s.em.write off 8 v.toNat }
  else s

/-- A write at an accepted offset. -/
def State.hostWrite (s : State) (off : Nat) (v : Word) : Answer :=
  .next (if off < slotWindow then s.writeRegister off v else s.writeWindow off v)

/-- The offset of an access, if the CORE accepts it: inside the window, 64 bits wide, at a multiple of 8
(20_memory.md R70, R72; log entries 10 and 11). -/
def State.accepts (s : State) (addr width : Nat) : Except Fault Nat :=
  if addr < s.base ∨ s.base + windowSize ≤ addr then .error .outsideWindow
  else if width = 8 ∧ (addr - s.base) % 8 = 0 then .ok (addr - s.base)
  else .error .busError

/-- MemRead(addr, width) (20_memory.md R70). -/
def State.memRead (s : State) (addr width : Nat) : Answer :=
  match s.accepts addr width with
  | .error f => .fault f
  | .ok off => s.hostRead off

/-- MemWrite(addr, width, v) (20_memory.md R70). -/
def State.memWrite (s : State) (addr width : Nat) (v : Word) : Answer :=
  match s.accepts addr width with
  | .error f => .fault f
  | .ok off => s.hostWrite off v

end Sys2Proof.Machine
end

