-- ==== Sys2Proof/Machine/Engine.lean ====
section
/-! DEFINITION. A turn of the engine, and what one event does. -/

namespace Sys2Proof.Machine

/-- Runs the latched command: the check of its word, then its meaning (60_exceptions.md R420, R409). -/
def State.runLatched (s : State) : Answer :=
  match decode s.lcmd with
  | .ok i => exec i s
  | .error e => .next (s.abort (decodeReport e))

/-- The completion step while BUSY = 1; with no command in flight the engine has no step and the state
stays (60_exceptions.md R420). -/
def State.engineTurn (s : State) : Answer := if s.status.busy then s.runLatched else .next s

/-- What an event does. -/
def State.handle (s : State) : HostEvent → Answer
  | .read addr width => s.memRead addr width
  | .write addr width v => s.memWrite addr width v
  | .engine => s.engineTurn
  | .hardReset => .next s.hardReset

/-- The next event of the schedule; with none left it is the engine's turn, which is the weak fairness
of the completion step (00_scope.md R8; log entry 3). -/
def State.advance (s : State) : Answer :=
  match s.inbox with
  | [] => s.engineTurn
  | e :: rest => { s with inbox := rest }.handle e

end Sys2Proof.Machine
end

