-- ==== Sys2Proof/Machine/Step.lean ====
section
/-! DEFINITION. One step of the machine, and how a command is placed for it. -/

namespace Sys2Proof.Machine

/-- One step: one host access, one turn of the engine, or one hardware reset (00_scope.md R6;
20_memory.md R81). -/
def step (s : State) : Host.Outcome State Fault Refusal := s.advance

/-- The state in which `w` is the command in flight and the engine is next. The CORE fetches nothing:
a command is latched from CMD by a start (10_state.md R31, R48), so this is the state after that start
(log entry 15). -/
def State.withFetchWord (s : State) (nbits w : Nat) : State :=
  { s.latch (BitVec.ofNat 64 (w % 2 ^ nbits)) with inbox := .engine :: s.inbox }

end Sys2Proof.Machine
end

