-- ==== Sys2Proof/Machine/HostBytes.lean ====
section
/-! DEFINITION. The byte encodings of field elements and points that the host keeps
(20_memory.md R86-R91). No command produces or parses them: they say how a byte string relates to the
value of a slot range. -/

namespace Sys2Proof.Machine

/-- The `n` low bytes of an integer, most significant first (20_memory.md R86). -/
def bigEndian : Nat → Nat → List Byte
  | 0, _ => []
  | n + 1, v => bigEndian n (v / 256) ++ [BitVec.ofNat 8 v]

/-- The integer of a byte string, most significant byte first (20_memory.md R86). -/
def ofBigEndian (l : List Byte) : Nat := l.foldl (fun r b => 256 * r + b.toNat) 0

/-! ### Encoding -/

/-- 48 bytes of the standard integer (20_memory.md R86). -/
def encodeFp (a : Fp) : List Byte := bigEndian 48 a.val

/-- c1, then c0 (20_memory.md R87). -/
def encodeFp2 (a : Fp2) : List Byte := encodeFp a.im ++ encodeFp a.re

/-- c2, c1, c0 (20_memory.md R88). -/
def encodeFp6 (a : Fp6) : List Byte := encodeFp2 a.c2 ++ encodeFp2 a.c1 ++ encodeFp2 a.c0

/-- c1, then c0 (20_memory.md R89). -/
def encodeFp12 (a : Fp12) : List Byte := encodeFp6 a.c1 ++ encodeFp6 a.c0

/-- The affine x, then y; the point at infinity has no encoding (20_memory.md R90). -/
def encodeG1 (p : Jac Fp) : Option (List Byte) :=
  if p.z = 0 then none
  else
    let a := affPt fpInv p
    some (encodeFp a.x ++ encodeFp a.y)

/-- The affine x, then y; the point at infinity has no encoding (20_memory.md R90). -/
def encodeG2 (p : Jac Fp2) : Option (List Byte) :=
  if p.z = 0 then none
  else
    let a := affPt fp2Inv p
    some (encodeFp2 a.x ++ encodeFp2 a.y)

/-! ### Decoding -/

/-- Rejects an integer not below p (20_memory.md R91). -/
def decodeFp (l : List Byte) : Option Fp :=
  if l.length = 48 ∧ ofBigEndian l < P then some (ofBigEndian l : Nat) else none

/-- 20_memory.md R87, R91. -/
def decodeFp2 (l : List Byte) : Option Fp2 := do
  let im ← decodeFp (l.take 48)
  let re ← decodeFp (l.drop 48)
  return ⟨re, im⟩

/-- 20_memory.md R88, R91. -/
def decodeFp6 (l : List Byte) : Option Fp6 := do
  let c2 ← decodeFp2 (l.take 96)
  let c1 ← decodeFp2 ((l.drop 96).take 96)
  let c0 ← decodeFp2 (l.drop 192)
  return ⟨c0, c1, c2⟩

/-- 20_memory.md R89, R91. -/
def decodeFp12 (l : List Byte) : Option Fp12 := do
  let c1 ← decodeFp6 (l.take 288)
  let c0 ← decodeFp6 (l.drop 288)
  return ⟨c0, c1⟩

/-- Rejects a point off the curve or outside the subgroup (20_memory.md R90, R91). -/
def decodeG1 (l : List Byte) : Option (Jac Fp) := do
  let x ← decodeFp (l.take 48)
  let y ← decodeFp (l.drop 48)
  let p : Jac Fp := ⟨x, y, 1⟩
  if onCurve b1 p && inSubgroup fpInv p then some p else none

/-- Rejects a point off the curve or outside the subgroup (20_memory.md R90, R91). -/
def decodeG2 (l : List Byte) : Option (Jac Fp2) := do
  let x ← decodeFp2 (l.take 96)
  let y ← decodeFp2 (l.drop 96)
  let p : Jac Fp2 := ⟨x, y, 1⟩
  if onCurve b2 p && inSubgroup fp2Inv p then some p else none

/-! ### Slots -/

/-- The encoding of the element an Fp slot holds (20_memory.md R86). The rule speaks only of a slot that
holds an element; for an empty slot this is the encoding of 0, for an integer not below p that of its
residue: DESIGN CHOICE, log entry 23. -/
def State.fpBytes (s : State) (slot : Nat) : List Byte := encodeFp (s.val1 slot)

/-- The encoding of the element an Fp12 slot range holds, from its last slot down (20_memory.md R89);
slots that hold no element as in `State.fpBytes` (DESIGN CHOICE, log entry 23). -/
def State.fp12Bytes (s : State) (slot : Nat) : List Byte := encodeFp12 (s.val12 slot)

end Sys2Proof.Machine
end

