-- ==== Sys2Proof/Safety.lean ====
section
/-! DEFINITION. The terms of the claims: the invariant of the machine, operands a command may use, what
a completed and an aborted command leave, and the end of a run. -/

namespace Sys2Proof.Machine

/-! ### The invariant -/

/-- STATUS and ERRINFO agree as 10_state.md R52-R57 and 60_exceptions.md R410, R411 say. -/
def StatusInv (st : Status) (ei : ErrInfo) : Prop :=
  (st.busy → st.done = false ∧ st.err = false ∧ st.result = false ∧ st.zdiv = false) ∧
  (st.err = decide (st.errcode ≠ 0#8)) ∧
  st.errcode.toNat ≤ 7 ∧
  (st.err = false → ei = ErrInfo.zero) ∧
  (st.err → st.result = false ∧ st.zdiv = false) ∧
  ¬(st.result ∧ st.zdiv)

/-- Every step keeps this: the memory is in its canonical form and holds only bytes of existing slots,
the parameters are legal (00_scope.md R7, R9), and the status fields agree. -/
def State.Inv (s : State) : Prop :=
  s.em.wf ∧
  (∀ c ∈ s.em, slotByte s.nslots c.1) ∧
  (1 ≤ s.nslots ∧ s.nslots ≤ 256) ∧
  s.base % 0x8000 = 0 ∧
  StatusInv s.status s.errinfo

/-! ### Operands -/

/-- The operand lies inside EM; one of width 0 always does (30_encoding.md R103). -/
def Fits (s : State) (slot : SlotNo) (w : Nat) : Prop := w = 0 ∨ slot.toNat + w ≤ s.nslots

/-- The slots from `slot` on hold canonical integers (30_encoding.md R103, 10_state.md R34). -/
def Canonical (s : State) (slot w : Nat) : Prop :=
  ∀ k < w, (s.em.readSlot (slot + k)).any fun v => decide (v.toNat < P)

/-- The slots from `slot` on hold some value. -/
def Present (s : State) (slot w : Nat) : Prop := ∀ k < w, (s.em.readSlot (slot + k)).isSome

/-- A typed operand a command may read. -/
def Typed (s : State) (slot : SlotNo) (w : Nat) : Prop := Fits s slot w ∧ Canonical s slot.toNat w

/-- A raw operand a command may read. -/
def Raw (s : State) (slot : SlotNo) (w : Nat) : Prop := Fits s slot w ∧ Present s slot.toNat w

/-- The slot lies in an output operand of the command. -/
def InOutput (i : Instr) (slot : Nat) : Prop :=
  ∃ o ∈ operandsOf i, o.isOutput = true ∧ o.base.toNat ≤ slot ∧ slot < o.base.toNat + o.width

/-! ### What a command leaves -/

/-- Everything but EM, STATUS and ERRINFO is as before. -/
def SameControl (s t : State) : Prop :=
  t.nslots = s.nslots ∧ t.base = s.base ∧ t.ie = s.ie ∧ t.cmd = s.cmd ∧ t.lcmd = s.lcmd ∧
    t.inbox = s.inbox ∧ t.rdata = s.rdata ∧ t.draws = s.draws

/-- The command completed without error: STATUS and ERRINFO as 60_exceptions.md R420 leaves them, OVR
and the rest unchanged. -/
def Completed (s t : State) (result zdiv : Bool) : Prop :=
  t.status = ⟨false, true, false, result, zdiv, s.status.ovr, 0#8⟩ ∧ t.errinfo = ErrInfo.zero ∧
    SameControl s t

/-- The command was aborted with the error `e`: the state before it except STATUS and ERRINFO
(60_exceptions.md R411). -/
def Aborted (s t : State) (e : ErrReport) : Prop :=
  t = { s with status := ⟨false, true, true, false, false, s.status.ovr, e.code.code⟩, errinfo := e.info }

/-- The offset is not one of the 48 bytes of slot `slot`. -/
def OffSlot (slot off : Nat) : Prop := off < slotOffset slot ∨ slotOffset slot + 48 ≤ off

/-- Every byte of EM outside the slots `slot`, ..., `slot + w - 1` reads as before. -/
def Kept (s t : State) (slot w : Nat) : Prop :=
  ∀ off, (∀ k < w, OffSlot (slot + k) off) → t.em.readByte off = s.em.readByte off

/-- The command answers a next state in which it is complete, writes the `w` slots from `d` on with
canonical integers and no other byte, and `post` holds. -/
def Writes (i : Instr) (s : State) (d : SlotNo) (w : Nat) (zdiv : Bool) (post : State → Prop) : Prop :=
  ∃ t, exec i s = .next t ∧ Completed s t false zdiv ∧ Kept s t d.toNat w ∧ Canonical t d.toNat w ∧ post t

/-- The command answers a next state in which it is complete with the answer `result`, and EM is
unchanged. -/
def Decides (i : Instr) (s : State) (result : Bool) : Prop :=
  ∃ t, exec i s = .next t ∧ Completed s t result false ∧ t.em = s.em

/-- The slots from `slot` on hold these integers. -/
def HoldsInts (t : State) (slot : Nat) (l : List Nat) : Prop :=
  ∀ k (h : k < l.length), (t.em.readSlot (slot + k)).map (·.toNat) = some l[k]

/-! ### Events and words -/

/-- The next event is a 64-bit host write of `v` at window offset `off`. -/
def NextWrite (s : State) (off : Nat) (v : Word) (rest : List HostEvent) : Prop :=
  s.inbox = .write (s.base + off) 8 v :: rest

/-- The next event is a 64-bit host read at window offset `off`. -/
def NextRead (s : State) (off : Nat) (rest : List HostEvent) : Prop :=
  s.inbox = .read (s.base + off) 8 :: rest

/-- The next event is the completion step of the command in flight. -/
def NextEngine (s : State) (rest : List HostEvent) : Prop :=
  s.status.busy = true ∧ s.inbox = .engine :: rest

/-- The opcode values of 30_encoding.md R107. -/
def IllegalOpcode (op : BitVec 8) : Prop :=
  (0x04 ≤ op.toNat ∧ op.toNat ≤ 0x0F) ∨ (0x2C ≤ op.toNat ∧ op.toNat ≤ 0x2F) ∨
  (0x3D ≤ op.toNat ∧ op.toNat ≤ 0x3F) ∨ op.toNat = 0x4F ∨ (0x59 ≤ op.toNat ∧ op.toNat ≤ 0x5F) ∨
  (0x69 ≤ op.toNat ∧ op.toNat ≤ 0x6F) ∨ 0x75 ≤ op.toNat

/-- The 8-bit fields in the order they are examined (60_exceptions.md R403.3). -/
def checkedFields : List FieldName := [.d, .a, .b, .c, .e, .f]

/-- The content of an 8-bit field of a command word (30_encoding.md R101). -/
def fieldByte (w : Word) : FieldName → BitVec 8
  | .d => w.extractLsb' 8 8
  | .a => w.extractLsb' 16 8
  | .b => w.extractLsb' 24 8
  | .c => w.extractLsb' 32 8
  | .e => w.extractLsb' 40 8
  | .f => w.extractLsb' 48 8
  | .none | .x => 0#8

/-- Whether an opcode uses an 8-bit field (30_encoding.md R102). -/
def usesField (u : FieldUse) : FieldName → Bool
  | .d => u.d
  | .a => u.a
  | .b => u.b
  | .c => u.c
  | .e => u.e
  | .f => u.f
  | .none | .x => false

/-! ### Points -/

section Points

variable {F : Type} [CommRing F]

/-- The canonical point at infinity (45_g1.md R300). -/
def infinity : Jac F := ⟨0, 1, 0⟩

/-- `r` is what DBL_F gives (45_g1.md R301). -/
def IsDouble (p r : Jac F) : Prop :=
  (p.z = 0 ∨ 2 * p.y * p.z = 0 → r = infinity) ∧
  (p.z ≠ 0 → 2 * p.y * p.z ≠ 0 →
    r.x = (3 * p.x ^ 2) ^ 2 - 2 * (4 * p.x * p.y ^ 2) ∧
    r.y = 3 * p.x ^ 2 * (4 * p.x * p.y ^ 2 - r.x) - 8 * p.y ^ 4 ∧
    r.z = 2 * p.y * p.z)

/-- `r` is what ADD_F gives (45_g1.md R302). -/
def IsSum (p q r : Jac F) : Prop :=
  (p.z = 0 → q.z = 0 → r = infinity) ∧
  (p.z = 0 → q.z ≠ 0 → r = q) ∧
  (p.z ≠ 0 → q.z = 0 → r = p) ∧
  (p.z ≠ 0 → q.z ≠ 0 →
    let h := q.x * p.z ^ 2 - p.x * q.z ^ 2
    let d := q.y * p.z ^ 3 - p.y * q.z ^ 3
    (h = 0 → d = 0 → IsDouble p r) ∧
    (h = 0 → d ≠ 0 → r = infinity) ∧
    (h ≠ 0 →
      r.x = d ^ 2 - h ^ 3 - 2 * (p.x * q.z ^ 2 * h ^ 2) ∧
      r.y = d * (p.x * q.z ^ 2 * h ^ 2 - r.x) - p.y * q.z ^ 3 * h ^ 3 ∧
      r.z = h * p.z * q.z))

/-- `r` is what AFF_F gives (45_g1.md R303). -/
def IsAffine (p r : Jac F) : Prop :=
  (p.z = 0 → r = p) ∧
  (p.z ≠ 0 → ∃ zi, p.z * zi = 1 ∧ r = ⟨p.x * zi ^ 2, p.y * zi ^ 3, 1⟩)

/-- `r` is what MUL_F gives: the running points of the ladder from bit 383 down to bit 0, then the
normalisation (45_g1.md R304). -/
def IsMultiple (p : Jac F) (k : Nat) (r : Jac F) : Prop :=
  ∃ T : Nat → Jac F, T 384 = infinity ∧
    (∀ i < 384, ∃ d, IsDouble (T (i + 1)) d ∧
      if k.testBit i then IsSum d p (T i) else T i = d) ∧
    ((T 0).z = 0 → r = infinity) ∧ ((T 0).z ≠ 0 → IsAffine (T 0) r)

/-- q·P is the point at infinity (45_g1.md R312). -/
def InSubgroup (p : Jac F) : Prop := ∃ r, IsMultiple p Q r ∧ r.z = 0

end Points

/-- On y² = x³ + 4, or at infinity (45_g1.md R311). -/
def OnCurve1 (p : Jac Fp) : Prop := p.z = 0 ∨ p.y ^ 2 = p.x ^ 3 + 4 * p.z ^ 6

/-- On y² = x³ + (4 + 4u), or at infinity (46_g2.md R337). -/
def OnCurve2 (p : Jac Fp2) : Prop := p.z = 0 ∨ p.y ^ 2 = p.x ^ 3 + ⟨4, 4⟩ * p.z ^ 6

/-! ### Powers -/

/-- aⁿ in Fp6 by repeated multiplication. -/
def Fp6.npow (a : Fp6) : Nat → Fp6
  | 0 => .one
  | n + 1 => (a.npow n).mul a

/-- aⁿ in Fp12 by repeated multiplication. -/
def Fp12.npow (a : Fp12) : Nat → Fp12
  | 0 => .one
  | n + 1 => (a.npow n).mul a

/-! ### Runs -/

/-- A run of a host program is over: no event is left and no command is in flight
(70_reset_and_hazards.md R456). -/
def State.runOver (s : State) : Bool := s.inbox.isEmpty && !s.status.busy

/-- A run is safe while no step of it stops: it never reads an empty slot and makes no refused access
(60_exceptions.md R414). -/
def State.safeFor : Nat → State → Bool
  | 0, _ => true
  | n + 1, s =>
    match step s with
    | .next t => t.safeFor n
    | .fault _ => false
    | .refused _ => false

end Sys2Proof.Machine
end

