-- ==== Sys2Proof/Certificates/Slice0/Obligations.lean ====
section
/-! DEFINITION. The statements for the provers. Slots are the numbers in the command; `Fits`, `Typed`,
`Raw`, `Writes`, `Decides` and the other terms stand in Safety.lean. `Writes` and `Decides` say that the
command answers a next state, and its frame: STATUS (with OVR as before), ERRINFO, every other register
and every byte of EM outside the written slots. -/

open Sys2Proof Sys2Proof.Machine

/-! ### Encoding -/

/-- O1. Decoding an encoded command gives it back, with every operand (30_encoding.md R100-R102, R120). -/
def Obligations.DecodeEncode : Prop := ∀ i : Instr, decode (encode i) = .ok i

/-- O2. A word that decodes is the word of the command: no other word means it (30_encoding.md R101,
R102: every unused field is 0). -/
def Obligations.EncodeDecode : Prop := ∀ (w : Word) (i : Instr), decode w = .ok i → encode i = w

/-- O3. The worked encodings of 30_encoding.md R130. -/
def Obligations.WorkedEncodings : Prop :=
  decode 0x0000000000000000#64 = .ok .nop ∧
  decode 0x0000000000010116#64 = .ok (.fpMont 1#8 1#8) ∧
  decode 0x0000000002010314#64 = .ok (.fpMul 3#8 1#8 2#8) ∧
  decode 0x00000C0000000A01#64 = .ok (.mov 10#8 0#8 12#8) ∧
  decode 0x0000090000000003#64 = .ok (.const 0#8 9#8) ∧
  decode 0x000002000000063A#64 = .ok (.fp6Frob 6#8 0#8 2#8) ∧
  decode 0x0000002C2A281447#64 = .ok (.fp12Mulby014 20#8 40#8 42#8 44#8) ∧
  decode 0x0000000009030A64#64 = .ok (.g2Mul 10#8 3#8 9#8) ∧
  decode 0x00000003000A2871#64 = .ok (.lineAdd 40#8 10#8 0#8 3#8) ∧
  decode 0x010404000C006472#64 = .ok (.miller 100#8 0#8 12#8 4#8 4#8 true) ∧
  decode 0x0001010003001474#64 = .ok (.pair 20#8 0#8 3#8 1#8 1#8 false)

/-- O4. A command whose OP is a value of 30_encoding.md R107 aborts with ILLEGAL_OPCODE and ERRINFO = 0,
whatever its other fields hold (60_exceptions.md R402); no other word does. -/
def Obligations.IllegalOpcodes : Prop :=
  (∀ (s : State) (rest : List HostEvent), NextEngine s rest → IllegalOpcode (s.lcmd.extractLsb' 0 8) →
    step s = .next { s with
      inbox := rest
      status := ⟨false, true, true, false, false, s.status.ovr, 1#8⟩
      errinfo := ⟨0#8, 0#3, 0#8⟩ }) ∧
  (∀ w : Word, ¬IllegalOpcode (w.extractLsb' 0 8) → decode w ≠ .error .illegalOpcode)

/-- O5. A defined opcode with a nonzero reserved or unused field aborts with RESERVED_FIELD, the first
one in the order of 60_exceptions.md R403 reported; `r` is the row of the opcode. -/
def Obligations.ReservedFields : Prop :=
  ∀ (s : State) (rest : List HostEvent) (r : OpRow), NextEngine s rest →
    rowOf (s.lcmd.extractLsb' 0 8) = some r →
    let report (operand : BitVec 3) : Answer := .next { s with
      inbox := rest
      status := ⟨false, true, true, false, false, s.status.ovr, 2#8⟩
      errinfo := ⟨0#8, operand, 0#8⟩ }
    (s.lcmd.extractLsb' 57 7 ≠ 0#7 → step s = report 7#3) ∧
    (s.lcmd.extractLsb' 57 7 = 0#7 → s.lcmd.getLsbD 56 = true →
      (r.op ≠ 0x72#8 ∧ r.op ≠ 0x74#8 → step s = report 7#3)) ∧
    (s.lcmd.extractLsb' 57 7 = 0#7 → (s.lcmd.getLsbD 56 = true → r.op = 0x72#8 ∨ r.op = 0x74#8) →
      (∀ (before after : List FieldName) (fld : FieldName),
        checkedFields = before ++ fld :: after →
        (∀ y ∈ before, usesField r.uses y = true ∨ fieldByte s.lcmd y = 0#8) →
        usesField r.uses fld = false → fieldByte s.lcmd fld ≠ 0#8 → step s = report fld.code) ∧
      ((∀ y ∈ checkedFields, usesField r.uses y = true ∨ fieldByte s.lcmd y = 0#8) → r.op = 0x03#8 →
        fieldByte s.lcmd .e = 0#8 ∨ 0x10 ≤ (fieldByte s.lcmd .e).toNat → step s = report 5#3))

/-! ### The machine -/

/-- O6. The values of 70_reset_and_hazards.md R440, in the reset state and after a hardware reset of any
state; the parameters are unchanged by a reset. LCMD, which the spec leaves unspecified, is not
mentioned. -/
def Obligations.ResetValues : Prop :=
  let AtReset (t : State) : Prop :=
    (∀ slot, t.em.readSlot slot = none) ∧ t.ie = false ∧ t.cmd = 0#64 ∧
    t.status = ⟨false, false, false, false, false, false, 0#8⟩ ∧ t.errinfo = ⟨0#8, 0#3, 0#8⟩ ∧
    t.irq = false ∧ t.readRegister 0x000 = 0x424C533132333831#64 ∧
    t.readRegister 0x028 = 0#40 ++ 1#8 ++ BitVec.ofNat 16 t.nslots
  AtReset State.reset ∧
  ∀ (s : State) (rest : List HostEvent), s.inbox = .hardReset :: rest →
    ∃ t, step s = .next t ∧ AtReset t ∧ t.inbox = rest ∧ t.nslots = s.nslots ∧ t.base = s.base

/-- O7. The reset state meets the invariant of `StepKeepsInvariant`. -/
def Obligations.ResetInvariant : Prop := State.reset.Inv

/-- O8. Every step keeps the invariant: the slot memory is in its canonical form and holds bytes of
existing slots only, the parameters are legal, and the STATUS fields and ERRINFO agree
(10_state.md R46, R52-R57; 60_exceptions.md R410, R411). -/
def Obligations.StepKeepsInvariant : Prop := ∀ s t : State, s.Inv → step s = .next t → t.Inv

/-- O9. The completion step runs the command that LCMD holds: the state is passed to `exec` with the
event consumed (60_exceptions.md R420; 20_memory.md R84). An empty inbox is the engine's turn (log
entry 3). With no command in flight the turn changes nothing. `withFetchWord` places a command so. -/
def Obligations.StepRunsCommand : Prop :=
  (∀ (s : State) (i : Instr), s.status.busy = true → decode s.lcmd = .ok i →
    (∀ rest, s.inbox = .engine :: rest → step s = exec i { s with inbox := rest }) ∧
    (s.inbox = [] → step s = exec i s)) ∧
  (∀ s : State, s.status.busy = false →
    (∀ rest, s.inbox = .engine :: rest → step s = .next { s with inbox := rest }) ∧
    (s.inbox = [] → step s = .next s)) ∧
  (∀ (s : State) (i : Instr) (w : Nat), decode (BitVec.ofNat 64 w) = .ok i →
    step (s.withFetchWord 64 w) = exec i (s.latch (BitVec.ofNat 64 w)))

/-- O10. A start, a write of CTRL with bit 0 = 1 and bit 2 = 0: accepted while BUSY = 0, with the effects of
60_exceptions.md R419; dropped while BUSY = 1, where only IE and OVR change (R419;
70_reset_and_hazards.md R447). With bit 2 = 1 it is a soft reset instead: nothing is latched. That LCMD
then keeps its old word is the model's choice (log entry 22). -/
def Obligations.Start : Prop :=
  ∀ (s : State) (v : Word) (rest : List HostEvent), NextWrite s 0x008 v rest → v.getLsbD 0 = true →
    (v.getLsbD 2 = false → s.status.busy = false → step s = .next { s with
      inbox := rest
      ie := v.getLsbD 1
      lcmd := s.cmd
      status := ⟨true, false, false, false, false, s.status.ovr, 0#8⟩
      errinfo := ⟨0#8, 0#3, 0#8⟩ }) ∧
    (v.getLsbD 2 = false → s.status.busy = true → step s = .next { s with
      inbox := rest
      ie := v.getLsbD 1
      status := { s.status with ovr := true } }) ∧
    (v.getLsbD 2 = true → ∃ t, step s = .next t ∧ t.lcmd = s.lcmd ∧ t.ie = false ∧
      t.status = ⟨false, false, false, false, false, false, 0#8⟩)

/-- O11. While BUSY = 1 a write of the slot window is dropped and sets OVR, and a read of it returns some
word and changes nothing of the CORE (70_reset_and_hazards.md R448, R449). That this holds of the holes
of the window and of reads of empty slots too is the model's choice (log entries 12, 13 and 21), and
`draws` is the model's own counter (log entry 5). -/
def Obligations.SlotAccessWhileBusy : Prop :=
  ∀ (s : State) (off : Nat) (rest : List HostEvent), s.status.busy = true →
    0x4000 ≤ off → off < 0x8000 → off % 8 = 0 →
    (∀ v, NextWrite s off v rest →
      step s = .next { s with inbox := rest, status := { s.status with ovr := true } }) ∧
    (NextRead s off rest →
      ∃ v n, step s = .next { s with inbox := rest, rdata := some v, draws := n })

/-- O12. Writes of the registers, busy or not: CTRL without START and SRST sets IE (10_state.md R42);
STATUS clears DONE by bit 1 and OVR by bit 5 and nothing else (R43); CMD stores (R45,
70_reset_and_hazards.md R450); ID, ERRINFO, PARAM and the offsets 0x030-0x3FFF ignore it (R41, R44, R46,
R47). -/
def Obligations.RegisterWrites : Prop :=
  ∀ (s : State) (off : Nat) (v : Word) (rest : List HostEvent), NextWrite s off v rest →
    (off = 0x008 → v.getLsbD 0 = false → v.getLsbD 2 = false →
      step s = .next { s with inbox := rest, ie := v.getLsbD 1 }) ∧
    (off = 0x010 → step s = .next { s with
      inbox := rest
      status := { s.status with
        done := if v.getLsbD 1 then false else s.status.done
        ovr := if v.getLsbD 5 then false else s.status.ovr } }) ∧
    (off = 0x018 → step s = .next { s with inbox := rest, cmd := v }) ∧
    (off % 8 = 0 → off = 0x000 ∨ off = 0x020 ∨ off = 0x028 ∨ (0x030 ≤ off ∧ off < 0x4000) →
      step s = .next { s with inbox := rest })

/-- O13. Reads of the registers (10_state.md R40-R47): the constants, the fields bit by bit, 0 at the
offsets that hold no register; the CORE's state is unchanged (20_memory.md R79). -/
def Obligations.RegisterReads : Prop :=
  ∀ (s : State) (off : Nat) (rest : List HostEvent), NextRead s off rest → off % 8 = 0 → off < 0x4000 →
    ∃ v : Word, step s = .next { s with inbox := rest, rdata := some v } ∧
      (off = 0x000 → v = 0x424C533132333831#64) ∧
      (off = 0x008 → ∀ b < 64, v.getLsbD b = (decide (b = 1) && s.ie)) ∧
      (off = 0x010 → v.getLsbD 0 = s.status.busy ∧ v.getLsbD 1 = s.status.done ∧
        v.getLsbD 2 = s.status.err ∧ v.getLsbD 3 = s.status.result ∧ v.getLsbD 4 = s.status.zdiv ∧
        v.getLsbD 5 = s.status.ovr ∧ v.extractLsb' 6 2 = 0#2 ∧ v.extractLsb' 8 8 = s.status.errcode ∧
        v.extractLsb' 16 48 = 0#48) ∧
      (off = 0x018 → v = s.cmd) ∧
      (off = 0x020 → v.extractLsb' 0 8 = s.errinfo.slot ∧ v.extractLsb' 8 3 = s.errinfo.operand ∧
        v.extractLsb' 11 5 = 0#5 ∧ v.extractLsb' 16 8 = s.errinfo.index ∧ v.extractLsb' 24 40 = 0#40) ∧
      (off = 0x028 → v.extractLsb' 0 16 = BitVec.ofNat 16 s.nslots ∧ v.extractLsb' 16 8 = 1#8 ∧
        v.extractLsb' 24 40 = 0#40) ∧
      (0x030 ≤ off → v = 0#64)

/-- O14. While BUSY = 0, limb l of slot n at offset 0x4000 + 64n + 8l: a read returns bits
64l+63 : 64l of EM[n]; a write changes exactly those eight bytes, so a slot that holds a value keeps its
other five limbs (20_memory.md R73, R77). -/
def Obligations.SlotWindow : Prop :=
  ∀ (s : State) (n l : Nat) (rest : List HostEvent), s.em.wf = true → s.status.busy = false →
    n < s.nslots → n < 256 → l < 6 →
    (∀ x, NextRead s (0x4000 + 64 * n + 8 * l) rest → s.em.readSlot n = some x →
      step s = .next { s with inbox := rest, rdata := some (x.extractLsb' (64 * l) 64) }) ∧
    (∀ v, NextWrite s (0x4000 + 64 * n + 8 * l) v rest →
      ∃ m, step s = .next { s with inbox := rest, em := m } ∧
        (∀ off, off < 0x4000 + 64 * n + 8 * l ∨ 0x4000 + 64 * n + 8 * l + 8 ≤ off →
          m.readByte off = s.em.readByte off) ∧
        (∀ k < 8, m.readByte (0x4000 + 64 * n + 8 * l + k) = some (v.extractLsb' (8 * k) 8)) ∧
        (∀ x, s.em.readSlot n = some x → ∃ y, m.readSlot n = some y ∧
          ∀ j < 6, y.extractLsb' (64 * j) 64 = if j = l then v else x.extractLsb' (64 * j) 64))

/-- O15. While BUSY = 0, limbs 6 and 7 of every slot and every offset of a slot that does not exist read
as 0 and ignore writes (20_memory.md R74). -/
def Obligations.SlotHoles : Prop :=
  ∀ (s : State) (n l : Nat) (rest : List HostEvent), s.status.busy = false → n < 256 → l < 8 →
    s.nslots ≤ n ∨ 6 ≤ l →
    (NextRead s (0x4000 + 64 * n + 8 * l) rest →
      step s = .next { s with inbox := rest, rdata := some 0#64 }) ∧
    (∀ v, NextWrite s (0x4000 + 64 * n + 8 * l) v rest → step s = .next { s with inbox := rest })

/-- O16. A slot holds a value exactly when all its 48 bytes have been written; a host read of a slot that
holds none is a fault (20_memory.md R76). -/
def Obligations.EmptySlotReads : Prop :=
  ∀ (s : State) (n : Nat), s.em.wf = true →
    ((s.em.readSlot n).isSome = true ↔ ∀ k < 48, (s.em.readByte (0x4000 + 64 * n + k)).isSome = true) ∧
    (∀ (l : Nat) (rest : List HostEvent), s.status.busy = false → n < s.nslots → n < 256 → l < 6 →
      NextRead s (0x4000 + 64 * n + 8 * l) rest → s.em.readSlot n = none → step s = .fault .emptySlot)

/-- O17. A soft reset clears IE, CMD, STATUS and ERRINFO whatever the other written bits are; it changes
no slot while BUSY = 0 or while LCMD fails a check up to SLOT_RANGE; else it makes exactly the
destination slots of LCMD empty (70_reset_and_hazards.md R442-R444). It leaves irq at 0. That
it keeps LCMD is the model's choice (log entry 22). -/
def Obligations.SoftReset : Prop :=
  ∀ (s : State) (v : Word) (rest : List HostEvent), NextWrite s 0x008 v rest → v.getLsbD 2 = true →
    ∃ m, step s = .next { s with
        inbox := rest
        em := m
        ie := false
        cmd := 0#64
        status := ⟨false, false, false, false, false, false, 0#8⟩
        errinfo := ⟨0#8, 0#3, 0#8⟩ } ∧
      (s.status.busy = false → m = s.em) ∧
      ((∀ i, decode s.lcmd = .ok i → earlyError i s.nslots ≠ none) → m = s.em) ∧
      (∀ i, s.status.busy = true → decode s.lcmd = .ok i → earlyError i s.nslots = none →
        ∀ slot, (InOutput i slot → m.readSlot slot = none) ∧
          (¬InOutput i slot → m.readSlot slot = s.em.readSlot slot))

/-- O18. An access that is not 64 bits wide at a multiple of 8 is refused by the bus, a fault of the
host's program (20_memory.md R72). -/
def Obligations.BusErrors : Prop :=
  ∀ (s : State) (off width : Nat) (rest : List HostEvent), off < 0x8000 → width ≠ 8 ∨ off % 8 ≠ 0 →
    (s.inbox = .read (s.base + off) width :: rest → step s = .fault .busError) ∧
    (∀ v, s.inbox = .write (s.base + off) width v :: rest → step s = .fault .busError)

/-- O19. A host read changes no state of the CORE, whatever its offset (20_memory.md R79): when it is
answered, only the data read, the model's count of draws and the host's own queue differ. -/
def Obligations.ReadsChangeNothing : Prop :=
  ∀ (s t : State) (addr width : Nat) (rest : List HostEvent), s.inbox = .read addr width :: rest →
    step s = .next t → t = { s with inbox := rest, rdata := t.rdata, draws := t.draws }

/-- O20. irq = IE AND DONE, 0 after reset. DONE becomes 1 at every completion, aborted or not; an accepted
start, a write of 1 to STATUS bit 1 and either reset clear it; a write of IE moves irq and leaves DONE
alone (60_exceptions.md R421; 10_state.md R51). -/
def Obligations.Interrupt : Prop :=
  (∀ s : State, (s.irq = true ↔ s.ie = true ∧ s.status.done = true)) ∧ State.reset.irq = false ∧
  (∀ s t : State, s.runLatched = .next t → t.status.done = true ∧ t.irq = s.ie) ∧
  (∀ (s t : State) (v : Word) (rest : List HostEvent), NextWrite s 0x008 v rest → step s = .next t →
    (v.getLsbD 2 = true ∨ (v.getLsbD 0 = true ∧ s.status.busy = false) →
      t.status.done = false ∧ t.irq = false) ∧
    (v.getLsbD 2 = false → v.getLsbD 0 = false ∨ s.status.busy = true →
      t.irq = (v.getLsbD 1 && s.status.done) ∧ t.status.done = s.status.done)) ∧
  (∀ (s t : State) (v : Word) (rest : List HostEvent), NextWrite s 0x010 v rest → step s = .next t →
    t.irq = (s.irq && !v.getLsbD 1) ∧ (v.getLsbD 1 = true → t.status.done = false)) ∧
  (∀ (s t : State) (rest : List HostEvent), s.inbox = .hardReset :: rest → step s = .next t →
    t.status.done = false ∧ t.irq = false)

/-! ### Every command -/

/-- O21. What every command answers: a next state in which it is complete, with OVR and everything but
EM, STATUS and ERRINFO as before; or the fault of an empty slot, when an input slot holds no value. It
never refuses (60_exceptions.md R414, R420). -/
def Obligations.ExecOutcomes : Prop :=
  ∀ (i : Instr) (s : State),
    (∃ t, exec i s = .next t ∧ t.status.busy = false ∧ t.status.done = true ∧
      t.status.ovr = s.status.ovr ∧ SameControl s t) ∨
    (exec i s = .fault .emptySlot ∧
      ∃ o ∈ operandsOf i, o.isInput = true ∧ ∃ k < o.width, s.em.readSlot (o.base.toNat + k) = none)

/-- O22. A command writes no byte of EM outside its output operands (30_encoding.md R103;
20_memory.md R71). -/
def Obligations.ExecFrame : Prop :=
  ∀ (i : Instr) (s t : State), exec i s = .next t → ∀ off,
    (∀ o ∈ operandsOf i, o.isOutput = true → ∀ k < o.width, OffSlot (o.base.toNat + k) off) →
    t.em.readByte off = s.em.readByte off

/-- O23. An abort is precise: when the completion reports an error, no slot changed, and the state differs
from the one before only in STATUS and ERRINFO (60_exceptions.md R411). -/
def Obligations.AbortIsPrecise : Prop :=
  ∀ s t : State, s.runLatched = .next t → t.status.err = true →
    t = { s with
      status := ⟨false, true, true, false, false, s.status.ovr, t.status.errcode⟩
      errinfo := t.errinfo } ∧
    1 ≤ t.status.errcode.toNat ∧ t.status.errcode.toNat ≤ 7

/-- O24. A command whose checks up to SLOT_RANGE pass and that reads an empty slot faults, if no checked
slot that holds a value is out of range (60_exceptions.md R414; which comes first is the model's choice,
log entry 8). -/
def Obligations.EmptySlotFaults : Prop :=
  ∀ (i : Instr) (s : State), earlyError i s.nslots = none →
    (∀ o ∈ operandsOf i, o.isInput = true → o.canonical = true → ∀ k < o.width, ∀ v,
      s.em.readSlot (o.base.toNat + k) = some v → v.toNat < P) →
    (∃ o ∈ operandsOf i, o.isInput = true ∧ ∃ k < o.width, s.em.readSlot (o.base.toNat + k) = none) →
    exec i s = .fault .emptySlot

/-- O25. SLOT_RANGE: the first operand, in the order D, A, B, C, whose last slot is not below NSLOTS is
reported (60_exceptions.md R405). -/
def Obligations.SlotRange : Prop :=
  ∀ (i : Instr) (s : State) (before after : List Operand) (o : Operand), i.wellFormed = true →
    operandsOf i = before ++ o :: after → (∀ x ∈ before, Fits s x.base x.width) →
    o.width ≠ 0 → s.nslots < o.base.toNat + o.width →
    ∃ t, exec i s = .next t ∧ Aborted s t { code := .slotRange, slot := o.base.toNat, operand := o.fld }

/-- O26. LENGTH_MISMATCH: MILLER and PAIR with E ≠ F, whatever the state (60_exceptions.md R404). -/
def Obligations.LengthMismatch : Prop :=
  ∀ (s : State) (d a b : SlotNo) (n1 n2 : Imm) (chk : Bool), n1 ≠ n2 →
    ∀ i ∈ [Instr.miller d a b n1 n2 chk, .pair d a b n1 n2 chk],
      exec i s = .next { s with
        status := ⟨false, true, true, false, false, s.status.ovr, 3#8⟩
        errinfo := ⟨0#8, 6#3, 0#8⟩ }

/-- O27. NONCANONICAL: the first checked slot that holds an integer ≥ p, operands in the order A, B, C,
then the in/out D, slots ascending; INDEX is the pair index in a point array, else 0; and FP_REDC with
T ≥ p·R (60_exceptions.md R406). That it aborts also when a later checked slot or a raw slot is empty is
the model's choice (log entries 8 and 9). -/
def Obligations.Noncanonical : Prop :=
  (∀ (i : Instr) (s : State) (before after : List Operand) (o : Operand) (k : Nat) (v : SlotVal),
    earlyError i s.nslots = none →
    (operandsOf i).filter (fun o => o.isInput && o.canonical && o.fld != .d) ++
      (operandsOf i).filter (fun o => o.isInput && o.canonical && o.fld == .d) = before ++ o :: after →
    (∀ x ∈ before, Canonical s x.base.toNat x.width) → Canonical s o.base.toNat k → k < o.width →
    s.em.readSlot (o.base.toNat + k) = some v → P ≤ v.toNat →
    ∃ t, exec i s = .next t ∧ Aborted s t
      { code := .noncanonical, slot := o.base.toNat + k, operand := o.fld,
        index := if o.stride = 0 then 0 else k / o.stride }) ∧
  (∀ (s : State) (d a b : SlotNo), Fits s d 1 → Raw s a 1 → Raw s b 1 →
    P * R ≤ s.slotInt a.toNat + 2 ^ 384 * s.slotInt b.toNat →
    ∃ t, exec (.fpRedc d a b) s = .next t ∧
      Aborted s t { code := .noncanonical, slot := b.toNat, operand := .b })

/-- O28. NOT_ON_CURVE: the first point of MILLER or PAIR off its curve, P_j before Q_j, once the common
checks pass, whatever CHK is (60_exceptions.md R407, R409). -/
def Obligations.NotOnCurve : Prop :=
  ∀ (s : State) (d a b : SlotNo) (n : Imm) (chk : Bool) (j : Nat),
    Fits s d 12 → Typed s a (3 * n.toNat) → Typed s b (6 * n.toNat) → j < n.toNat →
    (∀ k < j, OnCurve1 (s.readG1 (a.toNat + 3 * k)) ∧ OnCurve2 (s.readG2 (b.toNat + 6 * k))) →
    ∀ i ∈ [Instr.miller d a b n n chk, .pair d a b n n chk],
      (¬OnCurve1 (s.readG1 (a.toNat + 3 * j)) → ∃ t, exec i s = .next t ∧
        Aborted s t { code := .notOnCurve, slot := a.toNat + 3 * j, operand := .a, index := j }) ∧
      (OnCurve1 (s.readG1 (a.toNat + 3 * j)) → ¬OnCurve2 (s.readG2 (b.toNat + 6 * j)) →
        ∃ t, exec i s = .next t ∧
          Aborted s t { code := .notOnCurve, slot := b.toNat + 6 * j, operand := .b, index := j })

/-- O29. NOT_IN_SUBGROUP: with CHK = 1 and every point on its curve, the first point outside its order-q
subgroup, P_j before Q_j (60_exceptions.md R408, R409). -/
def Obligations.NotInSubgroup : Prop :=
  ∀ (s : State) (d a b : SlotNo) (n : Imm) (j : Nat),
    Fits s d 12 → Typed s a (3 * n.toNat) → Typed s b (6 * n.toNat) → j < n.toNat →
    (∀ k < n.toNat, OnCurve1 (s.readG1 (a.toNat + 3 * k)) ∧ OnCurve2 (s.readG2 (b.toNat + 6 * k))) →
    (∀ k < j, InSubgroup (s.readG1 (a.toNat + 3 * k)) ∧ InSubgroup (s.readG2 (b.toNat + 6 * k))) →
    ∀ i ∈ [Instr.miller d a b n n true, .pair d a b n n true],
      (¬InSubgroup (s.readG1 (a.toNat + 3 * j)) → ∃ t, exec i s = .next t ∧
        Aborted s t { code := .notInSubgroup, slot := a.toNat + 3 * j, operand := .a, index := j }) ∧
      (InSubgroup (s.readG1 (a.toNat + 3 * j)) → ¬InSubgroup (s.readG2 (b.toNat + 6 * j)) →
        ∃ t, exec i s = .next t ∧
          Aborted s t { code := .notInSubgroup, slot := b.toNat + 6 * j, operand := .b, index := j })

/-! ### Data movement -/

/-- O30. NOP, MOV and ZERO (40_data.md R140, R141, R142): NOP writes nothing; MOV copies n raw slots, all
reads first; ZERO sets n slots to 0. -/
def Obligations.DataMovement : Prop :=
  (∀ s : State, Decides .nop s false) ∧
  (∀ (s : State) (d a : SlotNo) (n : Imm), Fits s d n.toNat → Raw s a n.toNat →
    ∃ t, exec (.mov d a n) s = .next t ∧ Completed s t false false ∧ Kept s t d.toNat n.toNat ∧
      ∀ k < n.toNat, t.em.readSlot (d.toNat + k) = s.em.readSlot (a.toNat + k)) ∧
  (∀ (s : State) (d : SlotNo) (n : Imm), Fits s d n.toNat →
    Writes (.zero d n) s d n.toNat false fun t => ∀ k < n.toNat, t.slotInt (d.toNat + k) = 0)

/-- O31. CONST writes the constant of its id, each of the fifteen of 30_encoding.md R108, and no other
slot; a reserved id aborts with RESERVED_FIELD, operand E (40_data.md R143). -/
def Obligations.Constants : Prop :=
  let one := 2 ^ 384 % P
  let mont (y : Nat) := y * 2 ^ 384 % P
  (∀ (s : State) (d : SlotNo) (id : Imm), id = 0x00#8 ∨ 0x10 ≤ id.toNat →
    exec (.const d id) s = .next { s with
      status := ⟨false, true, true, false, false, s.status.ovr, 2#8⟩
      errinfo := ⟨0#8, 5#3, 0#8⟩ }) ∧
  ∀ (s : State) (d : SlotNo) (id : Imm) (vals : List Nat),
    (id, vals) ∈ [(0x01#8, [one]), (0x02#8, [one, 0]), (0x03#8, [one, 0, 0, 0, 0, 0]),
      (0x04#8, [one, 0, 0, 0, 0, 0, 0, 0, 0, 0, 0, 0]), (0x05#8, [2 ^ 768 % P]), (0x06#8, [P]),
      (0x07#8, [Q]), (0x08#8, [0xd201000000010000]), (0x09#8, [mont G1X, mont G1Y, one]),
      (0x0A#8, [mont G2X0, mont G2X1, mont G2Y0, mont G2Y1, one, 0]), (0x0B#8, [0, one, 0]),
      (0x0C#8, [0, 0, one, 0, 0, 0]), (0x0D#8, [one, one]), (0x0E#8, [mont (P - 1)]), (0x0F#8, [1])] →
    Fits s d vals.length →
    ∃ t, exec (.const d id) s = .next t ∧ Completed s t false false ∧ Kept s t d.toNat vals.length ∧
      HoldsInts t d.toNat vals

/-! ### Fp -/

/-- O32. The Montgomery reduction: for T < p·R the division is exact, the quotient is below 2p, and the
value returned is T·R⁻¹ mod p, in [0, p) (41_fp.md R159). -/
def Obligations.MontgomeryReduction : Prop :=
  ∀ T : Nat, T < P * R →
    let m := T % R * NP % R
    (T + m * P) % R = 0 ∧ (T + m * P) / R < 2 * P ∧
    redc T = (if P ≤ (T + m * P) / R then (T + m * P) / R - P else (T + m * P) / R) ∧
    redc T < P ∧ redc T = T * RINV % P ∧ redc T * R % P = T % P

/-- O33. FP_ADD, FP_SUB, FP_DBL, FP_NEG on slot integers and on values (41_fp.md R151-R154). -/
def Obligations.FpAdditive : Prop :=
  ∀ (s : State) (d a b : SlotNo), Fits s d 1 → Typed s a 1 →
    (Typed s b 1 →
      Writes (.fpAdd d a b) s d 1 false (fun t =>
        t.slotInt d.toNat = (s.slotInt a.toNat + s.slotInt b.toNat) % P ∧
        t.val1 d.toNat = s.val1 a.toNat + s.val1 b.toNat) ∧
      Writes (.fpSub d a b) s d 1 false (fun t =>
        (t.slotInt d.toNat : Int) = ((s.slotInt a.toNat : Int) - s.slotInt b.toNat) % P ∧
        t.val1 d.toNat = s.val1 a.toNat - s.val1 b.toNat)) ∧
    Writes (.fpDbl d a) s d 1 false (fun t =>
      t.slotInt d.toNat = 2 * s.slotInt a.toNat % P ∧ t.val1 d.toNat = 2 * s.val1 a.toNat) ∧
    Writes (.fpNeg d a) s d 1 false (fun t =>
      t.slotInt d.toNat = (P - s.slotInt a.toNat) % P ∧ t.val1 d.toNat = -s.val1 a.toNat)

/-- O34. FP_MUL, FP_SQR, FP_MONT, FP_DEMONT: a·b·R⁻¹ mod p, with values val(a)·val(b); a·R mod p, whose
value is the integer a; a·R⁻¹ mod p, which is the value as an integer (41_fp.md R155-R158). -/
def Obligations.FpMontgomery : Prop :=
  ∀ (s : State) (d a b : SlotNo), Fits s d 1 → Typed s a 1 →
    (Typed s b 1 → Writes (.fpMul d a b) s d 1 false (fun t =>
      t.slotInt d.toNat = s.slotInt a.toNat * s.slotInt b.toNat * RINV % P ∧
      t.val1 d.toNat = s.val1 a.toNat * s.val1 b.toNat)) ∧
    Writes (.fpSqr d a) s d 1 false (fun t =>
      t.slotInt d.toNat = s.slotInt a.toNat * s.slotInt a.toNat * RINV % P ∧
      t.val1 d.toNat = s.val1 a.toNat * s.val1 a.toNat) ∧
    Writes (.fpMont d a) s d 1 false (fun t =>
      t.slotInt d.toNat = s.slotInt a.toNat * R % P ∧ t.val1 d.toNat = (s.slotInt a.toNat : Fp)) ∧
    Writes (.fpDemont d a) s d 1 false (fun t =>
      t.slotInt d.toNat = s.slotInt a.toNat * RINV % P ∧ t.slotInt d.toNat = (s.val1 a.toNat).val)

/-- O35. FP_REDC on T = EM[A] + EM[B]·2³⁸⁴ < p·R, both halves raw: T·R⁻¹ mod p (41_fp.md R160). -/
def Obligations.FpReducer : Prop :=
  ∀ (s : State) (d a b : SlotNo), Fits s d 1 → Raw s a 1 → Raw s b 1 →
    s.slotInt a.toNat + 2 ^ 384 * s.slotInt b.toNat < P * R →
    Writes (.fpRedc d a b) s d 1 false fun t =>
      t.slotInt d.toNat = (s.slotInt a.toNat + 2 ^ 384 * s.slotInt b.toNat) * RINV % P

/-- O36. Round trips: FP_DEMONT after FP_MONT gives back a standard integer, and FP_MONT after FP_DEMONT a
slot value; a byte string that decodes encodes back to itself, of Fp12 from the last slot down, of points
only on their curve and in their subgroup (20_memory.md R89-R92; 41_fp.md R157, R158). What a slot that
holds no element encodes to is the model's choice (log entry 23). -/
def Obligations.RoundTrips : Prop :=
  (∀ (s t u : State) (d e a : SlotNo), Typed s a 1 → Fits s d 1 → Fits s e 1 →
    (exec (.fpMont d a) s = .next t → exec (.fpDemont e d) t = .next u →
      u.slotInt e.toNat = s.slotInt a.toNat) ∧
    (exec (.fpDemont d a) s = .next t → exec (.fpMont e d) t = .next u →
      u.slotInt e.toNat = s.slotInt a.toNat)) ∧
  (∀ x : Fp12, decodeFp12 (encodeFp12 x) = some x) ∧
  (∀ (l : List Byte) (x : Fp12), decodeFp12 l = some x → encodeFp12 x = l) ∧
  (∀ (s : State) (slot : Nat),
    s.fp12Bytes slot = (List.range 12).flatMap fun k => s.fpBytes (slot + (11 - k))) ∧
  (∀ (l : List Byte) (p : Jac Fp), decodeG1 l = some p →
    encodeG1 p = some l ∧ OnCurve1 p ∧ InSubgroup p) ∧
  (∀ (l : List Byte) (p : Jac Fp2), decodeG2 l = some p →
    encodeG2 p = some l ∧ OnCurve2 p ∧ InSubgroup p)

/-- O37. The exponentiations of Fp, Fp2 and Fp12 give a^k for the raw exponent k of slot B, a⁰ = 1 for
every a (41_fp.md R161, 42_fp2.md R209, 44_fp12.md R273). -/
def Obligations.Exponentiation : Prop :=
  ∀ (s : State) (d a b : SlotNo), Raw s b 1 →
    (Fits s d 1 → Typed s a 1 → Writes (.fpExp d a b) s d 1 false fun t =>
      t.val1 d.toNat = s.val1 a.toNat ^ s.slotInt b.toNat) ∧
    (Fits s d 2 → Typed s a 2 → Writes (.fp2Exp d a b) s d 2 false fun t =>
      t.val2 d.toNat = s.val2 a.toNat ^ s.slotInt b.toNat) ∧
    (Fits s d 12 → Typed s a 12 → Writes (.fp12Exp d a b) s d 12 false fun t =>
      t.val12 d.toNat = (s.val12 a.toNat).npow (s.slotInt b.toNat))

/-- O38. The three inverses of Fp: c·a is R², R and 1 modulo p for FP_INVUP, FP_INVDOWN and FP_INVEEA of
a ≠ 0, so FP_INVUP inverts values; a = 0 gives 0 and ZDIV = 1 (41_fp.md R162-R164). -/
def Obligations.FpInverses : Prop :=
  ∀ (s : State) (d a : SlotNo), Fits s d 1 → Typed s a 1 →
    ∀ i k, (i, k) ∈ [(Instr.fpInvup d a, R * R), (.fpInvdown d a, R), (.fpInveea d a, 1)] →
      (s.slotInt a.toNat ≠ 0 → Writes i s d 1 false fun t =>
        t.slotInt d.toNat * s.slotInt a.toNat % P = k % P ∧
        (i = .fpInvup d a → t.val1 d.toNat * s.val1 a.toNat = 1)) ∧
      (s.slotInt a.toNat = 0 → Writes i s d 1 true fun t => t.slotInt d.toNat = 0)

/-- O39. FP_SQRT: RESULT is 1 exactly for the squares; then the root a^((p+1)/4) is written, and it is a
root; for a non-square D is not written (41_fp.md R165). -/
def Obligations.FpSquareRoot : Prop :=
  ∀ (s : State) (d a : SlotNo), Fits s d 1 → Typed s a 1 →
    ((∃ r, r * r = s.val1 a.toNat) → ∃ t, exec (.fpSqrt d a) s = .next t ∧ Completed s t true false ∧
      Kept s t d.toNat 1 ∧ Canonical t d.toNat 1 ∧
      t.val1 d.toNat = s.val1 a.toNat ^ ((P + 1) / 4) ∧
      t.val1 d.toNat * t.val1 d.toNat = s.val1 a.toNat) ∧
    ((¬∃ r, r * r = s.val1 a.toNat) → Decides (.fpSqrt d a) s false)

/-- O40. The equality predicates of the fields answer whether the elements are equal, and change no slot
(41_fp.md R166, 42_fp2.md R211, 43_fp6.md R242, 44_fp12.md R274). -/
def Obligations.FieldEquality : Prop :=
  ∀ (s : State) (a b : SlotNo),
    (Typed s a 1 → Typed s b 1 → Decides (.fpEq a b) s (decide (s.val1 a.toNat = s.val1 b.toNat))) ∧
    (Typed s a 2 → Typed s b 2 → Decides (.fp2Eq a b) s (decide (s.val2 a.toNat = s.val2 b.toNat))) ∧
    (Typed s a 6 → Typed s b 6 → Decides (.fp6Eq a b) s (decide (s.val6 a.toNat = s.val6 b.toNat))) ∧
    (Typed s a 12 → Typed s b 12 →
      Decides (.fp12Eq a b) s (decide (s.val12 a.toNat = s.val12 b.toNat)))

/-- O41. The zero predicates of the fields answer whether the element is 0, and change no slot
(41_fp.md R167, 42_fp2.md R212, 43_fp6.md R243, 44_fp12.md R275). -/
def Obligations.FieldIsZero : Prop :=
  ∀ (s : State) (a : SlotNo),
    (Typed s a 1 → Decides (.fpIszero a) s (decide (s.val1 a.toNat = 0))) ∧
    (Typed s a 2 → Decides (.fp2Iszero a) s (decide (s.val2 a.toNat = 0))) ∧
    (Typed s a 6 → Decides (.fp6Iszero a) s (decide (s.val6 a.toNat = .zero))) ∧
    (Typed s a 12 → Decides (.fp12Iszero a) s (decide (s.val12 a.toNat = .zero)))

/-! ### The tower -/

/-- O42. The ring commands of Fp2 (42_fp2.md R201-R207), coefficient by coefficient. -/
def Obligations.Fp2Ring : Prop :=
  ∀ (s : State) (d a b : SlotNo) (x y : Fp2), Fits s d 2 → Typed s a 2 →
    s.val2 a.toNat = x → s.val2 b.toNat = y →
    (Typed s b 2 →
      Writes (.fp2Add d a b) s d 2 false (fun t => t.val2 d.toNat = ⟨x.re + y.re, x.im + y.im⟩) ∧
      Writes (.fp2Sub d a b) s d 2 false (fun t => t.val2 d.toNat = ⟨x.re - y.re, x.im - y.im⟩) ∧
      Writes (.fp2Mul d a b) s d 2 false (fun t =>
        t.val2 d.toNat = ⟨x.re * y.re - x.im * y.im, x.re * y.im + x.im * y.re⟩)) ∧
    Writes (.fp2Dbl d a) s d 2 false (fun t => t.val2 d.toNat = ⟨2 * x.re, 2 * x.im⟩) ∧
    Writes (.fp2Neg d a) s d 2 false (fun t => t.val2 d.toNat = ⟨-x.re, -x.im⟩) ∧
    Writes (.fp2Sqr d a) s d 2 false (fun t =>
      t.val2 d.toNat = ⟨(x.re + x.im) * (x.re - x.im), 2 * x.re * x.im⟩) ∧
    Writes (.fp2Mulnr d a) s d 2 false (fun t =>
      t.val2 d.toNat = ⟨x.re - x.im, x.re + x.im⟩ ∧ t.val2 d.toNat = ⟨1, 1⟩ * x)

/-- O43. FP2_SQRT: RESULT is 1 exactly for the squares of Fp2, and what it then writes is a root; for a
non-square D is not written. The root with a1 = 0 is the one of 42_fp2.md R210: of a0 in Fp, or of −a0
times u. -/
def Obligations.Fp2SquareRoot : Prop :=
  ∀ (s : State) (d a : SlotNo) (x : Fp2), Fits s d 2 → Typed s a 2 → s.val2 a.toNat = x →
    ((∃ r, r * r = x) → ∃ t, exec (.fp2Sqrt d a) s = .next t ∧ Completed s t true false ∧
      Kept s t d.toNat 2 ∧ Canonical t d.toNat 2 ∧ t.val2 d.toNat * t.val2 d.toNat = x ∧
      (x.im = 0 → IsSquare x.re → t.val2 d.toNat = ⟨x.re ^ ((P + 1) / 4), 0⟩) ∧
      (x.im = 0 → ¬IsSquare x.re → t.val2 d.toNat = ⟨0, (-x.re) ^ ((P + 1) / 4)⟩) ∧
      (x.im ≠ 0 → ∃ half n h : Fp, 2 * half = 1 ∧ n = (x.re ^ 2 + x.im ^ 2) ^ ((P + 1) / 4) ∧
        (IsSquare ((x.re + n) * half) → h = (x.re + n) * half) ∧
        (¬IsSquare ((x.re + n) * half) → h = (x.re - n) * half) ∧
        (t.val2 d.toNat).re = h ^ ((P + 1) / 4) ∧ (t.val2 d.toNat).im * (2 * (t.val2 d.toNat).re) = x.im)) ∧
    ((¬∃ r, r * r = x) → Decides (.fp2Sqrt d a) s false)

/-- O44. The additive commands of Fp6 and Fp12, componentwise over Fp2 (43_fp6.md R231-R234,
44_fp12.md R261-R264). -/
def Obligations.TowerAdditive : Prop :=
  let map2 (f : Fp2 → Fp2 → Fp2) (x y : Fp6) : Fp6 := ⟨f x.c0 y.c0, f x.c1 y.c1, f x.c2 y.c2⟩
  let map1 (f : Fp2 → Fp2) (x : Fp6) : Fp6 := ⟨f x.c0, f x.c1, f x.c2⟩
  ∀ (s : State) (d a b : SlotNo),
    (∀ x y : Fp6, Fits s d 6 → Typed s a 6 → s.val6 a.toNat = x → s.val6 b.toNat = y →
      (Typed s b 6 →
        Writes (.fp6Add d a b) s d 6 false (fun t => t.val6 d.toNat = map2 (· + ·) x y) ∧
        Writes (.fp6Sub d a b) s d 6 false (fun t => t.val6 d.toNat = map2 (· - ·) x y)) ∧
      Writes (.fp6Dbl d a) s d 6 false (fun t => t.val6 d.toNat = map1 (2 * ·) x) ∧
      Writes (.fp6Neg d a) s d 6 false (fun t => t.val6 d.toNat = map1 (- ·) x)) ∧
    (∀ x y : Fp12, Fits s d 12 → Typed s a 12 → s.val12 a.toNat = x → s.val12 b.toNat = y →
      (Typed s b 12 →
        Writes (.fp12Add d a b) s d 12 false (fun t =>
          t.val12 d.toNat = ⟨map2 (· + ·) x.c0 y.c0, map2 (· + ·) x.c1 y.c1⟩) ∧
        Writes (.fp12Sub d a b) s d 12 false (fun t =>
          t.val12 d.toNat = ⟨map2 (· - ·) x.c0 y.c0, map2 (· - ·) x.c1 y.c1⟩)) ∧
      Writes (.fp12Dbl d a) s d 12 false (fun t =>
        t.val12 d.toNat = ⟨map1 (2 * ·) x.c0, map1 (2 * ·) x.c1⟩) ∧
      Writes (.fp12Neg d a) s d 12 false (fun t =>
        t.val12 d.toNat = ⟨map1 (- ·) x.c0, map1 (- ·) x.c1⟩))

/-- O45. The products of Fp6, with v³ = ξ = 1 + u: FP6_MUL, FP6_SQR, FP6_MULBY01 by y0 + y1·v in place,
FP6_MULBY1 by y1·v in place, FP6_MULNR by v (43_fp6.md R235-R239). -/
def Obligations.Fp6Products : Prop :=
  let prod (x y : Fp6) : Fp6 :=
    ⟨x.c0 * y.c0 + ⟨1, 1⟩ * (x.c1 * y.c2 + x.c2 * y.c1),
     x.c0 * y.c1 + x.c1 * y.c0 + ⟨1, 1⟩ * (x.c2 * y.c2),
     x.c0 * y.c2 + x.c1 * y.c1 + x.c2 * y.c0⟩
  ∀ (s : State) (d a b : SlotNo),
    (Fits s d 6 → Typed s a 6 →
      (Typed s b 6 → Writes (.fp6Mul d a b) s d 6 false (fun t =>
        t.val6 d.toNat = prod (s.val6 a.toNat) (s.val6 b.toNat))) ∧
      Writes (.fp6Sqr d a) s d 6 false (fun t =>
        t.val6 d.toNat = prod (s.val6 a.toNat) (s.val6 a.toNat)) ∧
      Writes (.fp6Mulnr d a) s d 6 false (fun t =>
        t.val6 d.toNat = ⟨⟨1, 1⟩ * (s.val6 a.toNat).c2, (s.val6 a.toNat).c0, (s.val6 a.toNat).c1⟩ ∧
        t.val6 d.toNat = prod ⟨0, 1, 0⟩ (s.val6 a.toNat))) ∧
    (Typed s d 6 → Typed s a 2 →
      (Typed s b 2 → Writes (.fp6Mulby01 d a b) s d 6 false (fun t =>
        t.val6 d.toNat = prod (s.val6 d.toNat) ⟨s.val2 a.toNat, s.val2 b.toNat, 0⟩)) ∧
      Writes (.fp6Mulby1 d a) s d 6 false (fun t =>
        t.val6 d.toNat = prod (s.val6 d.toNat) ⟨0, s.val2 a.toNat, 0⟩))

/-- O46. The products of Fp12, with w² = v: FP12_MUL, FP12_SQR, FP12_CONJ, and FP12_MULBY014 and
FP12_MULBY034 in place by their sparse factors (44_fp12.md R265, R266, R268, R269, R271). -/
def Obligations.Fp12Products : Prop :=
  let prod (x y : Fp12) : Fp12 :=
    ⟨(x.c0.mul y.c0).add (Fp6.mul ⟨0, 1, 0⟩ (x.c1.mul y.c1)), (x.c0.mul y.c1).add (x.c1.mul y.c0)⟩
  ∀ (s : State) (d a b c : SlotNo),
    (Fits s d 12 → Typed s a 12 →
      (Typed s b 12 → Writes (.fp12Mul d a b) s d 12 false (fun t =>
        t.val12 d.toNat = prod (s.val12 a.toNat) (s.val12 b.toNat))) ∧
      Writes (.fp12Sqr d a) s d 12 false (fun t =>
        t.val12 d.toNat = prod (s.val12 a.toNat) (s.val12 a.toNat)) ∧
      Writes (.fp12Conj d a) s d 12 false (fun t =>
        t.val12 d.toNat = ⟨(s.val12 a.toNat).c0, (s.val12 a.toNat).c1.neg⟩ ∧
        t.val12 d.toNat = (s.val12 a.toNat).npow (P ^ 6))) ∧
    (Typed s d 12 → Typed s a 2 → Typed s b 2 → Typed s c 2 →
      Writes (.fp12Mulby014 d a b c) s d 12 false (fun t =>
        t.val12 d.toNat = prod (s.val12 d.toNat)
          ⟨⟨s.val2 a.toNat, s.val2 b.toNat, 0⟩, ⟨0, s.val2 c.toNat, 0⟩⟩) ∧
      Writes (.fp12Mulby034 d a b c) s d 12 false (fun t =>
        t.val12 d.toNat = prod (s.val12 d.toNat)
          ⟨⟨s.val2 a.toNat, 0, 0⟩, ⟨s.val2 b.toNat, s.val2 c.toNat, 0⟩⟩))

/-- O47. The inverses of Fp2, Fp6 and Fp12: of a ≠ 0 the product with a is 1; of 0 the result is 0 and
ZDIV = 1 (42_fp2.md R208, 43_fp6.md R240, 44_fp12.md R270). -/
def Obligations.TowerInverses : Prop :=
  ∀ (s : State) (d a : SlotNo),
    (Fits s d 2 → Typed s a 2 →
      (s.val2 a.toNat ≠ 0 → Writes (.fp2Inv d a) s d 2 false fun t =>
        s.val2 a.toNat * t.val2 d.toNat = 1) ∧
      (s.val2 a.toNat = 0 → Writes (.fp2Inv d a) s d 2 true fun t => t.val2 d.toNat = 0)) ∧
    (Fits s d 6 → Typed s a 6 →
      (s.val6 a.toNat ≠ .zero → Writes (.fp6Inv d a) s d 6 false fun t =>
        (s.val6 a.toNat).mul (t.val6 d.toNat) = .one) ∧
      (s.val6 a.toNat = .zero → Writes (.fp6Inv d a) s d 6 true fun t => t.val6 d.toNat = .zero)) ∧
    (Fits s d 12 → Typed s a 12 →
      (s.val12 a.toNat ≠ .zero → Writes (.fp12Inv d a) s d 12 false fun t =>
        (s.val12 a.toNat).mul (t.val12 d.toNat) = .one) ∧
      (s.val12 a.toNat = .zero → Writes (.fp12Inv d a) s d 12 true fun t => t.val12 d.toNat = .zero))

/-- O48. FP6_FROB and FP12_FROB give a^(p^k), for every power k from 0 to 255 (43_fp6.md R241,
44_fp12.md R272; 30_encoding.md R110). -/
def Obligations.Frobenius : Prop :=
  ∀ (s : State) (d a : SlotNo) (k : Imm),
    (Fits s d 6 → Typed s a 6 → Writes (.fp6Frob d a k) s d 6 false fun t =>
      t.val6 d.toNat = (s.val6 a.toNat).npow (P ^ k.toNat)) ∧
    (Fits s d 12 → Typed s a 12 → Writes (.fp12Frob d a k) s d 12 false fun t =>
      t.val12 d.toNat = (s.val12 a.toNat).npow (P ^ k.toNat))

/-- O49. FP12_CYCSQR writes the formula of 44_fp12.md R267 for every input, and a² for every a of the
cyclotomic subgroup, a^(p⁴ − p² + 1) = 1. -/
def Obligations.CyclotomicSquare : Prop :=
  let sq4 (x y : Fp2) : Fp2 × Fp2 := (⟨1, 1⟩ * y ^ 2 + x ^ 2, (x + y) ^ 2 - x ^ 2 - y ^ 2)
  ∀ (s : State) (d a : SlotNo) (x : Fp12), Fits s d 12 → Typed s a 12 → s.val12 a.toNat = x →
    Writes (.fp12Cycsqr d a) s d 12 false fun t =>
      let t34 := sq4 x.c0.c0 x.c1.c1
      let t01 := sq4 x.c1.c0 x.c0.c2
      let t56 := sq4 x.c0.c1 x.c1.c2
      t.val12 d.toNat =
        ⟨⟨3 * t34.1 - 2 * x.c0.c0, 3 * t01.1 - 2 * x.c0.c1, 3 * t56.1 - 2 * x.c0.c2⟩,
         ⟨3 * (⟨1, 1⟩ * t56.2) + 2 * x.c1.c0, 3 * t34.2 + 2 * x.c1.c1, 3 * t01.2 + 2 * x.c1.c2⟩⟩ ∧
      (x.npow (P ^ 4 - P ^ 2 + 1) = .one → t.val12 d.toNat = x.mul x)

/-! ### Points -/

/-- O50. G1_DBL and G2_DBL (45_g1.md R301, R305; 46_g2.md R331), for every triple. -/
def Obligations.PointDoubling : Prop :=
  ∀ (s : State) (d a : SlotNo),
    (Fits s d 3 → Typed s a 3 → Writes (.g1Dbl d a) s d 3 false fun t =>
      IsDouble (s.readG1 a.toNat) (t.readG1 d.toNat)) ∧
    (Fits s d 6 → Typed s a 6 → Writes (.g2Dbl d a) s d 6 false fun t =>
      IsDouble (s.readG2 a.toNat) (t.readG2 d.toNat))

/-- O51. G1_ADD and G2_ADD (45_g1.md R302, R306; 46_g2.md R332), for every two triples, equal, opposite
and at infinity included. -/
def Obligations.PointAddition : Prop :=
  ∀ (s : State) (d a b : SlotNo),
    (Fits s d 3 → Typed s a 3 → Typed s b 3 → Writes (.g1Add d a b) s d 3 false fun t =>
      IsSum (s.readG1 a.toNat) (s.readG1 b.toNat) (t.readG1 d.toNat)) ∧
    (Fits s d 6 → Typed s a 6 → Typed s b 6 → Writes (.g2Add d a b) s d 6 false fun t =>
      IsSum (s.readG2 a.toNat) (s.readG2 b.toNat) (t.readG2 d.toNat))

/-- O52. G1_NEG, G2_NEG, G1_AFFINE and G2_AFFINE (45_g1.md R303, R307, R308; 46_g2.md R333, R334). -/
def Obligations.NegationAndAffine : Prop :=
  ∀ (s : State) (d a : SlotNo),
    (Fits s d 3 → Typed s a 3 →
      Writes (.g1Neg d a) s d 3 false (fun t => t.readG1 d.toNat =
        ⟨(s.readG1 a.toNat).x, -(s.readG1 a.toNat).y, (s.readG1 a.toNat).z⟩) ∧
      Writes (.g1Affine d a) s d 3 false (fun t => IsAffine (s.readG1 a.toNat) (t.readG1 d.toNat))) ∧
    (Fits s d 6 → Typed s a 6 →
      Writes (.g2Neg d a) s d 6 false (fun t => t.readG2 d.toNat =
        ⟨(s.readG2 a.toNat).x, -(s.readG2 a.toNat).y, (s.readG2 a.toNat).z⟩) ∧
      Writes (.g2Affine d a) s d 6 false (fun t => IsAffine (s.readG2 a.toNat) (t.readG2 d.toNat)))

/-- O53. G1_MUL and G2_MUL: double-and-add over the 384 bits of the raw scalar of slot B, then the
normalisation, so the result is INF or has Z = 1 (45_g1.md R304, R309; 46_g2.md R335). -/
def Obligations.ScalarMultiplication : Prop :=
  ∀ (s : State) (d a b : SlotNo), Raw s b 1 →
    (Fits s d 3 → Typed s a 3 → Writes (.g1Mul d a b) s d 3 false fun t =>
      IsMultiple (s.readG1 a.toNat) (s.slotInt b.toNat) (t.readG1 d.toNat) ∧
      (t.readG1 d.toNat = infinity ∨ (t.readG1 d.toNat).z = 1)) ∧
    (Fits s d 6 → Typed s a 6 → Writes (.g2Mul d a b) s d 6 false fun t =>
      IsMultiple (s.readG2 a.toNat) (s.slotInt b.toNat) (t.readG2 d.toNat) ∧
      (t.readG2 d.toNat = infinity ∨ (t.readG2 d.toNat).z = 1))

/-- O54. The point predicates answer in RESULT and change no slot: Z = 0, the curve equation,
q·P = O, and equality of the points represented (45_g1.md R310-R313; 46_g2.md R336-R339). -/
def Obligations.PointPredicates : Prop :=
  ∀ (s : State) (a b : SlotNo),
    (Typed s a 3 →
      (∃ r, Decides (.g1Iszero a) s r ∧ (r = true ↔ (s.readG1 a.toNat).z = 0)) ∧
      (∃ r, Decides (.g1Oncurve a) s r ∧ (r = true ↔ OnCurve1 (s.readG1 a.toNat))) ∧
      (∃ r, Decides (.g1Insub a) s r ∧ (r = true ↔ InSubgroup (s.readG1 a.toNat))) ∧
      (Typed s b 3 → ∃ r, Decides (.g1Eq a b) s r ∧ (r = true ↔
        let p := s.readG1 a.toNat
        let q := s.readG1 b.toNat
        if p.z = 0 ∨ q.z = 0 then p.z = 0 ∧ q.z = 0
        else p.x * q.z ^ 2 = q.x * p.z ^ 2 ∧ p.y * q.z ^ 3 = q.y * p.z ^ 3))) ∧
    (Typed s a 6 →
      (∃ r, Decides (.g2Iszero a) s r ∧ (r = true ↔ (s.readG2 a.toNat).z = 0)) ∧
      (∃ r, Decides (.g2Oncurve a) s r ∧ (r = true ↔ OnCurve2 (s.readG2 a.toNat))) ∧
      (∃ r, Decides (.g2Insub a) s r ∧ (r = true ↔ InSubgroup (s.readG2 a.toNat))) ∧
      (Typed s b 6 → ∃ r, Decides (.g2Eq a b) s r ∧ (r = true ↔
        let p := s.readG2 a.toNat
        let q := s.readG2 b.toNat
        if p.z = 0 ∨ q.z = 0 then p.z = 0 ∧ q.z = 0
        else p.x * q.z ^ 2 = q.x * p.z ^ 2 ∧ p.y * q.z ^ 3 = q.y * p.z ^ 3)))

/-- O55. A command that computes a point from points on the curve writes a point on the curve: doubling,
addition, negation, normalisation and scalar multiplication of G1 and of G2 (45_g1.md R301-R304, R311). -/
def Obligations.PointsStayOnCurve : Prop :=
  ∀ (s t : State) (d a b : SlotNo),
    (∀ i ∈ [Instr.g1Dbl d a, .g1Neg d a, .g1Affine d a, .g1Mul d a b, .g1Add d a b],
      exec i s = .next t → t.status.err = false → OnCurve1 (s.readG1 a.toNat) →
      (i = .g1Add d a b → OnCurve1 (s.readG1 b.toNat)) → OnCurve1 (t.readG1 d.toNat)) ∧
    (∀ i ∈ [Instr.g2Dbl d a, .g2Neg d a, .g2Affine d a, .g2Mul d a b, .g2Add d a b],
      exec i s = .next t → t.status.err = false → OnCurve2 (s.readG2 a.toNat) →
      (i = .g2Add d a b → OnCurve2 (s.readG2 b.toNat)) → OnCurve2 (t.readG2 d.toNat))

/-! ### The pairing engine -/

/-- O56. LINE_DBL and LINE_ADD: the coefficients of the line at D and the new T at A, T winding where the
two overlap; no other byte changes (47_pairing.md R362-R365; 30_encoding.md R122). -/
def Obligations.LineSteps : Prop :=
  ∀ (s : State) (d a b c : SlotNo) (p : Jac Fp2) (xp yp : Fp) (xq yq : Fp2),
    Fits s d 6 → Typed s a 6 → Typed s b 2 →
    s.readG2 a.toNat = p → s.val1 b.toNat = xp → s.val1 (b.toNat + 1) = yp →
    s.val2 c.toNat = xq → s.val2 (c.toNat + 2) = yq →
    let lineIs (i : Instr) (c0 c1 c4 : Fp2) (post : Jac Fp2 → Prop) : Prop :=
      ∃ t, exec i s = .next t ∧ Completed s t false false ∧
        (∀ off, (∀ k < 6, OffSlot (d.toNat + k) off ∧ OffSlot (a.toNat + k) off) →
          t.em.readByte off = s.em.readByte off) ∧
        Canonical t d.toNat 6 ∧ Canonical t a.toNat 6 ∧ post (t.readG2 a.toNat) ∧
        ∀ k < 6, d.toNat + k < a.toNat ∨ a.toNat + 6 ≤ d.toNat + k →
          [c0.re, c0.im, c1.re, c1.im, c4.re, c4.im][k]? = some (t.val1 (d.toNat + k))
    lineIs (.lineDbl d a b)
      (3 * p.x ^ 3 - 2 * p.y ^ 2)
      ⟨-(3 * (p.x ^ 2 * p.z ^ 2)).re * xp, -(3 * (p.x ^ 2 * p.z ^ 2)).im * xp⟩
      ⟨(2 * (p.y * p.z ^ 3)).re * yp, (2 * (p.y * p.z ^ 3)).im * yp⟩
      (IsDouble p) ∧
    (Typed s c 4 →
      let h := xq * p.z ^ 2 - p.x
      let r := yq * p.z ^ 3 - p.y
      lineIs (.lineAdd d a b c)
        (r * xq - yq * (h * p.z))
        ⟨-r.re * xp, -r.im * xp⟩
        ⟨(h * p.z).re * yp, (h * p.z).im * yp⟩
        (IsSum p ⟨xq, yq, 1⟩))

/-- O57. The Miller loop of one pair of finite points, bit by bit from 62 to 0: square, multiply by the
tangent line, and where |x| has a 1 multiply by the chord line; then the conjugation
(47_pairing.md R366). -/
def Obligations.MillerLoopSteps : Prop :=
  ∀ (p pa : Jac Fp) (q qa : Jac Fp2), p.z ≠ 0 → q.z ≠ 0 → IsAffine p pa → IsAffine q qa →
    ∃ (f : Nat → Fp12) (T : Nat → Jac Fp2), f 63 = .one ∧ T 63 = ⟨qa.x, qa.y, 1⟩ ∧
      (∀ i < 63,
        let dbl := lineDouble (T (i + 1)) pa.x pa.y
        let g := ((f (i + 1)).mul (f (i + 1))).mul dbl.1.elem
        if XABS.testBit i then
          let add := lineAddition dbl.2 qa.x qa.y pa.x pa.y
          f i = g.mul add.1.elem ∧ T i = add.2
        else f i = g ∧ T i = dbl.2) ∧
      millerLoop [(p, q)] = (f 0).conj

/-- O58. The batching law: the Miller loop of a list of pairs is the product of the loops of its parts, in
any order; a pair with a point at infinity contributes 1; no pairs give 1; so the pairing product
splits in the same way (47_pairing.md R366, R372). -/
def Obligations.Batching : Prop :=
  (∀ l₁ l₂ : List (Jac Fp × Jac Fp2),
    millerLoop (l₁ ++ l₂) = (millerLoop l₁).mul (millerLoop l₂) ∧
    finalExp (millerLoop (l₁ ++ l₂)) = (finalExp (millerLoop l₁)).mul (finalExp (millerLoop l₂)) ∧
    (l₁.Perm l₂ → millerLoop l₁ = millerLoop l₂)) ∧
  (∀ (p : Jac Fp) (q : Jac Fp2), p.z = 0 ∨ q.z = 0 → millerLoop [(p, q)] = .one) ∧
  millerLoop [] = .one

/-- O59. MILLER and PAIR complete for arrays of n points each on its curve, in their subgroups if CHK = 1:
MILLER writes the Miller loop of the pairs, PAIR its final exponentiation (47_pairing.md R367, R370);
points at infinity and n = 0 included. -/
def Obligations.Pairing : Prop :=
  ∀ (s : State) (d a b : SlotNo) (n : Imm) (chk : Bool) (l : List (Jac Fp × Jac Fp2)),
    Fits s d 12 → Typed s a (3 * n.toNat) → Typed s b (6 * n.toNat) → l.length = n.toNat →
    (∀ k (h : k < l.length), l[k] = (s.readG1 (a.toNat + 3 * k), s.readG2 (b.toNat + 6 * k)) ∧
      OnCurve1 l[k].1 ∧ OnCurve2 l[k].2 ∧ (chk = true → InSubgroup l[k].1 ∧ InSubgroup l[k].2)) →
    Writes (.miller d a b n n chk) s d 12 false (fun t => t.val12 d.toNat = millerLoop l) ∧
    Writes (.pair d a b n n chk) s d 12 false (fun t => t.val12 d.toNat = finalExp (millerLoop l))

/-- O60. FINALEXP writes f^((p¹² − 1)/q), the value that the easy part and the exact hard part give;
0 for 0, and otherwise an element whose q-th power is 1 (47_pairing.md R368, R369). -/
def Obligations.FinalExponentiation : Prop :=
  ∀ (s : State) (d a : SlotNo) (f : Fp12), Fits s d 12 → Typed s a 12 → s.val12 a.toNat = f →
    Writes (.finalexp d a) s d 12 false fun t =>
      t.val12 d.toNat = f.npow ((P ^ 12 - 1) / Q) ∧
      (f = .zero → t.val12 d.toNat = .zero) ∧
      (f ≠ .zero → (t.val12 d.toNat).npow Q = .one) ∧
      (P ^ 4 - P ^ 2 + 1) % Q = 0 ∧ ((P ^ 12 - 1) / Q).log2 + 1 = 4314 ∧
      (let f1 := f.conj.mul f.inv
       let f2 := (f1.frob 2).mul f1
       t.val12 d.toNat = f2.npow ((P ^ 4 - P ^ 2 + 1) / Q))
end

