-- ==== Sys2Proof/Laws/Memory.lean ====
section
/-! SUPPORT. The laws of the slot memory: what each operation reads back, that it leaves every other
byte and slot alone, and that it keeps the canonical form. -/

namespace Sys2Proof.Machine

set_option Elab.async false

/-! ### Runs of bytes -/

theorem mem_bytesOf {c : Host.Cell} {n off v : Nat} (h : c ∈ bytesOf off v n) :
    off ≤ c.1 ∧ c.1 < off + n := by
  induction n generalizing off v with
  | zero => simp [bytesOf] at h
  | succ n ih =>
    rw [bytesOf, List.mem_cons] at h
    rcases h with rfl | h
    · constructor <;> simp
    · have := ih h; omega

theorem length_bytesOf (off v n : Nat) : (bytesOf off v n).length = n := by
  induction n generalizing off v with
  | zero => rfl
  | succ n ih => simp [bytesOf, ih]

theorem littleEndian_bytesOf (off v n : Nat) : littleEndian (bytesOf off v n) = v % 256 ^ n := by
  induction n generalizing off v with
  | zero => simp [bytesOf, littleEndian, Nat.mod_one]
  | succ n ih =>
    have e : 256 ^ (n + 1) = 256 * 256 ^ n := by rw [Nat.pow_succ, Nat.mul_comm]
    simp only [bytesOf, littleEndian, ih, BitVec.toNat_ofNat]
    rw [e, Nat.mod_mul]

theorem pairwise_bytesOf (off v n : Nat) : (bytesOf off v n).Pairwise fun c d => c.1 < d.1 := by
  induction n generalizing off v with
  | zero => exact .nil
  | succ n ih =>
    refine .cons (fun d hd => ?_) (ih _ _)
    have := mem_bytesOf hd
    simp only at *; omega

theorem filter_bytesOf {q : Host.Cell → Bool} {off v n : Nat}
    (h : ∀ c : Host.Cell, off ≤ c.1 → c.1 < off + n → q c = true) :
    (bytesOf off v n).filter q = bytesOf off v n :=
  List.filter_eq_self.2 fun c hc => h c (mem_bytesOf hc).1 (mem_bytesOf hc).2

theorem filter_bytesOf_nil {q : Host.Cell → Bool} {off v n : Nat}
    (h : ∀ c : Host.Cell, off ≤ c.1 → c.1 < off + n → q c = false) :
    (bytesOf off v n).filter q = [] := by
  rw [List.filter_eq_nil_iff]
  intro c hc
  simp [h c (mem_bytesOf hc).1 (mem_bytesOf hc).2]

/-! ### One write -/

/-- A run of bytes that a write does not touch is as before. -/
theorem range_write_disjoint {m : Memory} {off n v o k : Nat} (h : o + k ≤ off ∨ off + n ≤ o) :
    (m.write off n v).range o k = m.range o k := by
  simp only [Memory.write, Memory.range, List.filter_append, List.filter_filter]
  rw [filter_bytesOf_nil (q := fun c : Host.Cell => decide (o ≤ c.1) && decide (c.1 < o + k))
    (by intro c h1 h2; simp; omega)]
  rcases h with h | h
  · rw [List.filter_eq_nil_iff (l := m) (p := fun a : Host.Cell =>
      (decide (o ≤ a.1) && decide (a.1 < o + k)) && decide (off + n ≤ a.1)) |>.2
      (by intro c _; simp; omega)]
    simp only [List.append_nil]
    congr 1; funext c; rw [Bool.eq_iff_iff]; simp; omega
  · rw [List.filter_eq_nil_iff (l := m) (p := fun a : Host.Cell =>
      (decide (o ≤ a.1) && decide (a.1 < o + k)) && decide (a.1 < off)) |>.2
      (by intro c _; simp; omega)]
    simp only [List.nil_append]
    congr 1; funext c; rw [Bool.eq_iff_iff]; simp; omega

/-- The run of bytes a write sets. -/
theorem range_write_same {m : Memory} {off n v : Nat} :
    (m.write off n v).range off n = bytesOf off v n := by
  simp only [Memory.write, Memory.range, List.filter_append, List.filter_filter]
  rw [filter_bytesOf (q := fun c : Host.Cell => decide (off ≤ c.1) && decide (c.1 < off + n))
    (by intro c h1 h2; simp; omega)]
  rw [List.filter_eq_nil_iff.2 (by intro c _; simp; omega),
    List.filter_eq_nil_iff.2 (by intro c _; simp)]
  simp

theorem find?_filter_eq {m : Memory} {q : Host.Cell → Bool} {off : Nat}
    (h : ∀ c : Host.Cell, c.1 = off → q c = true) :
    (m.filter q).find? (fun c => c.1 == off) = m.find? fun c => c.1 == off := by
  induction m with
  | nil => rfl
  | cons c m ih =>
    by_cases hq : q c
    · rw [List.filter_cons_of_pos hq, List.find?_cons, List.find?_cons, ih]
    · rw [List.filter_cons_of_neg hq, ih, List.find?_cons]
      have : (c.1 == off) = false := by
        rw [beq_eq_false_iff_ne]; exact fun e => hq (h c e)
      rw [this]

theorem find?_filter_none {m : Memory} {q : Host.Cell → Bool} {off : Nat}
    (h : ∀ c : Host.Cell, c.1 = off → q c = false) :
    (m.filter q).find? (fun c => c.1 == off) = none := by
  rw [List.find?_eq_none]
  intro c hc
  have hq := (List.mem_filter.1 hc).2
  intro e
  rw [h c (by simpa using e)] at hq
  exact absurd hq (by simp)

/-- A write leaves every byte outside its run alone. -/
theorem readByte_write_ne {m : Memory} {off n v x : Nat} (h : x < off ∨ off + n ≤ x) :
    (m.write off n v).readByte x = m.readByte x := by
  simp only [Memory.readByte, Memory.write, List.find?_append]
  have hb : (bytesOf off v n).find? (fun c => c.1 == x) = none := by
    rw [List.find?_eq_none]
    intro c hc
    have := mem_bytesOf hc
    simp; omega
  rw [hb]
  rcases h with h | h
  · rw [find?_filter_eq (by intro c hc; simp; omega),
      find?_filter_none (off := x) (q := fun c : Host.Cell => decide (off + n ≤ c.1)) (by intro c hc; simp; omega)]
    simp
  · rw [find?_filter_none (off := x) (q := fun c : Host.Cell => decide (c.1 < off)) (by intro c hc; simp; omega),
      find?_filter_eq (by intro c hc; simp; omega)]
    simp

theorem find?_bytesOf {off v n j : Nat} (h : j < n) :
    (bytesOf off v n).find? (fun c => c.1 == off + j) =
      some (off + j, BitVec.ofNat 8 (v / 256 ^ j)) := by
  induction n generalizing off v j with
  | zero => omega
  | succ n ih =>
    rw [bytesOf, List.find?_cons]
    cases j with
    | zero => simp
    | succ j =>
      have e : ((off, BitVec.ofNat 8 v).1 == off + (j + 1)) = false := by simp
      rw [e]
      have := ih (off := off + 1) (v := v / 256) (j := j) (by omega)
      rw [show off + 1 + j = off + (j + 1) by omega] at this
      simpa [Nat.div_div_eq_div_mul, Nat.pow_succ, Nat.mul_comm] using this

/-- A write sets byte j of its run to byte j of the value. -/
theorem readByte_write_same {m : Memory} {off n v j : Nat} (h : j < n) :
    (m.write off n v).readByte (off + j) = some (BitVec.ofNat 8 (v / 256 ^ j)) := by
  simp only [Memory.readByte, Memory.write, List.find?_append]
  rw [find?_filter_none (off := off + j) (q := fun c : Host.Cell => decide (c.1 < off))
    (by intro c hc; simp; omega), find?_bytesOf h]
  simp

/-! ### Slots -/

theorem slotOffset_disjoint {s k : Nat} (h : s ≠ k) :
    slotOffset s + 48 ≤ slotOffset k ∨ slotOffset k + 48 ≤ slotOffset s := by
  unfold slotOffset; omega

/-- A slot depends on its 48 bytes only. -/
theorem readSlot_congr {m m' : Memory} {s : Nat}
    (h : m.range (slotOffset s) 48 = m'.range (slotOffset s) 48) : m.readSlot s = m'.readSlot s := by
  simp only [Memory.readSlot, h]

theorem readSlot_of_range {m : Memory} {s : Nat} {v : SlotVal}
    (h : m.range (slotOffset s) 48 = bytesOf (slotOffset s) v.toNat 48) : m.readSlot s = some v := by
  simp only [Memory.readSlot, h, length_bytesOf, if_true, littleEndian_bytesOf]
  have e : (256 : Nat) ^ 48 = 2 ^ 384 := by decide +kernel
  rw [e, Nat.mod_eq_of_lt v.isLt, BitVec.ofNat_toNat, BitVec.setWidth_eq]

@[simp] theorem readSlot_writeSlot_same (m : Memory) (s : Nat) (v : SlotVal) :
    (m.writeSlot s v).readSlot s = some v :=
  readSlot_of_range range_write_same

theorem readSlot_writeSlot_ne {m : Memory} {s k : Nat} {v : SlotVal} (h : s ≠ k) :
    (m.writeSlot s v).readSlot k = m.readSlot k := by
  refine readSlot_congr (range_write_disjoint ?_)
  have := slotOffset_disjoint h; omega

theorem readSlot_writeSlot (m : Memory) (s k : Nat) (v : SlotVal) :
    (m.writeSlot s v).readSlot k = if s = k then some v else m.readSlot k := by
  split
  · next h => subst h; simp
  · next h => exact readSlot_writeSlot_ne h

theorem readByte_writeSlot_off {m : Memory} {s off : Nat} {v : SlotVal} (h : OffSlot s off) :
    (m.writeSlot s v).readByte off = m.readByte off :=
  readByte_write_ne h

/-! ### Several writes -/

@[simp] theorem writeSlots_nil (m : Memory) : m.writeSlots [] = m := rfl

theorem writeSlots_append (m : Memory) (l₁ l₂ : List (Nat × SlotVal)) :
    m.writeSlots (l₁ ++ l₂) = (m.writeSlots l₁).writeSlots l₂ := by
  simp [Memory.writeSlots, List.foldl_append]

theorem writeSlots_cons (m : Memory) (w : Nat × SlotVal) (l : List (Nat × SlotVal)) :
    m.writeSlots (w :: l) = (m.writeSlot w.1 w.2).writeSlots l := rfl

/-- A slot no write names is as before. -/
theorem readSlot_writeSlots_ne {l : List (Nat × SlotVal)} {m : Memory} {k : Nat}
    (h : ∀ w ∈ l, w.1 ≠ k) : (m.writeSlots l).readSlot k = m.readSlot k := by
  induction l generalizing m with
  | nil => rfl
  | cons w l ih =>
    rw [writeSlots_cons, ih fun x hx => h x (List.mem_cons_of_mem _ hx),
      readSlot_writeSlot_ne (h w List.mem_cons_self)]

/-- A byte of no slot that a write names is as before. -/
theorem readByte_writeSlots_off {l : List (Nat × SlotVal)} {m : Memory} {off : Nat}
    (h : ∀ w ∈ l, OffSlot w.1 off) : (m.writeSlots l).readByte off = m.readByte off := by
  induction l generalizing m with
  | nil => rfl
  | cons w l ih =>
    rw [writeSlots_cons, ih fun x hx => h x (List.mem_cons_of_mem _ hx),
      readByte_writeSlot_off (h w List.mem_cons_self)]

theorem putInt_eq (slot v : Nat) : putInt slot v = putInts slot [v] := by simp [putInts]

theorem putInts_append (slot : Nat) (l₁ l₂ : List Nat) :
    putInts slot (l₁ ++ l₂) = putInts slot l₁ ++ putInts (slot + l₁.length) l₂ := by
  induction l₁ generalizing slot with
  | nil => simp [putInts]
  | cons v l ih => simp [putInts, ih, Nat.add_assoc, Nat.add_comm 1]

theorem mem_putInts {w : Nat × SlotVal} {l : List Nat} {slot : Nat} (h : w ∈ putInts slot l) :
    ∃ k < l.length, w.1 = slot + k := by
  induction l generalizing slot with
  | nil => simp [putInts] at h
  | cons v l ih =>
    rw [putInts, putInt, List.mem_append, List.mem_singleton] at h
    rcases h with rfl | h
    · exact ⟨0, by simp, rfl⟩
    · obtain ⟨k, hk, e⟩ := ih h
      exact ⟨k + 1, by simpa using hk, by omega⟩

/-- Slot k of a run of written slots holds integer k. -/
theorem readSlot_putInts {l : List Nat} {m : Memory} {slot k : Nat} (h : k < l.length) :
    (m.writeSlots (putInts slot l)).readSlot (slot + k) = some (BitVec.ofNat 384 l[k]) := by
  induction l generalizing m slot k with
  | nil => simp at h
  | cons v l ih =>
    rw [putInts, putInt, List.singleton_append, writeSlots_cons]
    cases k with
    | zero =>
      rw [readSlot_writeSlots_ne (by
        intro w hw
        obtain ⟨j, _, e⟩ := mem_putInts hw
        omega)]
      simp
    | succ k =>
      have hk : k < l.length := by simpa using h
      have := ih (m := m.writeSlot slot (BitVec.ofNat 384 v)) (slot := slot + 1) hk
      rw [show slot + 1 + k = slot + (k + 1) by omega] at this
      simpa using this

theorem readSlot_putInts_ne {l : List Nat} {m : Memory} {slot k : Nat}
    (h : k < slot ∨ slot + l.length ≤ k) :
    (m.writeSlots (putInts slot l)).readSlot k = m.readSlot k :=
  readSlot_writeSlots_ne fun w hw => by
    obtain ⟨j, _, e⟩ := mem_putInts hw
    omega

theorem readByte_putInts_off {l : List Nat} {m : Memory} {slot off : Nat}
    (h : ∀ k < l.length, OffSlot (slot + k) off) :
    (m.writeSlots (putInts slot l)).readByte off = m.readByte off :=
  readByte_writeSlots_off fun w hw => by
    obtain ⟨j, hj, e⟩ := mem_putInts hw
    rw [e]; exact h j hj

/-! ### The canonical form -/

theorem wf_iff {m : Memory} : m.wf = true ↔ m.Pairwise fun c d => c.1 < d.1 := by
  simp [Memory.wf]

theorem wf_filter {m : Memory} (q : Host.Cell → Bool) (h : m.wf = true) :
    Memory.wf (m.filter q) = true :=
  wf_iff.2 ((wf_iff.1 h).filter q)

theorem wf_clear {m : Memory} (off n : Nat) (h : m.wf = true) : (m.clear off n).wf = true :=
  wf_filter _ h

theorem wf_clearSlots {m : Memory} (base n : Nat) (h : m.wf = true) :
    (m.clearSlots base n).wf = true := by
  induction n generalizing m with
  | zero => exact h
  | succ n ih => exact ih (wf_clear _ _ h)

theorem wf_write {m : Memory} (off n v : Nat) (h : m.wf = true) : (m.write off n v).wf = true := by
  have hm := wf_iff.1 h
  rw [wf_iff, Memory.write, List.pairwise_append, List.pairwise_append]
  refine ⟨⟨hm.filter _, pairwise_bytesOf _ _ _, ?_⟩, hm.filter _, ?_⟩
  · intro c hc d hd
    have := mem_bytesOf hd
    simp only [List.mem_filter, decide_eq_true_eq] at hc
    omega
  · intro c hc d hd
    simp only [List.mem_filter, decide_eq_true_eq] at hd
    rw [List.mem_append] at hc
    rcases hc with hc | hc
    · simp only [List.mem_filter, decide_eq_true_eq] at hc; omega
    · have := mem_bytesOf hc; omega

theorem wf_writeSlots {l : List (Nat × SlotVal)} {m : Memory} (h : m.wf = true) :
    (m.writeSlots l).wf = true := by
  induction l generalizing m with
  | nil => exact h
  | cons w l ih => exact ih (wf_write _ _ _ h)

/-- Every listed byte of a written memory was listed or lies in the written run. -/
theorem mem_write {m : Memory} {off n v : Nat} {c : Host.Cell} (h : c ∈ m.write off n v) :
    c ∈ m ∨ (off ≤ c.1 ∧ c.1 < off + n) := by
  rw [Memory.write, List.mem_append, List.mem_append, List.mem_filter, List.mem_filter] at h
  rcases h with (h | h) | h
  · exact .inl h.1
  · exact .inr (mem_bytesOf h)
  · exact .inl h.1

theorem mem_clear {m : Memory} {off n : Nat} {c : Host.Cell} (h : c ∈ m.clear off n) : c ∈ m :=
  (List.mem_filter.1 h).1

theorem mem_clearSlots {m : Memory} {base n : Nat} {c : Host.Cell} (h : c ∈ m.clearSlots base n) :
    c ∈ m := by
  induction n generalizing m with
  | zero => exact h
  | succ n ih => exact mem_clear (ih h)

theorem mem_writeSlots {l : List (Nat × SlotVal)} {m : Memory} {c : Host.Cell}
    (h : c ∈ m.writeSlots l) :
    c ∈ m ∨ ∃ w ∈ l, slotOffset w.1 ≤ c.1 ∧ c.1 < slotOffset w.1 + 48 := by
  induction l generalizing m with
  | nil => exact .inl h
  | cons w l ih =>
    rcases ih h with h | ⟨x, hx, hc⟩
    · rcases mem_write h with h | h
      · exact .inl h
      · exact .inr ⟨w, List.mem_cons_self, h⟩
    · exact .inr ⟨x, List.mem_cons_of_mem _ hx, hc⟩

theorem slotByte_of_slot {nslots slot off : Nat} (hs : slot < nslots) (h1 : slotOffset slot ≤ off)
    (h2 : off < slotOffset slot + 48) : slotByte nslots off = true := by
  unfold slotOffset at h1 h2
  simp only [slotByte, Bool.and_eq_true, decide_eq_true_eq]
  omega

/-! ### Emptied slots -/

theorem range_clear_disjoint {m : Memory} {off n o k : Nat} (h : o + k ≤ off ∨ off + n ≤ o) :
    (m.clear off n).range o k = m.range o k := by
  simp only [Memory.clear, Memory.range, List.filter_filter]
  congr 1; funext c; rw [Bool.eq_iff_iff]; simp; omega

theorem range_clear_same {m : Memory} {off n : Nat} : (m.clear off n).range off n = [] := by
  simp only [Memory.clear, Memory.range, List.filter_filter]
  rw [List.filter_eq_nil_iff]; intro c _; simp

theorem readSlot_clear_same (m : Memory) (s : Nat) :
    (m.clear (slotOffset s) 48).readSlot s = none := by
  simp [Memory.readSlot, range_clear_same]

theorem readSlot_clear_ne {m : Memory} {s k : Nat} (h : s ≠ k) :
    (m.clear (slotOffset s) 48).readSlot k = m.readSlot k := by
  refine readSlot_congr (range_clear_disjoint ?_)
  have := slotOffset_disjoint h; omega

/-- The cleared slots are empty and every other slot is as before. -/
theorem readSlot_clearSlots {m : Memory} (base n k : Nat) :
    (m.clearSlots base n).readSlot k =
      if base ≤ k ∧ k < base + n then none else m.readSlot k := by
  induction n generalizing m with
  | zero => rw [Memory.clearSlots, if_neg (by omega)]
  | succ n ih =>
    rw [Memory.clearSlots, ih]
    by_cases hk : base + n = k
    · subst hk
      rw [if_neg (by omega), readSlot_clear_same, if_pos (by omega)]
    · rw [readSlot_clear_ne hk]
      by_cases h : base ≤ k ∧ k < base + n
      · rw [if_pos h, if_pos (by omega)]
      · rw [if_neg h, if_neg (by omega)]

theorem readByte_clear_ne {m : Memory} {off n x : Nat} (h : x < off ∨ off + n ≤ x) :
    (m.clear off n).readByte x = m.readByte x := by
  simp only [Memory.readByte, Memory.clear]
  rw [find?_filter_eq (by intro c hc; simp; omega)]

theorem readByte_clearSlots_off {m : Memory} {base n off : Nat}
    (h : ∀ k < n, OffSlot (base + k) off) : (m.clearSlots base n).readByte off = m.readByte off := by
  induction n generalizing m with
  | zero => rfl
  | succ n ih =>
    rw [Memory.clearSlots, ih fun k hk => h k (by omega), readByte_clear_ne (h n (by omega))]

end Sys2Proof.Machine
end

