-- ==== Sys2Proof/Laws/Bytes.lean ====
section
/-! SUPPORT. A slot by its bytes: it holds a value exactly when its 48 bytes do, and that value is their
little-endian integer (20_memory.md R76, R77). -/

namespace Sys2Proof.Machine

theorem length_le_of_rising {l : Memory} {lo hi : Nat} (hs : l.Pairwise fun c d => c.1 < d.1)
    (hb : ∀ c ∈ l, lo ≤ c.1 ∧ c.1 < hi) : l.length ≤ hi - lo := by
  induction l generalizing lo with
  | nil => simp
  | cons c l ih =>
    have h1 := hb c List.mem_cons_self
    have h2 := ih (lo := c.1 + 1) (List.pairwise_cons.1 hs).2 fun d hd =>
      ⟨(List.pairwise_cons.1 hs).1 d hd, (hb d (List.mem_cons_of_mem _ hd)).2⟩
    simp only [List.length_cons]; omega

/-- A strictly rising list whose offsets fill an interval is the bytes of an integer. -/
theorem eq_bytesOf {l : Memory} {off n : Nat} (hs : l.Pairwise fun c d => c.1 < d.1)
    (hb : ∀ c ∈ l, off ≤ c.1 ∧ c.1 < off + n) (hl : l.length = n) :
    l = bytesOf off (littleEndian l) n := by
  induction n generalizing l off with
  | zero => simp [List.length_eq_zero_iff.1 hl, bytesOf]
  | succ n ih =>
    cases l with
    | nil => simp at hl
    | cons c l =>
      have hs' := List.pairwise_cons.1 hs
      have h1 := hb c List.mem_cons_self
      have hb' : ∀ d ∈ l, c.1 + 1 ≤ d.1 ∧ d.1 < off + (n + 1) := fun d hd =>
        ⟨hs'.1 d hd, (hb d (List.mem_cons_of_mem _ hd)).2⟩
      have h2 := length_le_of_rising hs'.2 hb'
      simp only [List.length_cons] at hl
      have hc : c.1 = off := by omega
      have := ih (off := off + 1) hs'.2 (fun d hd => by have := hb' d hd; omega) (by omega)
      have hlt : c.2.toNat < 256 := c.2.isLt
      have hv : (c.2.toNat + 256 * littleEndian l) / 256 = littleEndian l := by omega
      rw [littleEndian, bytesOf, hv, ← this]
      congr 1
      refine Prod.ext hc (BitVec.eq_of_toNat_eq ?_)
      show c.2.toNat = _
      simp [BitVec.toNat_ofNat]; omega

/-- A rising list that has a byte at every offset of an interval fills it. -/
theorem length_of_all {l : Memory} {off n : Nat} (hs : l.Pairwise fun c d => c.1 < d.1)
    (hb : ∀ c ∈ l, off ≤ c.1 ∧ c.1 < off + n) (ha : ∀ j < n, ∃ c ∈ l, c.1 = off + j) :
    l.length = n := by
  induction n generalizing l off with
  | zero =>
    cases l with
    | nil => rfl
    | cons c l => have := hb c List.mem_cons_self; omega
  | succ n ih =>
    cases l with
    | nil => obtain ⟨c, hc, _⟩ := ha 0 (by omega); simp at hc
    | cons c l =>
      have hs' := List.pairwise_cons.1 hs
      have h1 := hb c List.mem_cons_self
      have hc : c.1 = off := by
        obtain ⟨d, hd, e⟩ := ha 0 (by omega)
        rcases List.mem_cons.1 hd with rfl | hd
        · exact e
        · have := hs'.1 d hd; omega
      rw [List.length_cons, ih (off := off + 1) hs'.2
        (fun d hd => by
          have := hs'.1 d hd
          have := (hb d (List.mem_cons_of_mem _ hd)).2
          omega)]
      intro j hj
      obtain ⟨d, hd, e⟩ := ha (j + 1) (by omega)
      rcases List.mem_cons.1 hd with rfl | hd
      · omega
      · exact ⟨d, hd, by omega⟩

theorem readByte_range {m : Memory} {off n j : Nat} (h : j < n) :
    (m.range off n).find? (fun c => c.1 == off + j) = m.find? fun c => c.1 == off + j :=
  find?_filter_eq fun c hc => by simp; omega

theorem range_pairwise {m : Memory} (h : m.wf = true) (off n : Nat) :
    (m.range off n).Pairwise fun c d => c.1 < d.1 := (wf_iff.1 h).filter _

theorem mem_range {m : Memory} {off n : Nat} : ∀ c ∈ m.range off n, off ≤ c.1 ∧ c.1 < off + n :=
  fun c hc => by simpa using (List.mem_filter.1 hc).2

theorem length_range_iff {m : Memory} (h : m.wf = true) (off n : Nat) :
    (m.range off n).length = n ↔ ∀ j < n, (m.readByte (off + j)).isSome = true := by
  constructor
  · intro hl j hj
    have := eq_bytesOf (range_pairwise h off n) mem_range hl
    rw [Memory.readByte, ← readByte_range hj, this, find?_bytesOf hj]
    rfl
  · intro ha
    refine length_of_all (range_pairwise h off n) mem_range fun j hj => ?_
    have := ha j hj
    rw [Memory.readByte, Option.isSome_map, List.find?_isSome] at this
    obtain ⟨c, hc, e⟩ := this
    have e' : c.1 = off + j := by simpa using e
    exact ⟨c, List.mem_filter.2 ⟨hc, by simp; omega⟩, e'⟩

/-- A slot is empty exactly when one of its bytes holds no value (20_memory.md R76). -/
theorem readSlot_isSome_iff {m : Memory} (h : m.wf = true) (s : Nat) :
    (m.readSlot s).isSome = true ↔ ∀ j < 48, (m.readByte (slotOffset s + j)).isSome = true := by
  rw [← length_range_iff h, Memory.readSlot]
  split
  · next hl => simpa using hl
  · next hl => simpa using hl

/-- The value of a slot is its bytes (20_memory.md R77). -/
theorem readSlot_eq_some_iff {m : Memory} (h : m.wf = true) {s : Nat} {v : SlotVal} :
    m.readSlot s = some v ↔
      ∀ j < 48, m.readByte (slotOffset s + j) = some (BitVec.ofNat 8 (v.toNat / 256 ^ j)) := by
  have fwd : ∀ {v : SlotVal}, m.readSlot s = some v →
      ∀ j < 48, m.readByte (slotOffset s + j) = some (BitVec.ofNat 8 (v.toNat / 256 ^ j)) := by
    intro v hv j hj
    rw [Memory.readSlot] at hv
    split at hv
    · next hl =>
      have e := eq_bytesOf (range_pairwise h _ _) mem_range hl
      have hv' := Option.some.inj hv
      rw [Memory.readByte, ← readByte_range hj, e, find?_bytesOf hj]
      have hlt : littleEndian (m.range (slotOffset s) 48) < 2 ^ 384 := by
        rw [e, littleEndian_bytesOf]
        exact Nat.mod_lt _ (by decide)
      rw [← hv', BitVec.toNat_ofNat, Nat.mod_eq_of_lt hlt]
      rfl
    · exact absurd hv (by simp)
  refine ⟨fwd, fun hb => ?_⟩
  have hs : (m.readSlot s).isSome = true :=
    (readSlot_isSome_iff h s).2 fun j hj => by rw [hb j hj]; rfl
  obtain ⟨x, hx⟩ := Option.isSome_iff_exists.1 hs
  have := fwd hx
  rw [hx]
  refine congrArg some (BitVec.eq_of_toNat_eq ?_)
  refine Nat.eq_of_testBit_eq fun i => ?_
  by_cases hi : i < 384
  · have e := (this (i / 8) (by omega)).symm.trans (hb (i / 8) (by omega))
    have e' := congrArg (fun b : BitVec 8 => b.getLsbD (i % 8)) (Option.some.inj e)
    have e256 : (256 : Nat) ^ (i / 8) = 2 ^ (8 * (i / 8)) := by rw [Nat.pow_mul]
    simp only [BitVec.getLsbD_ofNat, e256, Nat.testBit_div_two_pow] at e'
    rw [show i % 8 + 8 * (i / 8) = i by omega] at e'
    simpa [show i % 8 < 8 by omega] using e'
  · have hp : ∀ y : SlotVal, y.toNat.testBit i = false := fun y => BitVec.getLsbD_of_ge y i (by omega)
    rw [hp, hp]

/-- A bit of a slot integer is a bit of one of its bytes (20_memory.md R77). -/
theorem readSlot_bit {m : Memory} (h : m.wf = true) {s : Nat} {v : SlotVal} (hv : m.readSlot s = some v)
    {i : Nat} (hi : i < 384) {b : Byte} (hb : m.readByte (slotOffset s + i / 8) = some b) :
    v.getLsbD i = b.getLsbD (i % 8) := by
  have e := (readSlot_eq_some_iff h).1 hv (i / 8) (by omega)
  rw [e] at hb
  rw [← Option.some.inj hb]
  have e256 : (256 : Nat) ^ (i / 8) = 2 ^ (8 * (i / 8)) := by rw [Nat.pow_mul]
  simp only [BitVec.getLsbD_ofNat, e256, Nat.testBit_div_two_pow]
  rw [show i % 8 + 8 * (i / 8) = i by omega]
  simp [show i % 8 < 8 by omega, BitVec.getLsbD]

/-- Byte k of a bus word (20_memory.md R77). -/
theorem byte_of_word (v : Word) (k : Nat) : BitVec.ofNat 8 (v.toNat / 256 ^ k) = v.extractLsb' (8 * k) 8 := by
  apply BitVec.eq_of_getLsbD_eq
  intro i hi
  have e256 : (256 : Nat) ^ k = 2 ^ (8 * k) := by rw [Nat.pow_mul]
  rw [BitVec.getLsbD_ofNat, BitVec.getLsbD_extractLsb', e256, Nat.testBit_div_two_pow]
  rw [show i + 8 * k = 8 * k + i by omega]
  rfl

end Sys2Proof.Machine
end

