-- ==== Sys2Proof/Laws/State.lean ====
section
/-! SUPPORT. One lemma per field and update of the state, true by unfolding, so that no proof unfolds
a record update. -/

namespace Sys2Proof.Machine

/-! ### `State.complete` -/

@[simp] theorem State.complete_nslots (s : State) (e : Effect) :
    (s.complete e).nslots = s.nslots := rfl
@[simp] theorem State.complete_base (s : State) (e : Effect) :
    (s.complete e).base = s.base := rfl
@[simp] theorem State.complete_em (s : State) (e : Effect) :
    (s.complete e).em = s.em.writeSlots e.writes := rfl
@[simp] theorem State.complete_ie (s : State) (e : Effect) :
    (s.complete e).ie = s.ie := rfl
@[simp] theorem State.complete_cmd (s : State) (e : Effect) :
    (s.complete e).cmd = s.cmd := rfl
@[simp] theorem State.complete_status (s : State) (e : Effect) :
    (s.complete e).status = s.status.completed e.result e.zdiv := rfl
@[simp] theorem State.complete_errinfo (s : State) (e : Effect) :
    (s.complete e).errinfo = ErrInfo.zero := rfl
@[simp] theorem State.complete_lcmd (s : State) (e : Effect) :
    (s.complete e).lcmd = s.lcmd := rfl
@[simp] theorem State.complete_inbox (s : State) (e : Effect) :
    (s.complete e).inbox = s.inbox := rfl
@[simp] theorem State.complete_rdata (s : State) (e : Effect) :
    (s.complete e).rdata = s.rdata := rfl
@[simp] theorem State.complete_draws (s : State) (e : Effect) :
    (s.complete e).draws = s.draws := rfl

/-! ### `State.abort` -/

@[simp] theorem State.abort_nslots (s : State) (e : ErrReport) :
    (s.abort e).nslots = s.nslots := rfl
@[simp] theorem State.abort_base (s : State) (e : ErrReport) :
    (s.abort e).base = s.base := rfl
@[simp] theorem State.abort_em (s : State) (e : ErrReport) :
    (s.abort e).em = s.em := rfl
@[simp] theorem State.abort_ie (s : State) (e : ErrReport) :
    (s.abort e).ie = s.ie := rfl
@[simp] theorem State.abort_cmd (s : State) (e : ErrReport) :
    (s.abort e).cmd = s.cmd := rfl
@[simp] theorem State.abort_status (s : State) (e : ErrReport) :
    (s.abort e).status = s.status.aborted e.code.code := rfl
@[simp] theorem State.abort_errinfo (s : State) (e : ErrReport) :
    (s.abort e).errinfo = e.info := rfl
@[simp] theorem State.abort_lcmd (s : State) (e : ErrReport) :
    (s.abort e).lcmd = s.lcmd := rfl
@[simp] theorem State.abort_inbox (s : State) (e : ErrReport) :
    (s.abort e).inbox = s.inbox := rfl
@[simp] theorem State.abort_rdata (s : State) (e : ErrReport) :
    (s.abort e).rdata = s.rdata := rfl
@[simp] theorem State.abort_draws (s : State) (e : ErrReport) :
    (s.abort e).draws = s.draws := rfl

/-! ### `State.latch` -/

@[simp] theorem State.latch_nslots (s : State) (w : Word) :
    (s.latch w).nslots = s.nslots := rfl
@[simp] theorem State.latch_base (s : State) (w : Word) :
    (s.latch w).base = s.base := rfl
@[simp] theorem State.latch_em (s : State) (w : Word) :
    (s.latch w).em = s.em := rfl
@[simp] theorem State.latch_ie (s : State) (w : Word) :
    (s.latch w).ie = s.ie := rfl
@[simp] theorem State.latch_cmd (s : State) (w : Word) :
    (s.latch w).cmd = s.cmd := rfl
@[simp] theorem State.latch_status (s : State) (w : Word) :
    (s.latch w).status = s.status.started := rfl
@[simp] theorem State.latch_errinfo (s : State) (w : Word) :
    (s.latch w).errinfo = ErrInfo.zero := rfl
@[simp] theorem State.latch_lcmd (s : State) (w : Word) :
    (s.latch w).lcmd = w := rfl
@[simp] theorem State.latch_inbox (s : State) (w : Word) :
    (s.latch w).inbox = s.inbox := rfl
@[simp] theorem State.latch_rdata (s : State) (w : Word) :
    (s.latch w).rdata = s.rdata := rfl
@[simp] theorem State.latch_draws (s : State) (w : Word) :
    (s.latch w).draws = s.draws := rfl

/-! ### `State.hardReset` -/

@[simp] theorem State.hardReset_nslots (s : State) :
    (s.hardReset).nslots = s.nslots := rfl
@[simp] theorem State.hardReset_base (s : State) :
    (s.hardReset).base = s.base := rfl
@[simp] theorem State.hardReset_em (s : State) :
    (s.hardReset).em = [] := rfl
@[simp] theorem State.hardReset_ie (s : State) :
    (s.hardReset).ie = false := rfl
@[simp] theorem State.hardReset_cmd (s : State) :
    (s.hardReset).cmd = 0#64 := rfl
@[simp] theorem State.hardReset_status (s : State) :
    (s.hardReset).status = Status.zero := rfl
@[simp] theorem State.hardReset_errinfo (s : State) :
    (s.hardReset).errinfo = ErrInfo.zero := rfl
@[simp] theorem State.hardReset_lcmd (s : State) :
    (s.hardReset).lcmd = 0#64 := rfl
@[simp] theorem State.hardReset_inbox (s : State) :
    (s.hardReset).inbox = s.inbox := rfl
@[simp] theorem State.hardReset_rdata (s : State) :
    (s.hardReset).rdata = none := rfl
@[simp] theorem State.hardReset_draws (s : State) :
    (s.hardReset).draws = s.draws := rfl

/-! ### `State.softReset` -/

@[simp] theorem State.softReset_nslots (s : State) :
    (s.softReset).nslots = s.nslots := rfl
@[simp] theorem State.softReset_base (s : State) :
    (s.softReset).base = s.base := rfl
@[simp] theorem State.softReset_em (s : State) :
    (s.softReset).em = if s.status.busy then s.abandonedMemory else s.em := rfl
@[simp] theorem State.softReset_ie (s : State) :
    (s.softReset).ie = false := rfl
@[simp] theorem State.softReset_cmd (s : State) :
    (s.softReset).cmd = 0#64 := rfl
@[simp] theorem State.softReset_status (s : State) :
    (s.softReset).status = Status.zero := rfl
@[simp] theorem State.softReset_errinfo (s : State) :
    (s.softReset).errinfo = ErrInfo.zero := rfl
@[simp] theorem State.softReset_lcmd (s : State) :
    (s.softReset).lcmd = s.lcmd := rfl
@[simp] theorem State.softReset_inbox (s : State) :
    (s.softReset).inbox = s.inbox := rfl
@[simp] theorem State.softReset_rdata (s : State) :
    (s.softReset).rdata = s.rdata := rfl
@[simp] theorem State.softReset_draws (s : State) :
    (s.softReset).draws = s.draws := rfl

/-! ### `State.withFetchWord` -/

@[simp] theorem State.withFetchWord_nslots (s : State) (nbits w : Nat) :
    (s.withFetchWord nbits w).nslots = s.nslots := rfl
@[simp] theorem State.withFetchWord_base (s : State) (nbits w : Nat) :
    (s.withFetchWord nbits w).base = s.base := rfl
@[simp] theorem State.withFetchWord_em (s : State) (nbits w : Nat) :
    (s.withFetchWord nbits w).em = s.em := rfl
@[simp] theorem State.withFetchWord_ie (s : State) (nbits w : Nat) :
    (s.withFetchWord nbits w).ie = s.ie := rfl
@[simp] theorem State.withFetchWord_cmd (s : State) (nbits w : Nat) :
    (s.withFetchWord nbits w).cmd = s.cmd := rfl
@[simp] theorem State.withFetchWord_status (s : State) (nbits w : Nat) :
    (s.withFetchWord nbits w).status = s.status.started := rfl
@[simp] theorem State.withFetchWord_errinfo (s : State) (nbits w : Nat) :
    (s.withFetchWord nbits w).errinfo = ErrInfo.zero := rfl
@[simp] theorem State.withFetchWord_lcmd (s : State) (nbits w : Nat) :
    (s.withFetchWord nbits w).lcmd = BitVec.ofNat 64 (w % 2 ^ nbits) := rfl
@[simp] theorem State.withFetchWord_inbox (s : State) (nbits w : Nat) :
    (s.withFetchWord nbits w).inbox = .engine :: s.inbox := rfl
@[simp] theorem State.withFetchWord_rdata (s : State) (nbits w : Nat) :
    (s.withFetchWord nbits w).rdata = s.rdata := rfl
@[simp] theorem State.withFetchWord_draws (s : State) (nbits w : Nat) :
    (s.withFetchWord nbits w).draws = s.draws := rfl

/-! ### `Status.started` -/

@[simp] theorem Status.started_busy (st : Status) :
    (st.started).busy = true := rfl
@[simp] theorem Status.started_done (st : Status) :
    (st.started).done = false := rfl
@[simp] theorem Status.started_err (st : Status) :
    (st.started).err = false := rfl
@[simp] theorem Status.started_result (st : Status) :
    (st.started).result = false := rfl
@[simp] theorem Status.started_zdiv (st : Status) :
    (st.started).zdiv = false := rfl
@[simp] theorem Status.started_ovr (st : Status) :
    (st.started).ovr = st.ovr := rfl
@[simp] theorem Status.started_errcode (st : Status) :
    (st.started).errcode = 0#8 := rfl

/-! ### `Status.completed` -/

@[simp] theorem Status.completed_busy (st : Status) (r z : Bool) :
    (st.completed r z).busy = false := rfl
@[simp] theorem Status.completed_done (st : Status) (r z : Bool) :
    (st.completed r z).done = true := rfl
@[simp] theorem Status.completed_err (st : Status) (r z : Bool) :
    (st.completed r z).err = false := rfl
@[simp] theorem Status.completed_result (st : Status) (r z : Bool) :
    (st.completed r z).result = r := rfl
@[simp] theorem Status.completed_zdiv (st : Status) (r z : Bool) :
    (st.completed r z).zdiv = z := rfl
@[simp] theorem Status.completed_ovr (st : Status) (r z : Bool) :
    (st.completed r z).ovr = st.ovr := rfl
@[simp] theorem Status.completed_errcode (st : Status) (r z : Bool) :
    (st.completed r z).errcode = 0#8 := rfl

/-! ### `Status.aborted` -/

@[simp] theorem Status.aborted_busy (st : Status) (c : BitVec 8) :
    (st.aborted c).busy = false := rfl
@[simp] theorem Status.aborted_done (st : Status) (c : BitVec 8) :
    (st.aborted c).done = true := rfl
@[simp] theorem Status.aborted_err (st : Status) (c : BitVec 8) :
    (st.aborted c).err = true := rfl
@[simp] theorem Status.aborted_result (st : Status) (c : BitVec 8) :
    (st.aborted c).result = false := rfl
@[simp] theorem Status.aborted_zdiv (st : Status) (c : BitVec 8) :
    (st.aborted c).zdiv = false := rfl
@[simp] theorem Status.aborted_ovr (st : Status) (c : BitVec 8) :
    (st.aborted c).ovr = st.ovr := rfl
@[simp] theorem Status.aborted_errcode (st : Status) (c : BitVec 8) :
    (st.aborted c).errcode = c := rfl

/-! ### `Status.overrun` -/

@[simp] theorem Status.overrun_busy (st : Status) :
    (st.overrun).busy = st.busy := rfl
@[simp] theorem Status.overrun_done (st : Status) :
    (st.overrun).done = st.done := rfl
@[simp] theorem Status.overrun_err (st : Status) :
    (st.overrun).err = st.err := rfl
@[simp] theorem Status.overrun_result (st : Status) :
    (st.overrun).result = st.result := rfl
@[simp] theorem Status.overrun_zdiv (st : Status) :
    (st.overrun).zdiv = st.zdiv := rfl
@[simp] theorem Status.overrun_ovr (st : Status) :
    (st.overrun).ovr = true := rfl
@[simp] theorem Status.overrun_errcode (st : Status) :
    (st.overrun).errcode = st.errcode := rfl

/-! ### `Status.writeOneToClear` -/

@[simp] theorem Status.writeOneToClear_busy (st : Status) (v : Word) :
    (st.writeOneToClear v).busy = st.busy := rfl
@[simp] theorem Status.writeOneToClear_done (st : Status) (v : Word) :
    (st.writeOneToClear v).done = (st.done && !v.getLsbD 1) := rfl
@[simp] theorem Status.writeOneToClear_err (st : Status) (v : Word) :
    (st.writeOneToClear v).err = st.err := rfl
@[simp] theorem Status.writeOneToClear_result (st : Status) (v : Word) :
    (st.writeOneToClear v).result = st.result := rfl
@[simp] theorem Status.writeOneToClear_zdiv (st : Status) (v : Word) :
    (st.writeOneToClear v).zdiv = st.zdiv := rfl
@[simp] theorem Status.writeOneToClear_ovr (st : Status) (v : Word) :
    (st.writeOneToClear v).ovr = (st.ovr && !v.getLsbD 5) := rfl
@[simp] theorem Status.writeOneToClear_errcode (st : Status) (v : Word) :
    (st.writeOneToClear v).errcode = st.errcode := rfl

/-! ### The words the claims use -/

theorem sameControl_complete (s : State) (e : Effect) : SameControl s (s.complete e) :=
  ⟨rfl, rfl, rfl, rfl, rfl, rfl, rfl, rfl⟩

/-- A completion, in the words of the claims. -/
theorem completed_complete (s : State) (e : Effect) : Completed s (s.complete e) e.result e.zdiv :=
  ⟨rfl, rfl, sameControl_complete s e⟩

/-- An abort, in the words of the claims. -/
theorem aborted_abort (s : State) (e : ErrReport) : Aborted s (s.abort e) e := rfl

end Sys2Proof.Machine
end

