-- ==== Sys2Proof/Laws/Elements.lean ====
section
/-! SUPPORT. Elements in slots: what a `put` writes, that reading it back gives the element, and that
what it writes is canonical. -/

namespace Sys2Proof.Machine

set_option Elab.async false

theorem p_pos : 0 < P := by decide +kernel

theorem p_lt_r : P < 2 ^ 384 := by decide +kernel

theorem r_rinv : R * RINV % P = 1 := by decide +kernel

/-- R·RINV = 1 in Fp (00_scope.md R17). -/
theorem r_rinv_fp : ((R : Nat) : Fp) * ((RINV : Nat) : Fp) = 1 := by
  rw [← Nat.cast_mul, ← ZMod.natCast_mod, r_rinv, Nat.cast_one]

theorem montInt_lt (y : Nat) : montInt y < P := Nat.mod_lt _ p_pos

theorem toNat_ofNat_of_lt {v : Nat} (h : v < P) : (BitVec.ofNat 384 v).toNat = v := by
  rw [BitVec.toNat_ofNat, Nat.mod_eq_of_lt (h.trans p_lt_r)]

/-- val(mont(y)) = y (00_scope.md R19). -/
theorem val_mont (y : Fp) : ((montInt y.val * RINV : Nat) : Fp) = y := by
  have : NeZero P := ⟨p_pos.ne'⟩
  rw [Nat.cast_mul, montInt, ZMod.natCast_mod, Nat.cast_mul, ZMod.natCast_zmod_val, mul_assoc,
    r_rinv_fp, mul_one]

/-- mont(val(a)) = a for a canonical slot integer. -/
theorem mont_val {a : Nat} (h : a < P) : montInt ((a * RINV : Nat) : Fp).val = a := by
  rw [ZMod.val_natCast, montInt, Nat.mod_mul_mod, Nat.mul_assoc, Nat.mul_comm RINV R, Nat.mul_mod, r_rinv,
    Nat.mul_one, Nat.mod_mod, Nat.mod_eq_of_lt h]

/-! ### The integers a `put` writes -/

/-- The slot integers of an Fp element. -/
def ints1 (y : Fp) : List Nat := [montInt y.val]
/-- The slot integers of an Fp2 element. -/
def ints2 (y : Fp2) : List Nat := ints1 y.re ++ ints1 y.im
/-- The slot integers of an Fp6 element. -/
def ints6 (y : Fp6) : List Nat := ints2 y.c0 ++ ints2 y.c1 ++ ints2 y.c2
/-- The slot integers of an Fp12 element. -/
def ints12 (y : Fp12) : List Nat := ints6 y.c0 ++ ints6 y.c1
/-- The slot integers of a G1 triple. -/
def intsG1 (p : Jac Fp) : List Nat := ints1 p.x ++ ints1 p.y ++ ints1 p.z
/-- The slot integers of a G2 triple. -/
def intsG2 (p : Jac Fp2) : List Nat := ints2 p.x ++ ints2 p.y ++ ints2 p.z
/-- The slot integers of a line. -/
def intsLine (l : Line) : List Nat := ints2 l.c0 ++ ints2 l.c1 ++ ints2 l.c4

@[simp] theorem length_ints1 (y : Fp) : (ints1 y).length = 1 := rfl
@[simp] theorem length_ints2 (y : Fp2) : (ints2 y).length = 2 := rfl
@[simp] theorem length_ints6 (y : Fp6) : (ints6 y).length = 6 := rfl
@[simp] theorem length_ints12 (y : Fp12) : (ints12 y).length = 12 := rfl
@[simp] theorem length_intsG1 (p : Jac Fp) : (intsG1 p).length = 3 := rfl
@[simp] theorem length_intsG2 (p : Jac Fp2) : (intsG2 p).length = 6 := rfl
@[simp] theorem length_intsLine (l : Line) : (intsLine l).length = 6 := rfl

theorem put1_eq (slot : Nat) (y : Fp) : put1 slot y = putInts slot (ints1 y) := rfl
theorem put2_eq (slot : Nat) (y : Fp2) : put2 slot y = putInts slot (ints2 y) := rfl
theorem put6_eq (slot : Nat) (y : Fp6) : put6 slot y = putInts slot (ints6 y) := rfl
theorem put12_eq (slot : Nat) (y : Fp12) : put12 slot y = putInts slot (ints12 y) := rfl
theorem putG1_eq (slot : Nat) (p : Jac Fp) : putG1 slot p = putInts slot (intsG1 p) := rfl
theorem putG2_eq (slot : Nat) (p : Jac Fp2) : putG2 slot p = putInts slot (intsG2 p) := rfl
theorem putLine_eq (slot : Nat) (l : Line) : putLine slot l = putInts slot (intsLine l) := rfl

theorem lt_ints1 {y : Fp} : ∀ v ∈ ints1 y, v < P := by
  simp [ints1, montInt_lt]
theorem lt_ints2 {y : Fp2} : ∀ v ∈ ints2 y, v < P := by
  simp [ints2, ints1, montInt_lt]
theorem lt_ints6 {y : Fp6} : ∀ v ∈ ints6 y, v < P := by
  simp [ints6, ints2, ints1, montInt_lt]
theorem lt_ints12 {y : Fp12} : ∀ v ∈ ints12 y, v < P := by
  simp [ints12, ints6, ints2, ints1, montInt_lt]
theorem lt_intsG1 {p : Jac Fp} : ∀ v ∈ intsG1 p, v < P := by
  simp [intsG1, ints1, montInt_lt]
theorem lt_intsG2 {p : Jac Fp2} : ∀ v ∈ intsG2 p, v < P := by
  simp [intsG2, ints2, ints1, montInt_lt]
theorem lt_intsLine {l : Line} : ∀ v ∈ intsLine l, v < P := by
  simp [intsLine, ints2, ints1, montInt_lt]

/-! ### Reading back -/

/-- What holding the slot integers of a list means, slot by slot. -/
theorem HoldsInts.append {t : State} {slot : Nat} {l₁ l₂ : List Nat}
    (h : HoldsInts t slot (l₁ ++ l₂)) : HoldsInts t slot l₁ ∧ HoldsInts t (slot + l₁.length) l₂ := by
  constructor
  · intro k hk
    have := h k (by simp; omega)
    rwa [List.getElem_append_left hk] at this
  · intro k hk
    have := h (l₁.length + k) (by simp; omega)
    rw [List.getElem_append_right (by omega)] at this
    simpa [Nat.add_assoc] using this

theorem slotInt_of_read {s : State} {slot v : Nat} (h : (s.em.readSlot slot).map (·.toNat) = some v) :
    s.slotInt slot = v := by
  unfold State.slotInt
  cases hr : s.em.readSlot slot with
  | none => rw [hr] at h; exact absurd h (by simp)
  | some x => rw [hr] at h; simpa using h

theorem HoldsInts.single {t : State} {slot v : Nat} (h : HoldsInts t slot [v]) :
    t.slotInt slot = v := by
  have := h 0 (by simp)
  exact slotInt_of_read (by simpa using this)

theorem HoldsInts.val1 {t : State} {slot : Nat} {y : Fp} (h : HoldsInts t slot (ints1 y)) :
    t.val1 slot = y := by
  have e : t.slotInt slot = montInt y.val := HoldsInts.single h
  rw [State.val1, e]
  exact val_mont y

theorem HoldsInts.val2 {t : State} {slot : Nat} {y : Fp2} (h : HoldsInts t slot (ints2 y)) :
    t.val2 slot = y := by
  obtain ⟨h0, h1⟩ := h.append
  have e0 := h0.val1
  have e1 := h1.val1
  rw [length_ints1] at e1
  rw [State.val2, e0, e1]

theorem HoldsInts.val6 {t : State} {slot : Nat} {y : Fp6} (h : HoldsInts t slot (ints6 y)) :
    t.val6 slot = y := by
  obtain ⟨h01, h2⟩ := h.append
  obtain ⟨h0, h1⟩ := h01.append
  have e0 := h0.val2
  have e1 := h1.val2
  have e2 := h2.val2
  simp only [List.length_append, length_ints2] at e1 e2
  rw [State.val6, e0, e1, e2]

theorem HoldsInts.val12 {t : State} {slot : Nat} {y : Fp12} (h : HoldsInts t slot (ints12 y)) :
    t.val12 slot = y := by
  obtain ⟨h0, h1⟩ := h.append
  have e0 := h0.val6
  have e1 := h1.val6
  rw [length_ints6] at e1
  rw [State.val12, e0, e1]

theorem HoldsInts.readG1 {t : State} {slot : Nat} {p : Jac Fp} (h : HoldsInts t slot (intsG1 p)) :
    t.readG1 slot = p := by
  obtain ⟨h01, h2⟩ := h.append
  obtain ⟨h0, h1⟩ := h01.append
  have e0 := h0.val1
  have e1 := h1.val1
  have e2 := h2.val1
  simp only [List.length_append, length_ints1] at e1 e2
  rw [State.readG1, e0, e1, e2]

theorem HoldsInts.readG2 {t : State} {slot : Nat} {p : Jac Fp2} (h : HoldsInts t slot (intsG2 p)) :
    t.readG2 slot = p := by
  obtain ⟨h01, h2⟩ := h.append
  obtain ⟨h0, h1⟩ := h01.append
  have e0 := h0.val2
  have e1 := h1.val2
  have e2 := h2.val2
  simp only [List.length_append, length_ints2] at e1 e2
  rw [State.readG2, e0, e1, e2]

theorem HoldsInts.readLine {t : State} {slot : Nat} {l : Line} (h : HoldsInts t slot (intsLine l)) :
    t.val2 slot = l.c0 ∧ t.val2 (slot + 2) = l.c1 ∧ t.val2 (slot + 4) = l.c4 := by
  obtain ⟨h01, h2⟩ := h.append
  obtain ⟨h0, h1⟩ := h01.append
  have e0 := h0.val2
  have e1 := h1.val2
  have e2 := h2.val2
  simp only [List.length_append, length_ints2] at e1 e2
  exact ⟨e0, e1, e2⟩

/-- A canonical slot integer is the Montgomery form of its value. -/
theorem slotInt_eq_montInt {s : State} {slot : Nat} (h : s.slotInt slot < P) :
    s.slotInt slot = montInt (s.val1 slot).val := (mont_val h).symm

theorem HoldsInts.canonical {t : State} {slot : Nat} {l : List Nat} (h : HoldsInts t slot l)
    (hl : ∀ v ∈ l, v < P) : Canonical t slot l.length := by
  intro k hk
  have := h k hk
  cases hr : t.em.readSlot (slot + k) with
  | none => rw [hr] at this; exact absurd this (by simp)
  | some x =>
    rw [hr] at this
    have hx : x.toNat = l[k] := by simpa using this
    simpa [hx] using hl _ (List.getElem_mem hk)

/-- What a command that writes a run of slots leaves. -/
theorem holdsInts_of_em {s t : State} {slot : Nat} {l : List Nat}
    (h : t.em = s.em.writeSlots (putInts slot l)) (hl : ∀ v ∈ l, v < 2 ^ 384) : HoldsInts t slot l := by
  intro k hk
  rw [h, readSlot_putInts hk]
  simp [BitVec.toNat_ofNat, Nat.mod_eq_of_lt (hl _ (List.getElem_mem hk))]

theorem kept_of_em {s t : State} {slot : Nat} {l : List Nat}
    (h : t.em = s.em.writeSlots (putInts slot l)) : Kept s t slot l.length := by
  intro off ho
  rw [h, readByte_putInts_off ho]

/-! ### Canonical operands -/

theorem Canonical.read {s : State} {slot w k : Nat} (h : Canonical s slot w) (hk : k < w) :
    ∃ v, s.em.readSlot (slot + k) = some v ∧ v.toNat < P ∧ s.slotInt (slot + k) = v.toNat := by
  have := h k hk
  cases hr : s.em.readSlot (slot + k) with
  | none => rw [hr] at this; exact absurd this (by simp)
  | some x =>
    rw [hr] at this
    exact ⟨x, rfl, by simpa using this, by simp [State.slotInt, hr]⟩

theorem Canonical.lt {s : State} {slot w k : Nat} (h : Canonical s slot w) (hk : k < w) :
    s.slotInt (slot + k) < P := by
  obtain ⟨v, _, h1, h2⟩ := h.read hk
  omega

theorem Canonical.present {s : State} {slot w : Nat} (h : Canonical s slot w) : Present s slot w := by
  intro k hk
  obtain ⟨v, h1, _, _⟩ := h.read hk
  simp [h1]

end Sys2Proof.Machine
end

