-- ==== Sys2Proof/Laws/Exec.lean ====
section
/-! SUPPORT. Everything a command can do: when its checks pass, and the three ways `exec` can answer.
Later proofs cite these and do not unfold the meanings. -/

namespace Sys2Proof.Machine

/-! ### The checks -/

/-- The operand passes its range check and, as an input, its slots pass theirs. -/
def OperandOk (s : State) (o : Operand) : Prop :=
  Fits s o.base o.width ∧
    (o.isInput = true → ∀ k < o.width,
      (s.em.readSlot (o.base.toNat + k)).any fun v => !o.canonical || decide (v.toNat < P))

theorem rangeError_none {o : Operand} {s : State} :
    o.rangeError s.nslots = none ↔ Fits s o.base o.width := by
  unfold Operand.rangeError Fits
  split
  · next h => simp; omega
  · next h => simp; omega

theorem slotStop_none {o : Operand} {m : Memory} {k : Nat} :
    o.slotStop m k = none ↔
      (m.readSlot (o.base.toNat + k)).any (fun v => !o.canonical || decide (v.toNat < P)) = true := by
  unfold Operand.slotStop
  cases m.readSlot (o.base.toNat + k) with
  | none => simp
  | some v =>
    cases hc : o.canonical <;> simp

theorem inputStop_none {o : Operand} {m : Memory} :
    o.inputStop m = none ↔ ∀ k < o.width,
      (m.readSlot (o.base.toNat + k)).any (fun v => !o.canonical || decide (v.toNat < P)) = true := by
  unfold Operand.inputStop
  rw [List.findSome?_eq_none_iff]
  simp only [List.mem_range, slotStop_none]

theorem mem_readOrder {o : Operand} {ops : List Operand} :
    o ∈ readOrder ops ↔ o ∈ ops ∧ o.isInput = true := by
  simp only [readOrder, List.mem_append, List.mem_filter]
  cases o.canonical <;> cases o.fld <;> simp

theorem earlyError_none {i : Instr} {s : State} :
    earlyError i s.nslots = none ↔
      i.wellFormed = true ∧ ∀ o ∈ operandsOf i, Fits s o.base o.width := by
  unfold earlyError
  rw [Option.or_eq_none_iff, List.findSome?_eq_none_iff]
  have : wordError i = none ↔ i.wellFormed = true := by
    unfold wordError
    split
    · next h => simp [h]
    · next h => split <;> simp [h]
  rw [this]
  simp only [rangeError_none]

/-- When a command passes every check that all commands make. -/
theorem firstStop_none {i : Instr} {s : State} :
    firstStop i s = none ↔ i.wellFormed = true ∧ ∀ o ∈ operandsOf i, OperandOk s o := by
  unfold firstStop
  rw [Option.or_eq_none_iff, Option.map_eq_none_iff, earlyError_none, List.findSome?_eq_none_iff]
  simp only [mem_readOrder, inputStop_none, OperandOk]
  constructor
  · rintro ⟨⟨h1, h2⟩, h3⟩
    exact ⟨h1, fun o ho => ⟨h2 o ho, fun hi => h3 o ⟨ho, hi⟩⟩⟩
  · rintro ⟨h1, h2⟩
    exact ⟨⟨h1, fun o ho => (h2 o ho).1⟩, fun o ho => (h2 o ho.1).2 ho.2⟩

theorem guarded_of_ok {i : Instr} {s : State} {body : Unit → Answer} (h : firstStop i s = none) :
    guarded i s body = body () := by
  unfold guarded; rw [h]

theorem completes_of_ok {i : Instr} {s : State} {e : Unit → Effect} (h : firstStop i s = none) :
    completes i s e = .next (s.complete (e ())) := guarded_of_ok h

/-- The three ways a guarded command answers. -/
theorem guarded_cases (i : Instr) (s : State) (body : Unit → Answer) :
    (firstStop i s = none ∧ guarded i s body = body ()) ∨
    (∃ e, firstStop i s = some (.error e) ∧ guarded i s body = .next (s.abort e)) ∨
    (∃ f, firstStop i s = some (.fault f) ∧ guarded i s body = .fault f) := by
  unfold guarded
  cases h : firstStop i s with
  | none => exact .inl ⟨rfl, rfl⟩
  | some x =>
    cases x with
    | error e => exact .inr (.inl ⟨e, rfl, rfl⟩)
    | fault f => exact .inr (.inr ⟨f, rfl, rfl⟩)

/-- Every meaning makes the checks first. -/
theorem exec_guarded (i : Instr) (s : State) : ∃ body, exec i s = guarded i s body := by
  cases i <;> simp only [exec, completes, pairingCommand,
    execNop, execMov, execZero, execConst, execFpAdd, execFpSub, execFpDbl, execFpNeg,
    execFpMul, execFpSqr, execFpMont, execFpDemont, execFpRedc, execFpExp, execFpInvup,
    execFpInvdown, execFpInveea, execFpSqrt, execFpEq, execFpIszero, execFp2Add, execFp2Sub,
    execFp2Dbl, execFp2Neg, execFp2Mul, execFp2Sqr, execFp2Mulnr, execFp2Inv, execFp2Exp,
    execFp2Sqrt, execFp2Eq, execFp2Iszero, execFp6Add, execFp6Sub, execFp6Dbl, execFp6Neg,
    execFp6Mul, execFp6Sqr, execFp6Mulby01, execFp6Mulby1, execFp6Mulnr, execFp6Inv,
    execFp6Frob, execFp6Eq, execFp6Iszero, execFp12Add, execFp12Sub, execFp12Dbl, execFp12Neg,
    execFp12Mul, execFp12Sqr, execFp12Cycsqr, execFp12Mulby014, execFp12Mulby034, execFp12Inv,
    execFp12Conj, execFp12Frob, execFp12Exp, execFp12Eq, execFp12Iszero, execG1Dbl, execG1Add,
    execG1Neg, execG1Affine, execG1Mul, execG1Iszero, execG1Oncurve, execG1Insub, execG1Eq,
    execG2Dbl, execG2Add, execG2Neg, execG2Affine, execG2Mul, execG2Iszero, execG2Oncurve,
    execG2Insub, execG2Eq, execLineDbl, execLineAdd, execMiller, execFinalexp, execPair] <;>
    exact ⟨_, rfl⟩

theorem exec_of_error {i : Instr} {s : State} {e : ErrReport} (h : firstStop i s = some (.error e)) :
    exec i s = .next (s.abort e) := by
  obtain ⟨body, hb⟩ := exec_guarded i s
  rw [hb, guarded, h]

theorem exec_of_fault {i : Instr} {s : State} {f : Fault} (h : firstStop i s = some (.fault f)) :
    exec i s = .fault f := by
  obtain ⟨body, hb⟩ := exec_guarded i s
  rw [hb, guarded, h]

/-- The first stop in a range of slots. -/
theorem findSome?_range {α : Type} {f : Nat → Option α} {n k : Nat} {x : α} (h : ∀ j < k, f j = none)
    (hk : k < n) (hx : f k = some x) : (List.range n).findSome? f = some x := by
  rw [List.findSome?_eq_some_iff]
  refine ⟨List.range k, k, (List.range (n - k - 1)).map (k + 1 + ·), ?_, hx, fun j hj => h j (List.mem_range.1 hj)⟩
  rw [← List.singleton_append, ← List.append_assoc, ← List.range_succ, ← List.range_add]
  congr 1; omega

/-- The only fault of a check is an empty input slot. -/
theorem firstStop_fault {i : Instr} {s : State} {f : Fault} (h : firstStop i s = some (.fault f)) :
    f = .emptySlot ∧ ∃ o ∈ operandsOf i, o.isInput = true ∧ ∃ k < o.width,
      s.em.readSlot (o.base.toNat + k) = none := by
  unfold firstStop at h
  rw [Option.or_eq_some_iff] at h
  rcases h with h | ⟨_, h⟩
  · cases he : earlyError i s.nslots with
    | none => rw [he] at h; exact absurd h (by simp)
    | some e => rw [he] at h; exact absurd h (by simp)
  · obtain ⟨o, ho, h⟩ := List.exists_of_findSome?_eq_some h
    rw [mem_readOrder] at ho
    unfold Operand.inputStop at h
    obtain ⟨k, hk, h⟩ := List.exists_of_findSome?_eq_some h
    unfold Operand.slotStop at h
    split at h
    · next hr => exact ⟨by simpa using h.symm, o, ho.1, ho.2, k, List.mem_range.1 hk, hr⟩
    · split at h
      · exact absurd h (by simp)
      · exact absurd h (by simp)

/-! ### Operands that pass -/

theorem ok_destD {s : State} {d : SlotNo} {w : Nat} (h : Fits s d w) : OperandOk s (destD d w) :=
  ⟨h, fun hi => absurd hi (by simp [destD, Operand.isInput])⟩

theorem ok_input {s : State} {fld : FieldName} {a : SlotNo} {w : Nat} (h : Typed s a w) :
    OperandOk s (input fld a w) := by
  refine ⟨h.1, fun _ k hk => ?_⟩
  simpa [input] using h.2 k hk

theorem ok_io {s : State} {fld : FieldName} {a : SlotNo} {w : Nat} (h : Typed s a w) :
    OperandOk s ⟨fld, .io, a, w, true, 0⟩ := by
  refine ⟨h.1, fun _ k hk => ?_⟩
  simpa using h.2 k hk

theorem ok_inoutD {s : State} {d : SlotNo} {w : Nat} (h : Typed s d w) : OperandOk s (inoutD d w) :=
  ok_io h

theorem ok_rawInput {s : State} {fld : FieldName} {a : SlotNo} {w : Nat} (h : Raw s a w) :
    OperandOk s (rawInput fld a w) := by
  refine ⟨h.1, fun _ k hk => ?_⟩
  have := h.2 k hk
  cases hr : s.em.readSlot (a.toNat + k) with
  | none => rw [hr] at this; exact absurd this (by simp)
  | some v => simp [rawInput, hr]

theorem ok_pointArray {s : State} {fld : FieldName} {a : SlotNo} {st : Nat} {n : Imm}
    (h : Typed s a (st * n.toNat)) : OperandOk s (pointArray fld a st n) := by
  refine ⟨h.1, fun _ k hk => ?_⟩
  simpa [pointArray] using h.2 k hk

/-! ### What `exec` can answer -/

/-- The effect writes only output operands, and does not report both a true answer and a zero
divisor. -/
def EffectOk (i : Instr) (e : Effect) : Prop :=
  (∀ w ∈ e.writes, InOutput i w.1) ∧ ¬(e.result = true ∧ e.zdiv = true)

/-- The ways a command answers: it faults in its checks, it aborts, or it passes its checks and
completes with an effect on its output operands. -/
def ExecCases (i : Instr) (s : State) (r : Answer) : Prop :=
  (∃ f, firstStop i s = some (.fault f) ∧ r = .fault f) ∨
  (∃ e, r = .next (s.abort e)) ∨
  (∃ e, firstStop i s = none ∧ r = .next (s.complete e) ∧ EffectOk i e)

theorem execCases_guarded {i : Instr} {s : State} {body : Unit → Answer}
    (h : firstStop i s = none → ExecCases i s (body ())) : ExecCases i s (guarded i s body) := by
  rcases guarded_cases i s body with ⟨h0, h1⟩ | ⟨x, _, h1⟩ | ⟨f, h0, h1⟩
  · rw [h1]; exact h h0
  · exact .inr (.inl ⟨x, h1⟩)
  · exact .inl ⟨f, h0, h1⟩

theorem execCases_completes {i : Instr} {s : State} {e : Unit → Effect} (h : EffectOk i (e ())) :
    ExecCases i s (completes i s e) :=
  execCases_guarded fun h0 => .inr (.inr ⟨_, h0, rfl, h⟩)

theorem inOutput_putInts {i : Instr} {d : Nat} {l : List Nat}
    (h : ∃ o ∈ operandsOf i, o.isOutput = true ∧ o.base.toNat = d ∧ l.length ≤ o.width) :
    ∀ w ∈ putInts d l, InOutput i w.1 := by
  intro w hw
  obtain ⟨o, ho, h1, h2, h3⟩ := h
  obtain ⟨k, hk, e⟩ := mem_putInts hw
  exact ⟨o, ho, h1, by omega, by omega⟩

theorem effectOk_writes {i : Instr} {d : Nat} {l : List Nat} {z : Bool}
    (h : ∃ o ∈ operandsOf i, o.isOutput = true ∧ o.base.toNat = d ∧ l.length ≤ o.width) :
    EffectOk i { writes := putInts d l, zdiv := z } :=
  ⟨inOutput_putInts h, by simp⟩

theorem effectOk_result {i : Instr} {r : Bool} : EffectOk i { result := r } :=
  ⟨by simp, by simp⟩

theorem execCases_pairing {i : Instr} {s : State} {d a b : SlotNo} {n : Imm} {chk : Bool}
    {f : List (Jac Fp × Jac Fp2) → Fp12}
    (h : ∃ o ∈ operandsOf i, o.isOutput = true ∧ o.base.toNat = d.toNat ∧ 12 ≤ o.width) :
    ExecCases i s (pairingCommand i s d a b n chk f) := by
  refine execCases_guarded fun h0 => ?_
  split
  · next e _ => exact .inr (.inl ⟨e, rfl⟩)
  · exact .inr (.inr ⟨_, h0, rfl, effectOk_writes (l := ints12 _) h⟩)

theorem execCases_redc (d a b : SlotNo) (s : State) :
    ExecCases (.fpRedc d a b) s (execFpRedc d a b s) := by
  refine execCases_guarded fun h0 => ?_
  split
  · exact .inr (.inl ⟨_, rfl⟩)
  · exact .inr (.inr ⟨_, h0, rfl, effectOk_writes (l := [_])
      ⟨_, List.mem_cons_self, rfl, rfl, Nat.le_refl _⟩⟩)

theorem execCases_sqrt (d a : SlotNo) (s : State) : ExecCases (.fpSqrt d a) s (execFpSqrt d a s) := by
  unfold execFpSqrt
  refine execCases_completes ?_
  simp only
  split
  · exact ⟨inOutput_putInts (l := ints1 _) ⟨_, List.mem_cons_self, rfl, rfl, by simp [destD]⟩, by simp⟩
  · exact ⟨by simp, by simp⟩

theorem execCases_sqrt2 (d a : SlotNo) (s : State) : ExecCases (.fp2Sqrt d a) s (execFp2Sqrt d a s) := by
  unfold execFp2Sqrt
  refine execCases_completes ?_
  split
  · exact ⟨inOutput_putInts (l := ints2 _) ⟨_, List.mem_cons_self, rfl, rfl, by simp [destD]⟩, by simp⟩
  · exact ⟨by simp, by simp⟩

theorem inOutput_line {i : Instr} {d a : Nat} {l1 l2 : List Nat}
    (h1 : ∃ o ∈ operandsOf i, o.isOutput = true ∧ o.base.toNat = d ∧ l1.length ≤ o.width)
    (h2 : ∃ o ∈ operandsOf i, o.isOutput = true ∧ o.base.toNat = a ∧ l2.length ≤ o.width) :
    EffectOk i { writes := putInts d l1 ++ putInts a l2 } :=
  ⟨fun w hw => (List.mem_append.1 hw).elim (inOutput_putInts h1 w) (inOutput_putInts h2 w), by simp⟩

/-- What a command can answer, for every command. -/
theorem exec_cases (i : Instr) (s : State) : ExecCases i s (exec i s) := by
  cases i with
  | nop =>
    show ExecCases _ s (execNop s)
    unfold execNop; refine execCases_completes ?_
    exact ⟨by simp, by simp⟩
  | mov d a n =>
    show ExecCases _ s (execMov d a n s)
    unfold execMov; refine execCases_completes ?_
    exact (effectOk_writes ⟨_, List.mem_cons_self, rfl, rfl, by simp [destD]⟩)
  | zero d n =>
    show ExecCases _ s (execZero d n s)
    unfold execZero; refine execCases_completes ?_
    exact (effectOk_writes ⟨_, List.mem_cons_self, rfl, rfl, by simp [destD]⟩)
  | const d id =>
    show ExecCases _ s (execConst d id s)
    unfold execConst; refine execCases_completes ?_
    exact (effectOk_writes ⟨_, List.mem_cons_self, rfl, rfl, by simp [destD]⟩)
  | fpAdd d a b =>
    show ExecCases _ s (execFpAdd d a b s)
    unfold execFpAdd; refine execCases_completes ?_
    exact (effectOk_writes (l := [_]) ⟨_, List.mem_cons_self, rfl, rfl, Nat.le_refl _⟩)
  | fpSub d a b =>
    show ExecCases _ s (execFpSub d a b s)
    unfold execFpSub; refine execCases_completes ?_
    exact (effectOk_writes (l := [_]) ⟨_, List.mem_cons_self, rfl, rfl, Nat.le_refl _⟩)
  | fpDbl d a =>
    show ExecCases _ s (execFpDbl d a s)
    unfold execFpDbl; refine execCases_completes ?_
    exact (effectOk_writes (l := [_]) ⟨_, List.mem_cons_self, rfl, rfl, Nat.le_refl _⟩)
  | fpNeg d a =>
    show ExecCases _ s (execFpNeg d a s)
    unfold execFpNeg; refine execCases_completes ?_
    exact (effectOk_writes (l := [_]) ⟨_, List.mem_cons_self, rfl, rfl, Nat.le_refl _⟩)
  | fpMul d a b =>
    show ExecCases _ s (execFpMul d a b s)
    unfold execFpMul; refine execCases_completes ?_
    exact (effectOk_writes (l := [_]) ⟨_, List.mem_cons_self, rfl, rfl, Nat.le_refl _⟩)
  | fpSqr d a =>
    show ExecCases _ s (execFpSqr d a s)
    unfold execFpSqr; refine execCases_completes ?_
    exact (effectOk_writes (l := [_]) ⟨_, List.mem_cons_self, rfl, rfl, Nat.le_refl _⟩)
  | fpMont d a =>
    show ExecCases _ s (execFpMont d a s)
    unfold execFpMont; refine execCases_completes ?_
    exact (effectOk_writes (l := [_]) ⟨_, List.mem_cons_self, rfl, rfl, Nat.le_refl _⟩)
  | fpDemont d a =>
    show ExecCases _ s (execFpDemont d a s)
    unfold execFpDemont; refine execCases_completes ?_
    exact (effectOk_writes (l := [_]) ⟨_, List.mem_cons_self, rfl, rfl, Nat.le_refl _⟩)
  | fpRedc d a b => 
    exact execCases_redc d a b s
  | fpExp d a b =>
    show ExecCases _ s (execFpExp d a b s)
    unfold execFpExp; refine execCases_completes ?_
    exact (effectOk_writes (l := [_]) ⟨_, List.mem_cons_self, rfl, rfl, Nat.le_refl _⟩)
  | fpInvup d a =>
    show ExecCases _ s (execFpInvup d a s)
    unfold execFpInvup; refine execCases_completes ?_
    exact (effectOk_writes (l := [_]) ⟨_, List.mem_cons_self, rfl, rfl, Nat.le_refl _⟩)
  | fpInvdown d a =>
    show ExecCases _ s (execFpInvdown d a s)
    unfold execFpInvdown; refine execCases_completes ?_
    exact (effectOk_writes (l := [_]) ⟨_, List.mem_cons_self, rfl, rfl, Nat.le_refl _⟩)
  | fpInveea d a =>
    show ExecCases _ s (execFpInveea d a s)
    unfold execFpInveea; refine execCases_completes ?_
    exact (effectOk_writes (l := [_]) ⟨_, List.mem_cons_self, rfl, rfl, Nat.le_refl _⟩)
  | fpSqrt d a => 
    exact execCases_sqrt d a s
  | fpEq a b =>
    show ExecCases _ s (execFpEq a b s)
    unfold execFpEq; refine execCases_completes ?_
    exact effectOk_result
  | fpIszero a =>
    show ExecCases _ s (execFpIszero a s)
    unfold execFpIszero; refine execCases_completes ?_
    exact effectOk_result
  | fp2Add d a b =>
    show ExecCases _ s (execFp2Add d a b s)
    unfold execFp2Add; refine execCases_completes ?_
    exact (effectOk_writes (l := ints2 _) ⟨_, List.mem_cons_self, rfl, rfl, Nat.le_refl _⟩)
  | fp2Sub d a b =>
    show ExecCases _ s (execFp2Sub d a b s)
    unfold execFp2Sub; refine execCases_completes ?_
    exact (effectOk_writes (l := ints2 _) ⟨_, List.mem_cons_self, rfl, rfl, Nat.le_refl _⟩)
  | fp2Dbl d a =>
    show ExecCases _ s (execFp2Dbl d a s)
    unfold execFp2Dbl; refine execCases_completes ?_
    exact (effectOk_writes (l := ints2 _) ⟨_, List.mem_cons_self, rfl, rfl, Nat.le_refl _⟩)
  | fp2Neg d a =>
    show ExecCases _ s (execFp2Neg d a s)
    unfold execFp2Neg; refine execCases_completes ?_
    exact (effectOk_writes (l := ints2 _) ⟨_, List.mem_cons_self, rfl, rfl, Nat.le_refl _⟩)
  | fp2Mul d a b =>
    show ExecCases _ s (execFp2Mul d a b s)
    unfold execFp2Mul; refine execCases_completes ?_
    exact (effectOk_writes (l := ints2 _) ⟨_, List.mem_cons_self, rfl, rfl, Nat.le_refl _⟩)
  | fp2Sqr d a =>
    show ExecCases _ s (execFp2Sqr d a s)
    unfold execFp2Sqr; refine execCases_completes ?_
    exact (effectOk_writes (l := ints2 _) ⟨_, List.mem_cons_self, rfl, rfl, Nat.le_refl _⟩)
  | fp2Mulnr d a =>
    show ExecCases _ s (execFp2Mulnr d a s)
    unfold execFp2Mulnr; refine execCases_completes ?_
    exact (effectOk_writes (l := ints2 _) ⟨_, List.mem_cons_self, rfl, rfl, Nat.le_refl _⟩)
  | fp2Inv d a =>
    show ExecCases _ s (execFp2Inv d a s)
    unfold execFp2Inv; refine execCases_completes ?_
    exact (effectOk_writes (l := ints2 _) ⟨_, List.mem_cons_self, rfl, rfl, Nat.le_refl _⟩)
  | fp2Exp d a b =>
    show ExecCases _ s (execFp2Exp d a b s)
    unfold execFp2Exp; refine execCases_completes ?_
    exact (effectOk_writes (l := ints2 _) ⟨_, List.mem_cons_self, rfl, rfl, Nat.le_refl _⟩)
  | fp2Sqrt d a => 
    exact execCases_sqrt2 d a s
  | fp2Eq a b =>
    show ExecCases _ s (execFp2Eq a b s)
    unfold execFp2Eq; refine execCases_completes ?_
    exact effectOk_result
  | fp2Iszero a =>
    show ExecCases _ s (execFp2Iszero a s)
    unfold execFp2Iszero; refine execCases_completes ?_
    exact effectOk_result
  | fp6Add d a b =>
    show ExecCases _ s (execFp6Add d a b s)
    unfold execFp6Add; refine execCases_completes ?_
    exact (effectOk_writes (l := ints6 _) ⟨_, List.mem_cons_self, rfl, rfl, Nat.le_refl _⟩)
  | fp6Sub d a b =>
    show ExecCases _ s (execFp6Sub d a b s)
    unfold execFp6Sub; refine execCases_completes ?_
    exact (effectOk_writes (l := ints6 _) ⟨_, List.mem_cons_self, rfl, rfl, Nat.le_refl _⟩)
  | fp6Dbl d a =>
    show ExecCases _ s (execFp6Dbl d a s)
    unfold execFp6Dbl; refine execCases_completes ?_
    exact (effectOk_writes (l := ints6 _) ⟨_, List.mem_cons_self, rfl, rfl, Nat.le_refl _⟩)
  | fp6Neg d a =>
    show ExecCases _ s (execFp6Neg d a s)
    unfold execFp6Neg; refine execCases_completes ?_
    exact (effectOk_writes (l := ints6 _) ⟨_, List.mem_cons_self, rfl, rfl, Nat.le_refl _⟩)
  | fp6Mul d a b =>
    show ExecCases _ s (execFp6Mul d a b s)
    unfold execFp6Mul; refine execCases_completes ?_
    exact (effectOk_writes (l := ints6 _) ⟨_, List.mem_cons_self, rfl, rfl, Nat.le_refl _⟩)
  | fp6Sqr d a =>
    show ExecCases _ s (execFp6Sqr d a s)
    unfold execFp6Sqr; refine execCases_completes ?_
    exact (effectOk_writes (l := ints6 _) ⟨_, List.mem_cons_self, rfl, rfl, Nat.le_refl _⟩)
  | fp6Mulby01 d a b =>
    show ExecCases _ s (execFp6Mulby01 d a b s)
    unfold execFp6Mulby01; refine execCases_completes ?_
    exact (effectOk_writes (l := ints6 _) ⟨_, List.mem_cons_self, rfl, rfl, Nat.le_refl _⟩)
  | fp6Mulby1 d a =>
    show ExecCases _ s (execFp6Mulby1 d a s)
    unfold execFp6Mulby1; refine execCases_completes ?_
    exact (effectOk_writes (l := ints6 _) ⟨_, List.mem_cons_self, rfl, rfl, Nat.le_refl _⟩)
  | fp6Mulnr d a =>
    show ExecCases _ s (execFp6Mulnr d a s)
    unfold execFp6Mulnr; refine execCases_completes ?_
    exact (effectOk_writes (l := ints6 _) ⟨_, List.mem_cons_self, rfl, rfl, Nat.le_refl _⟩)
  | fp6Inv d a =>
    show ExecCases _ s (execFp6Inv d a s)
    unfold execFp6Inv; refine execCases_completes ?_
    exact (effectOk_writes (l := ints6 _) ⟨_, List.mem_cons_self, rfl, rfl, Nat.le_refl _⟩)
  | fp6Frob d a k =>
    show ExecCases _ s (execFp6Frob d a k s)
    unfold execFp6Frob; refine execCases_completes ?_
    exact (effectOk_writes (l := ints6 _) ⟨_, List.mem_cons_self, rfl, rfl, Nat.le_refl _⟩)
  | fp6Eq a b =>
    show ExecCases _ s (execFp6Eq a b s)
    unfold execFp6Eq; refine execCases_completes ?_
    exact effectOk_result
  | fp6Iszero a =>
    show ExecCases _ s (execFp6Iszero a s)
    unfold execFp6Iszero; refine execCases_completes ?_
    exact effectOk_result
  | fp12Add d a b =>
    show ExecCases _ s (execFp12Add d a b s)
    unfold execFp12Add; refine execCases_completes ?_
    exact (effectOk_writes (l := ints12 _) ⟨_, List.mem_cons_self, rfl, rfl, Nat.le_refl _⟩)
  | fp12Sub d a b =>
    show ExecCases _ s (execFp12Sub d a b s)
    unfold execFp12Sub; refine execCases_completes ?_
    exact (effectOk_writes (l := ints12 _) ⟨_, List.mem_cons_self, rfl, rfl, Nat.le_refl _⟩)
  | fp12Dbl d a =>
    show ExecCases _ s (execFp12Dbl d a s)
    unfold execFp12Dbl; refine execCases_completes ?_
    exact (effectOk_writes (l := ints12 _) ⟨_, List.mem_cons_self, rfl, rfl, Nat.le_refl _⟩)
  | fp12Neg d a =>
    show ExecCases _ s (execFp12Neg d a s)
    unfold execFp12Neg; refine execCases_completes ?_
    exact (effectOk_writes (l := ints12 _) ⟨_, List.mem_cons_self, rfl, rfl, Nat.le_refl _⟩)
  | fp12Mul d a b =>
    show ExecCases _ s (execFp12Mul d a b s)
    unfold execFp12Mul; refine execCases_completes ?_
    exact (effectOk_writes (l := ints12 _) ⟨_, List.mem_cons_self, rfl, rfl, Nat.le_refl _⟩)
  | fp12Sqr d a =>
    show ExecCases _ s (execFp12Sqr d a s)
    unfold execFp12Sqr; refine execCases_completes ?_
    exact (effectOk_writes (l := ints12 _) ⟨_, List.mem_cons_self, rfl, rfl, Nat.le_refl _⟩)
  | fp12Cycsqr d a =>
    show ExecCases _ s (execFp12Cycsqr d a s)
    unfold execFp12Cycsqr; refine execCases_completes ?_
    exact (effectOk_writes (l := ints12 _) ⟨_, List.mem_cons_self, rfl, rfl, Nat.le_refl _⟩)
  | fp12Mulby014 d a b c =>
    show ExecCases _ s (execFp12Mulby014 d a b c s)
    unfold execFp12Mulby014; refine execCases_completes ?_
    exact (effectOk_writes (l := ints12 _) ⟨_, List.mem_cons_self, rfl, rfl, Nat.le_refl _⟩)
  | fp12Mulby034 d a b c =>
    show ExecCases _ s (execFp12Mulby034 d a b c s)
    unfold execFp12Mulby034; refine execCases_completes ?_
    exact (effectOk_writes (l := ints12 _) ⟨_, List.mem_cons_self, rfl, rfl, Nat.le_refl _⟩)
  | fp12Inv d a =>
    show ExecCases _ s (execFp12Inv d a s)
    unfold execFp12Inv; refine execCases_completes ?_
    exact (effectOk_writes (l := ints12 _) ⟨_, List.mem_cons_self, rfl, rfl, Nat.le_refl _⟩)
  | fp12Conj d a =>
    show ExecCases _ s (execFp12Conj d a s)
    unfold execFp12Conj; refine execCases_completes ?_
    exact (effectOk_writes (l := ints12 _) ⟨_, List.mem_cons_self, rfl, rfl, Nat.le_refl _⟩)
  | fp12Frob d a k =>
    show ExecCases _ s (execFp12Frob d a k s)
    unfold execFp12Frob; refine execCases_completes ?_
    exact (effectOk_writes (l := ints12 _) ⟨_, List.mem_cons_self, rfl, rfl, Nat.le_refl _⟩)
  | fp12Exp d a b =>
    show ExecCases _ s (execFp12Exp d a b s)
    unfold execFp12Exp; refine execCases_completes ?_
    exact (effectOk_writes (l := ints12 _) ⟨_, List.mem_cons_self, rfl, rfl, Nat.le_refl _⟩)
  | fp12Eq a b =>
    show ExecCases _ s (execFp12Eq a b s)
    unfold execFp12Eq; refine execCases_completes ?_
    exact effectOk_result
  | fp12Iszero a =>
    show ExecCases _ s (execFp12Iszero a s)
    unfold execFp12Iszero; refine execCases_completes ?_
    exact effectOk_result
  | g1Dbl d a =>
    show ExecCases _ s (execG1Dbl d a s)
    unfold execG1Dbl; refine execCases_completes ?_
    exact (effectOk_writes (l := intsG1 _) ⟨_, List.mem_cons_self, rfl, rfl, Nat.le_refl _⟩)
  | g1Add d a b =>
    show ExecCases _ s (execG1Add d a b s)
    unfold execG1Add; refine execCases_completes ?_
    exact (effectOk_writes (l := intsG1 _) ⟨_, List.mem_cons_self, rfl, rfl, Nat.le_refl _⟩)
  | g1Neg d a =>
    show ExecCases _ s (execG1Neg d a s)
    unfold execG1Neg; refine execCases_completes ?_
    exact (effectOk_writes (l := intsG1 _) ⟨_, List.mem_cons_self, rfl, rfl, Nat.le_refl _⟩)
  | g1Affine d a =>
    show ExecCases _ s (execG1Affine d a s)
    unfold execG1Affine; refine execCases_completes ?_
    exact (effectOk_writes (l := intsG1 _) ⟨_, List.mem_cons_self, rfl, rfl, Nat.le_refl _⟩)
  | g1Mul d a b =>
    show ExecCases _ s (execG1Mul d a b s)
    unfold execG1Mul; refine execCases_completes ?_
    exact (effectOk_writes (l := intsG1 _) ⟨_, List.mem_cons_self, rfl, rfl, Nat.le_refl _⟩)
  | g1Iszero a =>
    show ExecCases _ s (execG1Iszero a s)
    unfold execG1Iszero; refine execCases_completes ?_
    exact effectOk_result
  | g1Oncurve a =>
    show ExecCases _ s (execG1Oncurve a s)
    unfold execG1Oncurve; refine execCases_completes ?_
    exact effectOk_result
  | g1Insub a =>
    show ExecCases _ s (execG1Insub a s)
    unfold execG1Insub; refine execCases_completes ?_
    exact effectOk_result
  | g1Eq a b =>
    show ExecCases _ s (execG1Eq a b s)
    unfold execG1Eq; refine execCases_completes ?_
    exact effectOk_result
  | g2Dbl d a =>
    show ExecCases _ s (execG2Dbl d a s)
    unfold execG2Dbl; refine execCases_completes ?_
    exact (effectOk_writes (l := intsG2 _) ⟨_, List.mem_cons_self, rfl, rfl, Nat.le_refl _⟩)
  | g2Add d a b =>
    show ExecCases _ s (execG2Add d a b s)
    unfold execG2Add; refine execCases_completes ?_
    exact (effectOk_writes (l := intsG2 _) ⟨_, List.mem_cons_self, rfl, rfl, Nat.le_refl _⟩)
  | g2Neg d a =>
    show ExecCases _ s (execG2Neg d a s)
    unfold execG2Neg; refine execCases_completes ?_
    exact (effectOk_writes (l := intsG2 _) ⟨_, List.mem_cons_self, rfl, rfl, Nat.le_refl _⟩)
  | g2Affine d a =>
    show ExecCases _ s (execG2Affine d a s)
    unfold execG2Affine; refine execCases_completes ?_
    exact (effectOk_writes (l := intsG2 _) ⟨_, List.mem_cons_self, rfl, rfl, Nat.le_refl _⟩)
  | g2Mul d a b =>
    show ExecCases _ s (execG2Mul d a b s)
    unfold execG2Mul; refine execCases_completes ?_
    exact (effectOk_writes (l := intsG2 _) ⟨_, List.mem_cons_self, rfl, rfl, Nat.le_refl _⟩)
  | g2Iszero a =>
    show ExecCases _ s (execG2Iszero a s)
    unfold execG2Iszero; refine execCases_completes ?_
    exact effectOk_result
  | g2Oncurve a =>
    show ExecCases _ s (execG2Oncurve a s)
    unfold execG2Oncurve; refine execCases_completes ?_
    exact effectOk_result
  | g2Insub a =>
    show ExecCases _ s (execG2Insub a s)
    unfold execG2Insub; refine execCases_completes ?_
    exact effectOk_result
  | g2Eq a b =>
    show ExecCases _ s (execG2Eq a b s)
    unfold execG2Eq; refine execCases_completes ?_
    exact effectOk_result
  | lineDbl d a b =>
    show ExecCases _ s (execLineDbl d a b s)
    unfold execLineDbl; refine execCases_completes ?_
    exact (inOutput_line (l1 := intsLine _) (l2 := intsG2 _) ⟨_, List.mem_cons_self, rfl, rfl, Nat.le_refl _⟩
      ⟨_, List.mem_cons_of_mem _ List.mem_cons_self, rfl, rfl, Nat.le_refl _⟩)
  | lineAdd d a b c =>
    show ExecCases _ s (execLineAdd d a b c s)
    unfold execLineAdd; refine execCases_completes ?_
    exact (inOutput_line (l1 := intsLine _) (l2 := intsG2 _) ⟨_, List.mem_cons_self, rfl, rfl, Nat.le_refl _⟩
      ⟨_, List.mem_cons_of_mem _ List.mem_cons_self, rfl, rfl, Nat.le_refl _⟩)
  | miller d a b n1 n2 chk =>
    show ExecCases _ s (execMiller d a b n1 n2 chk s)
    unfold execMiller; refine execCases_pairing ?_
    exact ⟨_, List.mem_cons_self, rfl, rfl, Nat.le_refl _⟩
  | finalexp d a =>
    show ExecCases _ s (execFinalexp d a s)
    unfold execFinalexp; refine execCases_completes ?_
    exact (effectOk_writes (l := ints12 _) ⟨_, List.mem_cons_self, rfl, rfl, Nat.le_refl _⟩)
  | pair d a b n1 n2 chk =>
    show ExecCases _ s (execPair d a b n1 n2 chk s)
    unfold execPair; refine execCases_pairing ?_
    exact ⟨_, List.mem_cons_self, rfl, rfl, Nat.le_refl _⟩

end Sys2Proof.Machine
end

