-- ==== Sys2Proof/Laws/Completion.lean ====
section
/-! SUPPORT. From the operands of a command to its completion: one lemma for a command that writes one
run of slots, one for a predicate, and one for what a completion that reported no error went through. -/

namespace Sys2Proof.Machine

theorem completed_of (s : State) (e : Effect) : Completed s (s.complete e) e.result e.zdiv :=
  ⟨rfl, rfl, rfl, rfl, rfl, rfl, rfl, rfl, rfl, rfl⟩

/-- A command that passes its checks and writes the slot integers `l`. -/
theorem writes_of {i : Instr} {s : State} {d : SlotNo} {w : Nat} {z : Bool} {post : State → Prop}
    (l : List Nat) (hx : exec i s = completes i s fun _ => { writes := putInts d.toNat l, zdiv := z })
    (hw : l.length = w) (hl : ∀ v ∈ l, v < P) (hok : firstStop i s = none)
    (hp : ∀ t, HoldsInts t d.toNat l → post t) : Writes i s d w z post := by
  subst hw
  have hh := holdsInts_of_em (s := s) (t := s.complete { writes := putInts d.toNat l, zdiv := z }) rfl
    fun v hv => (hl v hv).trans p_lt_r
  exact ⟨_, hx.trans (completes_of_ok hok), completed_of _ _, kept_of_em rfl, hh.canonical hl, hp _ hh⟩

/-- A predicate that passes its checks. -/
theorem decides_of {i : Instr} {s : State} (r : Bool)
    (hx : exec i s = completes i s fun _ => { result := r }) (hok : firstStop i s = none) :
    Decides i s r :=
  ⟨_, hx.trans (completes_of_ok hok), completed_of _ _, rfl⟩

/-- What a command that completed without error did. -/
theorem completes_next {i : Instr} {s t : State} {e : Unit → Effect} (h : completes i s e = .next t)
    (herr : t.status.err = false) : firstStop i s = none ∧ t = s.complete (e ()) := by
  rcases guarded_cases i s fun _ => .next (s.complete (e ())) with ⟨h0, h1⟩ | ⟨x, _, h1⟩ | ⟨f, _, h1⟩
  · refine ⟨h0, ?_⟩
    have : completes i s e = .next (s.complete (e ())) := h1
    rw [this] at h
    cases h; rfl
  · have : completes i s e = .next (s.abort x) := h1
    rw [this] at h
    cases h
    exact absurd herr (by simp [State.abort, Status.aborted])
  · have : completes i s e = .fault f := h1
    rw [this] at h
    cases h

/-! ### Operand lists -/

theorem ok_DAB {i : Instr} {s : State} {w : Nat} {d a b : SlotNo} (ho : operandsOf i = opsDAB w d a b)
    (hw : i.wellFormed = true) (hd : Fits s d w) (ha : Typed s a w) (hb : Typed s b w) :
    firstStop i s = none := by
  rw [firstStop_none, ho]
  refine ⟨hw, fun o h => ?_⟩
  simp only [opsDAB, List.mem_cons, List.not_mem_nil, or_false] at h
  rcases h with rfl | rfl | rfl
  · exact ok_destD hd
  · exact ok_input ha
  · exact ok_input hb

theorem ok_DA {i : Instr} {s : State} {w : Nat} {d a : SlotNo} (ho : operandsOf i = opsDA w d a)
    (hw : i.wellFormed = true) (hd : Fits s d w) (ha : Typed s a w) : firstStop i s = none := by
  rw [firstStop_none, ho]
  refine ⟨hw, fun o h => ?_⟩
  simp only [opsDA, List.mem_cons, List.not_mem_nil, or_false] at h
  rcases h with rfl | rfl
  · exact ok_destD hd
  · exact ok_input ha

theorem ok_AB {i : Instr} {s : State} {w : Nat} {a b : SlotNo} (ho : operandsOf i = opsAB w a b)
    (hw : i.wellFormed = true) (ha : Typed s a w) (hb : Typed s b w) : firstStop i s = none := by
  rw [firstStop_none, ho]
  refine ⟨hw, fun o h => ?_⟩
  simp only [opsAB, List.mem_cons, List.not_mem_nil, or_false] at h
  rcases h with rfl | rfl
  · exact ok_input ha
  · exact ok_input hb

theorem ok_A {i : Instr} {s : State} {w : Nat} {a : SlotNo} (ho : operandsOf i = opsA w a)
    (hw : i.wellFormed = true) (ha : Typed s a w) : firstStop i s = none := by
  rw [firstStop_none, ho]
  refine ⟨hw, fun o h => ?_⟩
  simp only [opsA, List.mem_cons, List.not_mem_nil, or_false] at h
  subst h
  exact ok_input ha

theorem ok_DAraw {i : Instr} {s : State} {w : Nat} {d a b : SlotNo}
    (ho : operandsOf i = opsDAraw w d a b) (hw : i.wellFormed = true) (hd : Fits s d w)
    (ha : Typed s a w) (hb : Raw s b 1) : firstStop i s = none := by
  rw [firstStop_none, ho]
  refine ⟨hw, fun o h => ?_⟩
  simp only [opsDAraw, List.mem_cons, List.not_mem_nil, or_false] at h
  rcases h with rfl | rfl | rfl
  · exact ok_destD hd
  · exact ok_input ha
  · exact ok_rawInput hb

theorem ok_pairing {i : Instr} {s : State} {d a b : SlotNo} {n : Imm}
    (ho : operandsOf i = [destD d 12, pointArray .a a 3 n, pointArray .b b 6 n])
    (hw : i.wellFormed = true) (hd : Fits s d 12) (ha : Typed s a (3 * n.toNat))
    (hb : Typed s b (6 * n.toNat)) : firstStop i s = none := by
  rw [firstStop_none, ho]
  refine ⟨hw, fun o h => ?_⟩
  simp only [List.mem_cons, List.not_mem_nil, or_false] at h
  rcases h with rfl | rfl | rfl
  · exact ok_destD hd
  · exact ok_pointArray ha
  · exact ok_pointArray hb

/-! ### The line commands -/

/-- The coefficients of a line, slot by slot. -/
theorem getElem_intsLine {l : Line} {k : Nat} (hk : k < 6) :
    ∃ y : Fp, [l.c0.re, l.c0.im, l.c1.re, l.c1.im, l.c4.re, l.c4.im][k]? = some y ∧
      (intsLine l)[k]? = some (montInt y.val) := by
  rcases k with _ | _ | _ | _ | _ | _ | k
  · exact ⟨_, rfl, rfl⟩
  · exact ⟨_, rfl, rfl⟩
  · exact ⟨_, rfl, rfl⟩
  · exact ⟨_, rfl, rfl⟩
  · exact ⟨_, rfl, rfl⟩
  · exact ⟨_, rfl, rfl⟩
  · omega

/-- What a line command leaves. -/
theorem line_completes {i : Instr} {s : State} {d a : Nat} {l : Line} {q : Jac Fp2}
    (hx : exec i s = completes i s fun _ => { writes := putLine d l ++ putG2 a q })
    (hok : firstStop i s = none) :
    ∃ t, exec i s = .next t ∧ Completed s t false false ∧
      (∀ off, (∀ k < 6, OffSlot (d + k) off ∧ OffSlot (a + k) off) →
        t.em.readByte off = s.em.readByte off) ∧
      Canonical t d 6 ∧ Canonical t a 6 ∧ t.readG2 a = q ∧
      ∀ k < 6, d + k < a ∨ a + 6 ≤ d + k →
        [l.c0.re, l.c0.im, l.c1.re, l.c1.im, l.c4.re, l.c4.im][k]? = some (t.val1 (d + k)) := by
  refine ⟨_, hx.trans (completes_of_ok hok), completed_of _ _, ?_⟩
  have hem : (s.complete { writes := putLine d l ++ putG2 a q }).em =
      (s.em.writeSlots (putInts d (intsLine l))).writeSlots (putInts a (intsG2 q)) := by
    rw [State.complete_em, writeSlots_append]; rfl
  generalize s.complete { writes := putLine d l ++ putG2 a q } = t at hem
  have ha : HoldsInts t a (intsG2 q) :=
    holdsInts_of_em (s := { s with em := s.em.writeSlots (putInts d (intsLine l)) }) hem
      fun v hv => (lt_intsG2 v hv).trans p_lt_r
  have hca := ha.canonical lt_intsG2
  have hout : ∀ k, d + k < a ∨ a + 6 ≤ d + k →
      t.em.readSlot (d + k) = (s.em.writeSlots (putInts d (intsLine l))).readSlot (d + k) := by
    intro k hk
    rw [hem, readSlot_putInts_ne]
    exact hk
  have hd : ∀ k (hk : k < 6), d + k < a ∨ a + 6 ≤ d + k →
      t.em.readSlot (d + k) = some (BitVec.ofNat 384 ((intsLine l)[k]'hk)) := by
    intro k hk ho
    rw [hout k ho]
    exact readSlot_putInts (l := intsLine l) hk
  refine ⟨?_, ?_, hca, ha.readG2, ?_⟩
  · intro off ho
    rw [hem, readByte_putInts_off (l := intsG2 q) (fun k hk => (ho k hk).2),
      readByte_putInts_off (l := intsLine l) (fun k hk => (ho k hk).1)]
  · intro k hk
    by_cases ho : d + k < a ∨ a + 6 ≤ d + k
    · rw [hd k hk ho]
      have := lt_intsLine (l := l) _ (List.getElem_mem (l := intsLine l) hk)
      simp only [Option.any_some, decide_eq_true_eq, toNat_ofNat_of_lt this]
      exact this
    · have := hca (d + k - a) (show d + k - a < 6 by omega)
      rwa [show a + (d + k - a) = d + k by omega] at this
  · intro k hk ho
    have h1 := hd k hk ho
    have hlt := lt_intsLine (l := l) _ (List.getElem_mem (l := intsLine l) hk)
    have h2 : t.slotInt (d + k) = (intsLine l)[k]'hk :=
      slotInt_of_read (by rw [h1]; exact congrArg some (toNat_ofNat_of_lt hlt))
    obtain ⟨y, e1, e2⟩ := getElem_intsLine (l := l) hk
    have e3 : (intsLine l)[k]'hk = montInt y.val := by
      rw [List.getElem?_eq_getElem hk] at e2
      exact Option.some.inj e2
    rw [State.val1, h2, e3, e1, val_mont]

end Sys2Proof.Machine
end

