-- ==== Sys2Proof/Laws/Ladder.lean ====
section
/-! SUPPORT. The loop over the bits of an integer: whatever it doubles and adds, it reaches the power
that the low bits name. -/

namespace Sys2Proof.Machine

/-- If `pw` sends doubling to `double` and adding one to `add`, the loop over the low `n` bits of `k`
takes `pw m` to `pw (m·2ⁿ + k mod 2ⁿ)`. -/
theorem ladder_pw {α : Type} {double add : α → α} {pw : Nat → α}
    (hd : ∀ m, double (pw m) = pw (2 * m)) (ha : ∀ m, add (pw m) = pw (m + 1)) (k n m : Nat) :
    ladder double add k n (pw m) = pw (m * 2 ^ n + k % 2 ^ n) := by
  induction n generalizing m with
  | zero => simp [ladder, Nat.mod_one]
  | succ n ih =>
    have hk : k % 2 ^ (n + 1) = (if k.testBit n then 2 ^ n else 0) + k % 2 ^ n := by
      rw [Nat.pow_succ, Nat.mod_mul, Nat.testBit_eq_decide_div_mod_eq]
      rcases Nat.mod_two_eq_zero_or_one (k / 2 ^ n) with h | h <;> (simp [h]; try omega)
    rw [ladder, hd]
    by_cases hb : k.testBit n = true
    · rw [if_pos hb, ha, ih, hk, if_pos hb]
      congr 1; rw [Nat.pow_succ]; ring
    · rw [if_neg hb, ih, hk, if_neg hb]
      congr 1; rw [Nat.pow_succ]; ring

/-- Square-and-multiply over enough bits is the power. -/
theorem powBits_eq {F : Type} [Monoid F] (a : F) (k n : Nat) : powBits n a k = a ^ (k % 2 ^ n) := by
  have := ladder_pw (double := fun r : F => r * r) (add := fun r => r * a) (pw := fun m => a ^ m)
    (fun m => by rw [Nat.two_mul, pow_add]) (fun m => (pow_succ a m).symm) k n 0
  simpa [powBits] using this

theorem powAll_eq {F : Type} [Monoid F] (a : F) (k : Nat) : powAll a k = a ^ k := by
  rw [powAll, powBits_eq, Nat.mod_eq_of_lt Nat.lt_log2_self]

end Sys2Proof.Machine
end

