-- ==== Sys2Proof/Laws/Primes.lean ====
section
/-! SUPPORT. p and q are prime (00_scope.md R12, R13): Pratt certificates, each checked by the kernel.
So the inverse of R17 is a power (log entry 14). -/

namespace Sys2Proof.Machine

set_option Elab.async false

/-- a^k mod n. -/
def powMod (a k n : Nat) : Nat :=
  ladder (fun r => r * r % n) (fun r => r * a % n) k (k.log2 + 1) (1 % n)

theorem powMod_eq (a k n : Nat) : powMod a k n = a ^ k % n := by
  have := ladder_pw (double := fun r => r * r % n) (add := fun r => r * a % n) (pw := fun m => a ^ m % n)
    (fun m => by rw [← Nat.mul_mod, ← pow_add, Nat.two_mul])
    (fun m => by rw [Nat.mod_mul_mod, ← pow_succ]) k (k.log2 + 1) 0
  rw [powMod, ← pow_zero a]
  refine this.trans ?_
  rw [Nat.zero_mul, Nat.zero_add, Nat.mod_eq_of_lt Nat.lt_log2_self]

/-- The primes of the certificate with their exponents multiply to n − 1. -/
def factored (n : Nat) (fs : List (Nat × Nat)) : Bool :=
  fs.foldr (fun f r => f.1 ^ f.2 * r) 1 == n - 1 && 1 < n

/-- `a` has order n − 1 modulo n. -/
def generates (n a : Nat) (fs : List (Nat × Nat)) : Bool :=
  powMod a (n - 1) n == 1 && fs.all fun f => powMod a ((n - 1) / f.1) n != 1

theorem prime_dvd_factors {q : Nat} (hq : q.Prime) :
    ∀ fs : List (Nat × Nat), (∀ f ∈ fs, f.1.Prime) → q ∣ fs.foldr (fun f r => f.1 ^ f.2 * r) 1 →
      ∃ f ∈ fs, f.1 = q := by
  intro fs
  induction fs with
  | nil => intro _ h; exact absurd (Nat.dvd_one.1 h) hq.one_lt.ne'
  | cons f fs ih =>
    intro hp h
    rcases (Nat.Prime.dvd_mul hq).1 h with h | h
    · exact ⟨f, List.mem_cons_self, ((Nat.prime_dvd_prime_iff_eq hq (hp f List.mem_cons_self)).1
        (hq.dvd_of_dvd_pow h)).symm⟩
    · obtain ⟨g, hg, e⟩ := ih (fun x hx => hp x (List.mem_cons_of_mem _ hx)) h
      exact ⟨g, List.mem_cons_of_mem _ hg, e⟩

/-- Lucas's test with a full factorisation of n − 1. -/
theorem prime_of_cert {n a : Nat} {fs : List (Nat × Nat)} (h1 : factored n fs = true)
    (h2 : generates n a fs = true) (h3 : ∀ f ∈ fs, f.1.Prime) : n.Prime := by
  simp only [factored, Bool.and_eq_true, beq_iff_eq, decide_eq_true_eq] at h1
  simp only [generates, Bool.and_eq_true, beq_iff_eq, List.all_eq_true, bne_iff_ne, powMod_eq] at h2
  have key : ∀ k, ((a : ZMod n)) ^ k = 1 ↔ a ^ k % n = 1 := by
    intro k
    rw [← Nat.cast_pow, ← Nat.cast_one, ZMod.natCast_eq_natCast_iff, Nat.ModEq, Nat.mod_eq_of_lt h1.2]
  refine lucas_primality n (a : ZMod n) ((key _).2 h2.1) fun q hq hd => ?_
  obtain ⟨f, hf, rfl⟩ := prime_dvd_factors hq fs h3 (h1.1 ▸ hd)
  rw [Ne, key]
  exact h2.2 f hf

theorem prime_cert_1 : Nat.Prime 52437899 :=
  prime_of_cert (a := 2) (fs := [(2, 1), (43, 1), (609743, 1)]) (by decide +kernel) (by decide +kernel)
    (by simp only [List.forall_mem_cons]; exact ⟨(by norm_num), (by norm_num), (by norm_num), by simp⟩)

theorem prime_cert_2 : Nat.Prime 9272813673901 :=
  prime_of_cert (a := 2) (fs := [(2, 2), (3, 1), (5, 2), (7, 1), (7577, 1), (582767, 1)]) (by decide +kernel) (by decide +kernel)
    (by simp only [List.forall_mem_cons]; exact ⟨(by norm_num), (by norm_num), (by norm_num), (by norm_num), (by norm_num), (by norm_num), by simp⟩)

theorem prime_cert_3 : Nat.Prime 1928745244171409 :=
  prime_of_cert (a := 3) (fs := [(2, 4), (13, 1), (9272813673901, 1)]) (by decide +kernel) (by decide +kernel)
    (by simp only [List.forall_mem_cons]; exact ⟨(by norm_num), (by norm_num), prime_cert_2, by simp⟩)

theorem prime_cert_4 : Nat.Prime 7259797099061183477 :=
  prime_of_cert (a := 2) (fs := [(2, 2), (941, 1), (1928745244171409, 1)]) (by decide +kernel) (by decide +kernel)
    (by simp only [List.forall_mem_cons]; exact ⟨(by norm_num), (by norm_num), prime_cert_3, by simp⟩)

theorem prime_cert_5 : Nat.Prime 2584487767265781317813 :=
  prime_of_cert (a := 2) (fs := [(2, 2), (89, 1), (7259797099061183477, 1)]) (by decide +kernel) (by decide +kernel)
    (by simp only [List.forall_mem_cons]; exact ⟨(by norm_num), (by norm_num), prime_cert_4, by simp⟩)

theorem prime_cert_6 : Nat.Prime 1686913 :=
  prime_of_cert (a := 10) (fs := [(2, 7), (3, 1), (23, 1), (191, 1)]) (by decide +kernel) (by decide +kernel)
    (by simp only [List.forall_mem_cons]; exact ⟨(by norm_num), (by norm_num), (by norm_num), (by norm_num), by simp⟩)

theorem prime_cert_7 : Nat.Prime 475709467 :=
  prime_of_cert (a := 2) (fs := [(2, 1), (3, 1), (47, 1), (1686913, 1)]) (by decide +kernel) (by decide +kernel)
    (by simp only [List.forall_mem_cons]; exact ⟨(by norm_num), (by norm_num), (by norm_num), prime_cert_6, by simp⟩)

theorem prime_cert_8 : Nat.Prime 927093389 :=
  prime_of_cert (a := 3) (fs := [(2, 2), (13, 1), (409, 1), (43591, 1)]) (by decide +kernel) (by decide +kernel)
    (by simp only [List.forall_mem_cons]; exact ⟨(by norm_num), (by norm_num), (by norm_num), (by norm_num), by simp⟩)

theorem prime_cert_9 : Nat.Prime 64881703735777 :=
  prime_of_cert (a := 5) (fs := [(2, 5), (3, 7), (927093389, 1)]) (by decide +kernel) (by decide +kernel)
    (by simp only [List.forall_mem_cons]; exact ⟨(by norm_num), (by norm_num), prime_cert_8, by simp⟩)

theorem prime_cert_10 : Nat.Prime 92691255082156974996979 :=
  prime_of_cert (a := 3) (fs := [(2, 1), (3, 1), (31, 1), (467, 1), (16447, 1), (64881703735777, 1)]) (by decide +kernel) (by decide +kernel)
    (by simp only [List.forall_mem_cons]; exact ⟨(by norm_num), (by norm_num), (by norm_num), (by norm_num), (by norm_num), prime_cert_9, by simp⟩)

theorem prime_cert_11 : Nat.Prime 51376543 :=
  prime_of_cert (a := 3) (fs := [(2, 1), (3, 1), (7, 1), (151, 1), (8101, 1)]) (by decide +kernel) (by decide +kernel)
    (by simp only [List.forall_mem_cons]; exact ⟨(by norm_num), (by norm_num), (by norm_num), (by norm_num), (by norm_num), by simp⟩)

theorem prime_cert_12 : Nat.Prime 43670061551 :=
  prime_of_cert (a := 7) (fs := [(2, 1), (5, 2), (17, 1), (51376543, 1)]) (by decide +kernel) (by decide +kernel)
    (by simp only [List.forall_mem_cons]; exact ⟨(by norm_num), (by norm_num), (by norm_num), prime_cert_11, by simp⟩)

theorem prime_cert_13 : Nat.Prime 13090036741 :=
  prime_of_cert (a := 10) (fs := [(2, 2), (3, 1), (5, 1), (11, 1), (47, 1), (421987, 1)]) (by decide +kernel) (by decide +kernel)
    (by simp only [List.forall_mem_cons]; exact ⟨(by norm_num), (by norm_num), (by norm_num), (by norm_num), (by norm_num), (by norm_num), by simp⟩)

theorem prime_cert_14 : Nat.Prime 3819663927398918131021 :=
  prime_of_cert (a := 6) (fs := [(2, 2), (3, 2), (5, 1), (19, 1), (113, 1), (755057, 1), (13090036741, 1)]) (by decide +kernel) (by decide +kernel)
    (by simp only [List.forall_mem_cons]; exact ⟨(by norm_num), (by norm_num), (by norm_num), (by norm_num), (by norm_num), (by norm_num), prime_cert_13, by simp⟩)

theorem prime_cert_15 : Nat.Prime 1125266252156850182658904441386709967 :=
  prime_of_cert (a := 5) (fs := [(2, 1), (3373, 1), (43670061551, 1), (3819663927398918131021, 1)]) (by decide +kernel) (by decide +kernel)
    (by simp only [List.forall_mem_cons]; exact ⟨(by norm_num), (by norm_num), prime_cert_12, prime_cert_14, by simp⟩)

theorem prime_cert_16 : Nat.Prime 15778400344354997994418419698270088123916926905054652752758194827714659 :=
  prime_of_cert (a := 2) (fs := [(2, 1), (3, 1), (53, 1), (475709467, 1), (92691255082156974996979, 1), (1125266252156850182658904441386709967, 1)]) (by decide +kernel) (by decide +kernel)
    (by simp only [List.forall_mem_cons]; exact ⟨(by norm_num), (by norm_num), (by norm_num), prime_cert_7, prime_cert_10, prime_cert_15, by simp⟩)

theorem p_prime : Nat.Prime P :=
  prime_of_cert (a := 2) (fs := [(2, 1), (3, 2), (11, 1), (23, 1), (47, 1), (10177, 1), (859267, 1), (52437899, 1), (2584487767265781317813, 1), (15778400344354997994418419698270088123916926905054652752758194827714659, 1)]) (by decide +kernel) (by decide +kernel)
    (by simp only [List.forall_mem_cons]; exact ⟨(by norm_num), (by norm_num), (by norm_num), (by norm_num), (by norm_num), (by norm_num), (by norm_num), prime_cert_1, prime_cert_5, prime_cert_16, by simp⟩)

theorem prime_cert_18 : Nat.Prime 2508409 :=
  prime_of_cert (a := 11) (fs := [(2, 3), (3, 4), (7, 2), (79, 1)]) (by decide +kernel) (by decide +kernel)
    (by simp only [List.forall_mem_cons]; exact ⟨(by norm_num), (by norm_num), (by norm_num), (by norm_num), by simp⟩)

theorem prime_cert_19 : Nat.Prime 2529403 :=
  prime_of_cert (a := 2) (fs := [(2, 1), (3, 1), (23, 1), (18329, 1)]) (by decide +kernel) (by decide +kernel)
    (by simp only [List.forall_mem_cons]; exact ⟨(by norm_num), (by norm_num), (by norm_num), (by norm_num), by simp⟩)

theorem prime_cert_20 : Nat.Prime 2653753 :=
  prime_of_cert (a := 5) (fs := [(2, 3), (3, 1), (110573, 1)]) (by decide +kernel) (by decide +kernel)
    (by simp only [List.forall_mem_cons]; exact ⟨(by norm_num), (by norm_num), (by norm_num), by simp⟩)

theorem prime_cert_21 : Nat.Prime 63690073 :=
  prime_of_cert (a := 7) (fs := [(2, 3), (3, 1), (2653753, 1)]) (by decide +kernel) (by decide +kernel)
    (by simp only [List.forall_mem_cons]; exact ⟨(by norm_num), (by norm_num), prime_cert_20, by simp⟩)

theorem prime_cert_22 : Nat.Prime 254760293 :=
  prime_of_cert (a := 2) (fs := [(2, 2), (63690073, 1)]) (by decide +kernel) (by decide +kernel)
    (by simp only [List.forall_mem_cons]; exact ⟨(by norm_num), prime_cert_21, by simp⟩)

theorem q_prime : Nat.Prime Q :=
  prime_of_cert (a := 7) (fs := [(2, 32), (3, 1), (11, 1), (19, 1), (10177, 1), (125527, 1), (859267, 1), (906349, 2), (2508409, 1), (2529403, 1), (52437899, 1), (254760293, 2)]) (by decide +kernel) (by decide +kernel)
    (by simp only [List.forall_mem_cons]; exact ⟨(by norm_num), (by norm_num), (by norm_num), (by norm_num), (by norm_num), (by norm_num), (by norm_num), (by norm_num), prime_cert_18, prime_cert_19, prime_cert_1, prime_cert_22, by simp⟩)

end Sys2Proof.Machine
end

