-- ==== Sys2Proof/Laws/Fp.lean ====
section
/-! SUPPORT. The laws of Fp: the inverse, the square root, and the Montgomery reduction. -/

namespace Sys2Proof.Machine

set_option Elab.async false

theorem fact_p : Fact P.Prime := ⟨p_prime⟩

theorem ne_zero_p : NeZero P := ⟨p_pos.ne'⟩

/-! ### Inverse and roots -/

/-- inv0 is the inverse of the field, 0 for 0 (00_scope.md R17). -/
theorem fpInv_eq (a : Fp) : fpInv a = a⁻¹ := by
  have := fact_p
  rw [fpInv, powAll_eq]
  by_cases h : a = 0
  · subst h
    rw [zero_pow (by decide +kernel), inv_zero]
  · have h1 : a ^ (P - 2) * a = 1 := by
      rw [← pow_succ, show P - 2 + 1 = P - 1 by decide +kernel]
      exact ZMod.pow_card_sub_one_eq_one h
    exact eq_inv_of_mul_eq_one_left h1

theorem mul_fpInv {a : Fp} (h : a ≠ 0) : a * fpInv a = 1 := by
  have := fact_p
  rw [fpInv_eq, mul_inv_cancel₀ h]

theorem fpInv_zero : fpInv 0 = 0 := by
  have := fact_p
  rw [fpInv_eq, inv_zero]

/-- −1 is not a square, since p ≡ 3 (mod 4) (00_scope.md R13). -/
theorem not_isSquare_neg_one : ¬IsSquare (-1 : Fp) := by
  have := fact_p
  rw [ZMod.exists_sq_eq_neg_one_iff]
  have : P % 4 = 3 := by decide +kernel
  simp [this]

theorem two_ne_zero_fp : (2 : Fp) ≠ 0 := by
  intro h
  have h2 : ((2 : Nat) : Fp) = 0 := by exact_mod_cast h
  have : P ∣ 2 := (ZMod.natCast_eq_zero_iff 2 P).1 h2
  exact absurd (Nat.le_of_dvd (by decide) this) (by decide +kernel)

/-- isqr decides the squares (42_fp2.md R210). -/
theorem isqr_iff (y : Fp) : isqr y = true ↔ IsSquare y := by
  have := fact_p
  unfold isqr
  rw [powAll_eq, Bool.or_eq_true, beq_iff_eq, beq_iff_eq]
  by_cases h : y = 0
  · subst h; simp
  · rw [ZMod.euler_criterion P h]
    have e : (P - 1) / 2 = P / 2 := by decide +kernel
    rw [e]; simp [h]

/-- The root of a square is a root (41_fp.md R165). -/
theorem sqrtp_sq {y : Fp} (h : IsSquare y) : sqrtp y * sqrtp y = y := by
  have := fact_p
  rw [sqrtp, powAll_eq, ← pow_add]
  have e : (P + 1) / 4 + (P + 1) / 4 = P / 2 + 1 := by decide +kernel
  rw [e, pow_succ]
  by_cases h0 : y = 0
  · rw [h0, mul_zero]
  · rw [(ZMod.euler_criterion P h0).1 h, one_mul]

theorem sqrtp_sq_iff (y : Fp) : sqrtp y * sqrtp y = y ↔ IsSquare y :=
  ⟨fun h => ⟨_, h.symm⟩, sqrtp_sq⟩

/-- A product of nonsquares is a square. -/
theorem isSquare_mul_of_not {x y : Fp} (hx : ¬IsSquare x) (hy : ¬IsSquare y) : IsSquare (x * y) := by
  have := fact_p
  have hx0 : x ≠ 0 := fun h => hx (h ▸ ⟨0, by simp⟩)
  have hy0 : y ≠ 0 := fun h => hy (h ▸ ⟨0, by simp⟩)
  have h1 : ∀ z : Fp, z ≠ 0 → ¬IsSquare z → z ^ (P / 2) = -1 := fun z hz h =>
    ((ZMod.pow_div_two_eq_neg_one_or_one P hz).resolve_left
      fun e => h ((ZMod.euler_criterion P hz).2 e))
  rw [ZMod.euler_criterion P (mul_ne_zero hx0 hy0), mul_pow, h1 x hx0 hx, h1 y hy0 hy]
  ring

/-! ### The Montgomery reduction -/

theorem np_inverse : (NP * P + 1) % R = 0 := by decide +kernel

theorem r_pos : 0 < R := by decide +kernel

theorem two_p_lt_r : 2 * P < R := by decide +kernel

/-- The reduction by R is exact, and its result stands for T·R⁻¹ (41_fp.md R159). -/
theorem redc_spec {t : Nat} (h : t < P * R) : redc t < P ∧ redc t * R % P = t % P := by
  set m := (t % R) * NP % R with hm
  have hdvd : R ∣ t + m * P := by
    have hmod : (t + m * P) % R = 0 := by
      have h1 : m * P % R = t % R * NP * P % R := by rw [hm, Nat.mod_mul_mod]
      rw [Nat.add_mod, h1, Nat.mul_assoc, ← Nat.add_mod, Nat.add_mod, Nat.mod_mul_mod, ← Nat.add_mod]
      have : t + t * (NP * P) = t * (NP * P + 1) := by ring
      rw [this, Nat.mul_mod, np_inverse, Nat.mul_zero, Nat.zero_mod]
    exact Nat.dvd_of_mod_eq_zero hmod
  obtain ⟨u, hu⟩ := hdvd
  have hdiv : (t + m * P) / R = u := by rw [hu, Nat.mul_div_cancel_left _ r_pos]
  have hm' : m < R := Nat.mod_lt _ r_pos
  have hlt : u < 2 * P := by
    have h1 : R * u < R * (2 * P) := by
      rw [← hu]
      calc t + m * P < P * R + R * P := by
            have := Nat.mul_le_mul_right P hm'.le
            omega
        _ = R * (2 * P) := by ring
    exact Nat.lt_of_mul_lt_mul_left h1
  have hval : redc t = if P ≤ u then u - P else u := by
    unfold redc
    rw [← hm]
    simp only [hdiv]
  have hmodu : u * R % P = t % P := by
    rw [Nat.mul_comm, ← hu, Nat.add_mul_mod_self_right]
  rw [hval]
  split
  · next hp =>
    refine ⟨by omega, ?_⟩
    have : (u - P) * R + P * R = u * R := by rw [← Nat.add_mul, Nat.sub_add_cancel hp]
    rw [← hmodu, ← this, Nat.add_mul_mod_self_left]
  · exact ⟨by omega, hmodu⟩

/-- REDC in Fp: division by R. -/
theorem redc_fp {t : Nat} (h : t < P * R) : ((redc t : Nat) : Fp) = (t : Fp) * (RINV : Nat) := by
  have h1 : ((redc t : Nat) : Fp) * (R : Nat) = (t : Fp) := by
    rw [← Nat.cast_mul, ← ZMod.natCast_mod, (redc_spec h).2, ZMod.natCast_mod]
  rw [← h1, mul_assoc, r_rinv_fp, mul_one]

/-- Two canonical integers that agree in Fp are equal. -/
theorem eq_of_fp {a b : Nat} (ha : a < P) (hb : b < P) (h : (a : Fp) = (b : Fp)) : a = b := by
  rw [ZMod.natCast_eq_natCast_iff, Nat.ModEq, Nat.mod_eq_of_lt ha, Nat.mod_eq_of_lt hb] at h
  exact h

/-- The value returned is `T·RINV mod p` (41_fp.md R159). -/
theorem redc_eq {t : Nat} (h : t < P * R) : redc t = t * RINV % P := by
  refine eq_of_fp (redc_spec h).1 (Nat.mod_lt _ p_pos) ?_
  rw [redc_fp h, ZMod.natCast_mod, Nat.cast_mul]

theorem mul_lt_pr {a b : Nat} (ha : a < P) (hb : b < R) : a * b < P * R :=
  Nat.mul_lt_mul'' ha hb

theorem p_lt_r' : P < R := by decide +kernel

theorem r2_eq : R2 = R * R % P := by decide +kernel

theorem one_eq : ONE = R % P := by decide +kernel

theorem montInt_eq_one : montInt 1 = ONE := by decide +kernel

theorem montInt_zero : montInt 0 = 0 := by decide +kernel

/-- The Montgomery product of Montgomery forms is the Montgomery form of the product
(41_fp.md R155). -/
theorem redc_montInt (x y : Nat) : redc (montInt x * montInt y) = montInt (x * y) := by
  have h := mul_lt_pr (montInt_lt x) ((montInt_lt y).trans p_lt_r')
  refine eq_of_fp (redc_spec h).1 (montInt_lt _) ?_
  rw [redc_fp h, Nat.cast_mul]
  simp only [montInt, ZMod.natCast_mod, Nat.cast_mul]
  calc (x : Fp) * (R : Nat) * ((y : Fp) * (R : Nat)) * (RINV : Nat)
      = (x : Fp) * (y : Fp) * (R : Nat) * ((R : Nat) * (RINV : Nat)) := by ring
    _ = (x : Fp) * (y : Fp) * (R : Nat) := by rw [r_rinv_fp, mul_one]

/-- A canonical integer is the Montgomery form of some integer. -/
theorem exists_montInt {a : Nat} (h : a < P) : ∃ x, a = montInt x :=
  ⟨_, (mont_val h).symm⟩

/-- FP_EXP's loop computes the Montgomery form of the power (41_fp.md R161). -/
theorem montPow_montInt (x k : Nat) : montPow (montInt x) k = montInt (x ^ (k % 2 ^ 384)) := by
  have := ladder_pw (double := fun r => redc (r * r)) (add := fun r => redc (r * montInt x))
    (pw := fun m => montInt (x ^ m)) (fun m => by rw [redc_montInt, ← pow_add, Nat.two_mul])
    (fun m => by rw [redc_montInt, pow_succ]) k 384 0
  rw [montPow, ← montInt_eq_one, ← pow_zero x]
  refine this.trans ?_
  rw [Nat.zero_mul, Nat.zero_add]

theorem montInt_mod (x : Nat) : montInt (x % P) = montInt x := by
  rw [montInt, montInt, Nat.mod_mul_mod]

end Sys2Proof.Machine
end

