-- ==== Sys2Proof/Laws/Fp2.lean ====
section
/-! SUPPORT. The laws of Fp2: the steps of the commands compute the products, the inverse inverts, the
square root finds a root exactly of the squares, ξ is neither a square nor a cube. -/

namespace Sys2Proof.Machine

set_option Elab.async false

/-- The Karatsuba steps give the product (42_fp2.md R205). -/
theorem fp2MulKaratsuba_eq (x y : Fp2) : fp2MulKaratsuba x y = x * y := by
  ext <;> simp [fp2MulKaratsuba] <;> ring

/-- The complex squaring gives the square (42_fp2.md R206). -/
theorem fp2SqrComplex_eq (x : Fp2) : fp2SqrComplex x = x * x := by
  ext <;> simp [fp2SqrComplex] <;> ring

/-- MULNR multiplies by ξ (42_fp2.md R207). -/
theorem mulXi_eq (x : Fp2) : mulXi x = xi * x := by
  ext <;> simp [mulXi, xi] <;> ring

theorem scale_eq (x : Fp2) (e : Fp) : scale x e = x * ⟨e, 0⟩ := by
  ext <;> simp [scale]

/-- The norm of Fp2 to Fp. -/
def norm2 (x : Fp2) : Fp := x.re * x.re + x.im * x.im

theorem norm2_mul (x y : Fp2) : norm2 (x * y) = norm2 x * norm2 y := by
  simp [norm2]; ring

/-- The norm is 0 only of 0, since −1 is not a square (42_fp2.md R208). -/
theorem norm2_eq_zero {x : Fp2} (h : norm2 x = 0) : x = 0 := by
  have := fact_p
  by_cases hi : x.im = 0
  · have hr : x.re * x.re = 0 := by simpa [norm2, hi] using h
    ext
    · simpa using hr
    · simpa using hi
  · exfalso
    refine not_isSquare_neg_one ⟨x.re * (x.im)⁻¹, ?_⟩
    have h1 : x.re * x.re = -(x.im * x.im) := by rw [norm2] at h; linear_combination h
    field_simp
    linear_combination -h1

theorem fp2Inv_eq (x : Fp2) : fp2Inv x = ⟨x.re * (norm2 x)⁻¹, -x.im * (norm2 x)⁻¹⟩ := by
  simp only [fp2Inv, fpInv_eq, norm2]

theorem mul_fp2Inv {x : Fp2} (h : x ≠ 0) : x * fp2Inv x = 1 := by
  have := fact_p
  have hn : norm2 x ≠ 0 := fun e => h (norm2_eq_zero e)
  rw [fp2Inv_eq]
  ext
  · simp only [QuadraticAlgebra.re_mul, QuadraticAlgebra.re_one]
    field_simp
    rw [norm2]; ring
  · simp only [QuadraticAlgebra.im_mul, QuadraticAlgebra.im_one]
    ring

theorem fp2Inv_zero : fp2Inv 0 = 0 := by
  have := fact_p
  rw [fp2Inv_eq]; ext <;> simp

theorem fp2_mul_eq_zero {x y : Fp2} (h : x * y = 0) : x = 0 ∨ y = 0 := by
  by_cases hy : y = 0
  · exact .inr hy
  · left
    calc x = x * (y * fp2Inv y) := by rw [mul_fp2Inv hy, mul_one]
      _ = x * y * fp2Inv y := by ring
      _ = 0 := by rw [h, zero_mul]

theorem fp2_one_ne_zero : (1 : Fp2) ≠ 0 := by
  have := fact_p
  intro h
  have h1 : (1 : Fp) = 0 := congrArg QuadraticAlgebra.re h
  exact one_ne_zero h1

/-! ### ξ -/

theorem isqr_two : isqr 2 = false := by decide +kernel

/-- ξ is not a square in Fp2: its norm 2 is not a square in Fp (42_fp2.md R210). -/
theorem xi_not_square (y : Fp2) : y * y ≠ xi := by
  intro h
  have h1 : norm2 y * norm2 y = 2 := by
    rw [← norm2_mul, h]; simp [norm2, xi]; norm_num
  have := (isqr_iff 2).2 ⟨norm2 y, h1.symm⟩
  rw [isqr_two] at this
  exact absurd this (by simp)

theorem two_not_cube : powAll (2 : Fp) ((P - 1) / 3) ≠ 1 := by decide +kernel

/-- ξ is not a cube in Fp2: its norm 2 is not a cube in Fp. -/
theorem xi_not_cube (y : Fp2) : y * y * y ≠ xi := by
  have := fact_p
  intro h
  have h1 : norm2 y ^ 3 = 2 := by
    have : norm2 (y * y * y) = 2 := by rw [h]; simp [norm2, xi]; norm_num
    rw [norm2_mul, norm2_mul] at this
    rw [← this]; ring
  refine two_not_cube ?_
  rw [powAll_eq, ← h1, ← pow_mul]
  have e : 3 * ((P - 1) / 3) = P - 1 := by decide +kernel
  rw [e]
  refine ZMod.pow_card_sub_one_eq_one fun h0 => two_ne_zero_fp ?_
  rw [← h1, h0]; ring

theorem xi_ne_zero : xi ≠ 0 := by
  intro h
  exact xi_not_square 0 (by rw [h, mul_zero])

/-! ### The square root -/

/-- Every root that FP2_SQRT writes is a root (42_fp2.md R210). -/
theorem fp2Sqrt_sound {x r : Fp2} (h : fp2Sqrt x = some r) : r * r = x := by
  have := fact_p
  unfold fp2Sqrt at h
  split at h
  · next hi =>
    split at h
    · next hq =>
      have h1 := sqrtp_sq ((isqr_iff _).1 hq)
      obtain rfl := Option.some.inj h
      ext
      · simpa using h1
      · simp [hi]
    · next hq =>
      have h1 : IsSquare (-x.re) := by
        have := isSquare_mul_of_not not_isSquare_neg_one fun e => hq ((isqr_iff _).2 e)
        simpa using this
      have h2 := sqrtp_sq h1
      obtain rfl := Option.some.inj h
      ext
      · simp [h2]
      · simp [hi]
  · next hi =>
    simp only at h
    split at h
    · next hq =>
      obtain rfl := Option.some.inj h
      have hs := sqrtp_sq ((isqr_iff _).1 hq)
      set sn := sqrtp (x.re * x.re + x.im * x.im) with hsn
      have h2 := mul_fpInv two_ne_zero_fp
      set hf := fpInv 2 with hhf
      have hprod : (x.re + sn) * hf * ((x.re - sn) * hf) * 4 = -(x.im * x.im) := by
        linear_combination (-1) * hs + ((x.re + sn) * (x.re - sn)) * (2 * hf + 1) * h2
      set t := if isqr ((x.re + sn) * hf) = true then (x.re + sn) * hf else (x.re - sn) * hf with ht
      have hsq : IsSquare t := by
        rw [ht]; split
        · next h => exact (isqr_iff _).1 h
        · next h =>
          by_contra hn
          have h1 := isSquare_mul_of_not (fun e => h ((isqr_iff _).2 e)) hn
          obtain ⟨z, hz⟩ := h1
          refine not_isSquare_neg_one ⟨2 * z * (x.im)⁻¹, ?_⟩
          field_simp
          linear_combination (-1) * hprod + 4 * hz
      have htq : 4 * t * t - 4 * t * x.re = x.im * x.im := by
        rw [ht]; split
        · linear_combination hprod * (-1) + (4 * ((x.re + sn) * hf) * x.re) * h2
        · linear_combination hprod * (-1) + (4 * ((x.re - sn) * hf) * x.re) * h2
      have hx := sqrtp_sq hsq
      set x0 := sqrtp t with hx0
      have hx0ne : x0 ≠ 0 := by
        intro e
        have ht0 : t = 0 := by rw [← hx, e, mul_zero]
        rw [ht0] at htq
        exact hi (by simpa using htq.symm)
      have hinv := mul_fpInv (mul_ne_zero two_ne_zero_fp hx0ne)
      set iv := fpInv (2 * x0) with hiv
      ext
      · simp only [QuadraticAlgebra.re_mul]
        have h4 : (x0 * x0 - x.im * iv * (x.im * iv)) * (4 * (x0 * x0)) = x.re * (4 * (x0 * x0)) := by
          linear_combination htq + (4 * x0 * x0 + 4 * t - 4 * x.re) * hx
            - x.im * x.im * (2 * x0 * iv + 1) * hinv
        have h40 : (4 : Fp) * (x0 * x0) ≠ 0 := by
          have : (4 : Fp) = 2 * 2 := by norm_num
          rw [this]
          exact mul_ne_zero (mul_ne_zero two_ne_zero_fp two_ne_zero_fp) (mul_ne_zero hx0ne hx0ne)
        have := mul_right_cancel₀ h40 h4
        linear_combination this
      · simp only [QuadraticAlgebra.im_mul]
        linear_combination x.im * hinv
    · exact absurd h (by simp)

/-- FP2_SQRT finds a root of every square (42_fp2.md R210). -/
theorem fp2Sqrt_complete {x : Fp2} (h : fp2Sqrt x = none) (r : Fp2) : r * r ≠ x := by
  unfold fp2Sqrt at h
  split at h
  · split at h <;> exact absurd h (by simp)
  · simp only at h
    split at h
    · exact absurd h (by simp)
    · next hq =>
      intro e
      refine hq ((isqr_iff _).2 ⟨norm2 r, ?_⟩)
      rw [← norm2_mul, e, norm2]

end Sys2Proof.Machine
end

