-- ==== Sys2Proof/Laws/Curve.lean ====
section
/-! SUPPORT. The laws of the point procedures: every procedure keeps a triple on its curve, over any
field with the inverse it is given. -/

namespace Sys2Proof.Machine

section Procedures

variable {F : Type} [CommRing F] [DecidableEq F] {b : F}

/-- The curve equation (45_g1.md R311). -/
theorem onCurve_iff {p : Jac F} : onCurve b p = true ↔
    p.z = 0 ∨ p.y * p.y = p.x * p.x * p.x + b * (p.z * p.z * (p.z * p.z) * (p.z * p.z)) := by
  unfold onCurve
  split
  · next h => simp [h]
  · next h => simp [h]

theorem onCurve_inf : onCurve b inf = true := onCurve_iff.2 (.inl rfl)

/-- Doubling stays on the curve (45_g1.md R301). -/
theorem onCurve_dblPt {p : Jac F} (h : onCurve b p = true) : onCurve b (dblPt p) = true := by
  rw [onCurve_iff] at h
  unfold dblPt
  split
  · exact onCurve_inf
  · next hz =>
    have e := h.resolve_left hz
    simp only
    split
    · exact onCurve_inf
    · refine onCurve_iff.2 (.inr ?_)
      obtain ⟨x, y, z⟩ := p
      simp only at e ⊢
      linear_combination (64 * y ^ 6) * e

/-- Addition stays on the curve (45_g1.md R302). -/
theorem onCurve_addPt {p q : Jac F} (hp : onCurve b p = true) (hq : onCurve b q = true) :
    onCurve b (addPt p q) = true := by
  unfold addPt
  split
  · split
    · exact onCurve_inf
    · exact hq
  · next h1 =>
    split
    · exact hp
    · next h2 =>
      simp only
      split
      · split
        · exact onCurve_dblPt hp
        · exact onCurve_inf
      · have e1 := (onCurve_iff.1 hp).resolve_left h1
        have e2 := (onCurve_iff.1 hq).resolve_left h2
        refine onCurve_iff.2 (.inr ?_)
        have e1' : p.y * (q.z * (q.z * q.z)) * (p.y * (q.z * (q.z * q.z))) =
            p.x * (q.z * q.z) * (p.x * (q.z * q.z)) * (p.x * (q.z * q.z)) + b * (p.z * q.z) ^ 6 := by
          linear_combination q.z ^ 6 * e1
        have e2' : q.y * (p.z * (p.z * p.z)) * (q.y * (p.z * (p.z * p.z))) =
            q.x * (p.z * p.z) * (q.x * (p.z * p.z)) * (q.x * (p.z * p.z)) + b * (p.z * q.z) ^ 6 := by
          linear_combination p.z ^ 6 * e2
        simp only
        generalize p.y * (q.z * (q.z * q.z)) = s1 at e1'
        generalize q.y * (p.z * (p.z * p.z)) = s2 at e2'
        generalize p.x * (q.z * q.z) = u1 at e1'
        generalize q.x * (p.z * p.z) = u2 at e2'
        generalize hh : u2 - u1 = h
        generalize hr : s2 - s1 = r
        have hu : u2 = u1 + h := by rw [← hh]; ring
        have hs : s2 = s1 + r := by rw [← hr]; ring
        rw [hu, hs] at e2'
        linear_combination h ^ 6 * e1' +
          h ^ 3 * (r ^ 2 - h ^ 3 - 3 * u1 * h ^ 2) * (e2' - e1')

theorem onCurve_negPt {p : Jac F} : onCurve b (negPt p) = onCurve b p := by
  unfold onCurve negPt
  simp

/-- Normalisation stays on the curve (45_g1.md R303). -/
theorem onCurve_affPt {inv : F → F} (hi : ∀ z, z ≠ 0 → z * inv z = 1) {p : Jac F}
    (h : onCurve b p = true) : onCurve b (affPt inv p) = true := by
  unfold affPt
  split
  · exact h
  · next hz =>
    have e := (onCurve_iff.1 h).resolve_left hz
    have hz' := hi _ hz
    refine onCurve_iff.2 (.inr ?_)
    obtain ⟨x, y, z⟩ := p
    simp only at e hz' ⊢
    generalize inv z = i at hz'
    have h6 : z ^ 6 * i ^ 6 = 1 := by rw [← mul_pow, hz', one_pow]
    linear_combination (i ^ 6) * e + b * h6

theorem onCurve_ladder {p : Jac F} (hp : onCurve b p = true) (k n : Nat) {t : Jac F}
    (ht : onCurve b t = true) : onCurve b (ladder dblPt (fun t => addPt t p) k n t) = true := by
  induction n generalizing t with
  | zero => exact ht
  | succ n ih =>
    unfold ladder
    refine ih ?_
    split
    · exact onCurve_addPt (onCurve_dblPt ht) hp
    · exact onCurve_dblPt ht

/-- Scalar multiplication stays on the curve (45_g1.md R304). -/
theorem onCurve_mulPt {inv : F → F} (hi : ∀ z, z ≠ 0 → z * inv z = 1) {p : Jac F}
    (h : onCurve b p = true) (k : Nat) : onCurve b (mulPt inv p k) = true := by
  unfold mulPt
  simp only
  split
  · exact onCurve_inf
  · exact onCurve_affPt hi (onCurve_ladder h k 384 onCurve_inf)

/-- A scalar multiple is INF or affine (45_g1.md R304). -/
theorem mulPt_normal (inv : F → F) (p : Jac F) (k : Nat) :
    mulPt inv p k = inf ∨ (mulPt inv p k).z = 1 := by
  unfold mulPt
  simp only
  split
  · exact .inl rfl
  · next h => exact .inr (by rw [affPt, if_neg h])

end Procedures

theorem fp_inv_ok : ∀ z : Fp, z ≠ 0 → z * fpInv z = 1 := fun _ h => mul_fpInv h

theorem fp2_inv_ok : ∀ z : Fp2, z ≠ 0 → z * fp2Inv z = 1 := fun _ h => mul_fp2Inv h

end Sys2Proof.Machine
end

