-- ==== Sys2Proof/Laws/Fp6.lean ====
section
/-! SUPPORT. The laws of Fp6 = Fp2[v]/(v³ − ξ): it is a commutative ring under the operations of
43_fp6.md, the sparse products and the product by v are products, every nonzero element has the inverse
of R240. -/

namespace Sys2Proof.Machine
namespace Fp6

/-- v. -/
def v : Fp6 := ⟨0, 1, 0⟩

theorem mul_comm (a b : Fp6) : a.mul b = b.mul a := by
  ext1 <;> simp only [mul, mulXi_eq] <;> ring

theorem mul_assoc (a b c : Fp6) : (a.mul b).mul c = a.mul (b.mul c) := by
  ext1 <;> simp only [mul, mulXi_eq] <;> ring

theorem one_mul (a : Fp6) : one.mul a = a := by
  ext1 <;> simp only [mul, mulXi_eq, one] <;> ring

theorem mul_one (a : Fp6) : a.mul one = a := by rw [mul_comm, one_mul]

theorem mul_zero (a : Fp6) : a.mul zero = zero := by
  ext1 <;> simp only [mul, mulXi_eq, zero] <;> ring

theorem zero_mul (a : Fp6) : zero.mul a = zero := by rw [mul_comm, mul_zero]

theorem mul_add (a b c : Fp6) : a.mul (b.add c) = (a.mul b).add (a.mul c) := by
  ext1 <;> simp only [mul, add, mulXi_eq] <;> ring

theorem add_mul (a b c : Fp6) : (a.add b).mul c = (a.mul c).add (b.mul c) := by
  ext1 <;> simp only [mul, add, mulXi_eq] <;> ring

theorem add_comm (a b : Fp6) : a.add b = b.add a := by
  ext1 <;> simp only [add] <;> ring

theorem sub_self (a : Fp6) : a.sub a = zero := by
  ext1 <;> simp only [sub, zero] <;> ring

theorem add_self (a : Fp6) : a.add a = a.dbl := by
  ext1 <;> simp only [add, dbl] <;> ring

/-- v³ = ξ. -/
theorem v_cube : (v.mul v).mul v = ⟨xi, 0, 0⟩ := by
  ext1 <;> simp only [mul, mulXi_eq, v] <;> ring

/-- MULNR is the product by v (43_fp6.md R239). -/
theorem mulV_eq (a : Fp6) : a.mulV = v.mul a := by
  ext1 <;> simp only [mul, mulV, mulXi_eq, v] <;> ring

/-- The sparse product is the product by b0 + b1·v (43_fp6.md R237). -/
theorem mulBy01_eq (a : Fp6) (b0 b1 : Fp2) : a.mulBy01 b0 b1 = a.mul ⟨b0, b1, 0⟩ := by
  ext1 <;> simp only [mul, mulBy01, mulXi_eq] <;> ring

/-- The sparse product is the product by b1·v (43_fp6.md R238). -/
theorem mulBy1_eq (a : Fp6) (b1 : Fp2) : a.mulBy1 b1 = a.mul ⟨0, b1, 0⟩ := by
  ext1 <;> simp only [mul, mulBy1, mulXi_eq] <;> ring

theorem add_assoc (a b c : Fp6) : (a.add b).add c = a.add (b.add c) := by
  ext1 <;> simp only [add] <;> ring

theorem zero_add (a : Fp6) : zero.add a = a := by
  ext1 <;> simp only [add, zero] <;> ring

theorem neg_add (a : Fp6) : a.neg.add a = zero := by
  ext1 <;> simp only [add, neg, zero] <;> ring

theorem sub_eq (a b : Fp6) : a.sub b = a.add b.neg := by
  ext1 <;> simp only [add, neg, sub] <;> ring

/-- Fp6 as a commutative ring, for `ring` and the lemmas on powers. -/
@[reducible] def commRing : CommRing Fp6 :=
  @CommRing.ofMinimalAxioms Fp6 ⟨add⟩ ⟨mul⟩ ⟨neg⟩ ⟨zero⟩ ⟨one⟩ add_assoc zero_add neg_add mul_assoc
    mul_comm one_mul mul_add

/-! ### The inverse -/

/-- The cofactors of R240 give the norm: a·(t0 + t1·v + t2·v²) = n. -/
def cofactor (a : Fp6) : Fp6 :=
  ⟨a.c0 * a.c0 - mulXi (a.c1 * a.c2), mulXi (a.c2 * a.c2) - a.c0 * a.c1, a.c1 * a.c1 - a.c0 * a.c2⟩

/-- The norm of Fp6 to Fp2. -/
def norm (a : Fp6) : Fp2 :=
  a.c0 * (a.cofactor).c0 + mulXi (a.c2 * (a.cofactor).c1 + a.c1 * (a.cofactor).c2)

theorem mul_cofactor (a : Fp6) : a.mul a.cofactor = ⟨a.norm, 0, 0⟩ := by
  ext1 <;> simp only [mul, cofactor, norm, mulXi_eq] <;> ring

theorem norm_eq (a : Fp6) : a.norm =
    a.c0 * a.c0 * a.c0 + xi * (a.c1 * a.c1 * a.c1) + xi * xi * (a.c2 * a.c2 * a.c2)
      - 3 * (xi * (a.c0 * a.c1 * a.c2)) := by
  simp only [norm, cofactor, mulXi_eq]; ring

theorem norm_mul (a b : Fp6) : (a.mul b).norm = a.norm * b.norm := by
  simp only [norm_eq, mul, mulXi_eq]; ring

theorem inv_eq (a : Fp6) : a.inv = a.cofactor.mul ⟨fp2Inv a.norm, 0, 0⟩ := by
  ext1 <;> simp only [inv, mul, cofactor, norm, mulXi_eq] <;> ring

/-- No b0 + b1·v other than 0 has norm 0, since ξ is not a cube. -/
theorem linear_norm_eq_zero {x y : Fp2} (h : x * x * x + xi * (y * y * y) = 0) : x = 0 ∧ y = 0 := by
  by_cases hy : y = 0
  · have hx : x * (x * x) = 0 := by linear_combination h - xi * y * y * hy
    refine ⟨?_, hy⟩
    rcases fp2_mul_eq_zero hx with e | e
    · exact e
    · rcases fp2_mul_eq_zero e with e | e <;> exact e
  · exfalso
    have hi := mul_fp2Inv hy
    refine xi_not_cube (-(x * fp2Inv y)) ?_
    set i := fp2Inv y
    linear_combination -(i * i * i) * h + xi * (y * i * y * i + y * i + 1) * hi

/-- The norm is 0 only of 0. -/
theorem norm_eq_zero {a : Fp6} (h : a.norm = 0) : a = zero := by
  have hb := norm_mul a ⟨a.c1, -a.c2, 0⟩
  rw [h, MulZeroClass.zero_mul, norm_eq] at hb
  simp only [mul, mulXi_eq] at hb
  have hz := linear_norm_eq_zero (x := a.c0 * a.c1 - xi * (a.c2 * a.c2)) (y := a.c1 * a.c1 - a.c0 * a.c2)
    (by linear_combination hb)
  by_cases h2 : a.c2 = 0
  · rw [norm_eq, h2] at h
    have h01 := linear_norm_eq_zero (x := a.c0) (y := a.c1) (by linear_combination h)
    ext1
    · exact h01.1
    · exact h01.2
    · exact h2
  · exfalso
    have hi := mul_fp2Inv h2
    refine xi_not_cube (a.c1 * fp2Inv a.c2) ?_
    set i := fp2Inv a.c2
    linear_combination (i * i * i) * (a.c1 * hz.2 + a.c2 * hz.1) + xi * (a.c2 * i * a.c2 * i + a.c2 * i + 1) * hi

/-- The inverse inverts (43_fp6.md R240). -/
theorem mul_inv {a : Fp6} (h : a ≠ zero) : a.mul a.inv = one := by
  have hn : a.norm ≠ 0 := fun e => h (norm_eq_zero e)
  rw [inv_eq, ← mul_assoc, mul_cofactor]
  ext1 <;> simp only [mul, mulXi_eq, one]
  · linear_combination mul_fp2Inv hn
  · ring
  · ring

theorem inv_zero : zero.inv = zero := by
  rw [inv_eq]
  ext1 <;> simp [mul, mulXi_eq, zero, cofactor]

theorem norm_zero : zero.norm = 0 := by simp [norm_eq, zero]

theorem norm_one : one.norm = 1 := by simp [norm_eq, one]

theorem mul_eq_zero {a b : Fp6} (h : a.mul b = zero) : a = zero ∨ b = zero := by
  have := norm_mul a b
  rw [h, norm_zero] at this
  rcases fp2_mul_eq_zero this.symm with e | e
  · exact .inl (norm_eq_zero e)
  · exact .inr (norm_eq_zero e)

/-- v is not a square: its norm is ξ, which is none (42_fp2.md R210). -/
theorem v_not_square (b : Fp6) : b.mul b ≠ v := by
  intro h
  have := norm_mul b b
  rw [h] at this
  refine xi_not_square b.norm ?_
  rw [← this, norm_eq, v]
  ring

/-! ### Powers -/

theorem npow_add (a : Fp6) (m n : Nat) : a.npow (m + n) = (a.npow m).mul (a.npow n) := by
  induction n with
  | zero => exact (mul_one _).symm
  | succ n ih => rw [← Nat.add_assoc, npow, ih, npow, mul_assoc]

end Fp6
end Sys2Proof.Machine
end

