-- ==== Sys2Proof/Laws/Fp12.lean ====
section
/-! SUPPORT. The laws of Fp12 = Fp6[w]/(w² − v): it is a commutative ring under the operations of
44_fp12.md, every nonzero element has the inverse of R270, the exponentiation gives the power. -/

namespace Sys2Proof.Machine
namespace Fp12

theorem mul_comm (a b : Fp12) : a.mul b = b.mul a := by
  ext1 <;> simp only [mul]
  · rw [a.c0.mul_comm, a.c1.mul_comm]
  · rw [Fp6.add_comm, a.c0.mul_comm, a.c1.mul_comm]

theorem mul_assoc (a b c : Fp12) : (a.mul b).mul c = a.mul (b.mul c) := by
  let _ := Fp6.commRing
  ext1 <;> simp only [mul, Fp6.mulV_eq]
  · show (a.c0 * b.c0 + Fp6.v * (a.c1 * b.c1)) * c.c0 + Fp6.v * ((a.c0 * b.c1 + a.c1 * b.c0) * c.c1) =
      a.c0 * (b.c0 * c.c0 + Fp6.v * (b.c1 * c.c1)) + Fp6.v * (a.c1 * (b.c0 * c.c1 + b.c1 * c.c0))
    ring
  · show (a.c0 * b.c0 + Fp6.v * (a.c1 * b.c1)) * c.c1 + (a.c0 * b.c1 + a.c1 * b.c0) * c.c0 =
      a.c0 * (b.c0 * c.c1 + b.c1 * c.c0) + a.c1 * (b.c0 * c.c0 + Fp6.v * (b.c1 * c.c1))
    ring

theorem one_mul (a : Fp12) : one.mul a = a := by
  let _ := Fp6.commRing
  ext1 <;> simp only [mul, one, Fp6.mulV_eq, Fp6.one_mul, Fp6.zero_mul, Fp6.mul_zero]
  · show a.c0 + 0 = a.c0
    ring
  · show a.c1 + 0 = a.c1
    ring

theorem mul_one (a : Fp12) : a.mul one = a := by rw [mul_comm, one_mul]

theorem mul_add (a b c : Fp12) : a.mul (b.add c) = (a.mul b).add (a.mul c) := by
  let _ := Fp6.commRing
  ext1 <;> simp only [mul, add, Fp6.mulV_eq]
  · show a.c0 * (b.c0 + c.c0) + Fp6.v * (a.c1 * (b.c1 + c.c1)) =
      (a.c0 * b.c0 + Fp6.v * (a.c1 * b.c1)) + (a.c0 * c.c0 + Fp6.v * (a.c1 * c.c1))
    ring
  · show a.c0 * (b.c1 + c.c1) + a.c1 * (b.c0 + c.c0) =
      (a.c0 * b.c1 + a.c1 * b.c0) + (a.c0 * c.c1 + a.c1 * c.c0)
    ring

theorem add_assoc (a b c : Fp12) : (a.add b).add c = a.add (b.add c) := by
  ext1 <;> exact Fp6.add_assoc _ _ _

theorem zero_add (a : Fp12) : zero.add a = a := by
  ext1 <;> exact Fp6.zero_add _

theorem neg_add (a : Fp12) : a.neg.add a = zero := by
  ext1 <;> exact Fp6.neg_add _

/-- Fp12 as a commutative ring, for `ring` and the lemmas on powers. -/
@[reducible] def commRing : CommRing Fp12 :=
  @CommRing.ofMinimalAxioms Fp12 ⟨add⟩ ⟨mul⟩ ⟨neg⟩ ⟨zero⟩ ⟨one⟩ add_assoc zero_add neg_add mul_assoc
    mul_comm one_mul mul_add

theorem mul_zero (a : Fp12) : a.mul zero = zero := by
  let _ := commRing
  show a * 0 = 0
  ring

theorem zero_mul (a : Fp12) : zero.mul a = zero := by rw [mul_comm, mul_zero]

/-! ### Conjugate and inverse -/

/-- The conjugation is multiplicative (44_fp12.md R271). -/
theorem conj_mul (a b : Fp12) : (a.mul b).conj = a.conj.mul b.conj := by
  let _ := Fp6.commRing
  ext1 <;> simp only [mul, conj, Fp6.mulV_eq]
  · show a.c0 * b.c0 + Fp6.v * (a.c1 * b.c1) = a.c0 * b.c0 + Fp6.v * (-a.c1 * -b.c1)
    ring
  · show -(a.c0 * b.c1 + a.c1 * b.c0) = a.c0 * -b.c1 + -a.c1 * b.c0
    ring

theorem conj_conj (a : Fp12) : a.conj.conj = a := by
  let _ := Fp6.commRing
  ext1 <;> simp only [conj]
  show - -a.c1 = a.c1
  ring

theorem conj_one : one.conj = one := by
  let _ := Fp6.commRing
  ext1 <;> simp only [conj, one]
  show -(0 : Fp6) = 0
  ring

/-- The norm of Fp12 to Fp6. -/
def norm (a : Fp12) : Fp6 := (a.c0.mul a.c0).sub (a.c1.mul a.c1).mulV

theorem mul_conj (a : Fp12) : a.mul a.conj = ⟨a.norm, .zero⟩ := by
  let _ := Fp6.commRing
  ext1 <;> simp only [mul, conj, norm, Fp6.mulV_eq, Fp6.sub_eq]
  · show a.c0 * a.c0 + Fp6.v * (a.c1 * -a.c1) = a.c0 * a.c0 + -(Fp6.v * (a.c1 * a.c1))
    ring
  · show a.c0 * -a.c1 + a.c1 * a.c0 = 0
    ring

theorem inv_eq (a : Fp12) : a.inv = a.conj.mul ⟨a.norm.inv, .zero⟩ := by
  let _ := Fp6.commRing
  unfold inv
  rw [← norm]
  generalize a.norm.inv = i
  ext1 <;> simp only [mul, conj, Fp6.mul_zero, Fp6.mulV_eq]
  · show a.c0 * i = a.c0 * i + 0
    ring
  · show -(a.c1 * i) = 0 + -a.c1 * i
    ring

/-- v is not a square in Fp6, so the norm is 0 only of 0. -/
theorem norm_eq_zero {a : Fp12} (h : a.norm = .zero) : a = zero := by
  let _ := Fp6.commRing
  have h1 : a.c0 * a.c0 = Fp6.v * (a.c1 * a.c1) := by
    rw [norm, Fp6.sub_eq, Fp6.mulV_eq] at h
    have : a.c0 * a.c0 + -(Fp6.v * (a.c1 * a.c1)) = 0 := h
    linear_combination this
  by_cases hz : a.c1 = Fp6.zero
  · have : a.c0.mul a.c0 = .zero := by
      show a.c0 * a.c0 = 0
      rw [h1]
      have : a.c1 = 0 := hz
      rw [this]; ring
    rcases Fp6.mul_eq_zero this with e | e <;> (ext1 <;> simp [zero, e, hz])
  · exfalso
    have hi : a.c1 * a.c1.inv = 1 := Fp6.mul_inv hz
    refine Fp6.v_not_square (a.c0.mul a.c1.inv) ?_
    show (a.c0 * a.c1.inv) * (a.c0 * a.c1.inv) = Fp6.v
    set i := a.c1.inv
    linear_combination (i * i) * h1 + Fp6.v * (a.c1 * i + 1) * hi

/-- The inverse inverts (44_fp12.md R270). -/
theorem mul_inv {a : Fp12} (h : a ≠ zero) : a.mul a.inv = one := by
  have hn : a.norm ≠ .zero := fun e => h (norm_eq_zero e)
  rw [inv_eq, ← mul_assoc, mul_conj]
  let _ := Fp6.commRing
  ext1 <;> simp only [mul, one, Fp6.mul_zero, Fp6.zero_mul, Fp6.mul_inv hn, Fp6.mulV_eq]
  · show (1 : Fp6) + 0 = 1
    ring
  · show (0 : Fp6) + 0 = 0
    ring

theorem inv_zero : zero.inv = zero := by
  rw [inv_eq]
  have : zero.conj = zero := by
    let _ := Fp6.commRing
    ext1 <;> simp only [conj, zero]
    show -(0 : Fp6) = 0
    ring
  rw [this, zero_mul]

/-! ### Powers -/

theorem npow_add (a : Fp12) (m n : Nat) : a.npow (m + n) = (a.npow m).mul (a.npow n) := by
  induction n with
  | zero => exact (mul_one _).symm
  | succ n ih => rw [← Nat.add_assoc, npow, ih, npow, mul_assoc]

theorem npow_mul (a : Fp12) (m n : Nat) : a.npow (m * n) = (a.npow m).npow n := by
  induction n with
  | zero => rfl
  | succ n ih => rw [Nat.mul_succ, npow_add, ih, npow]

theorem mul_npow (a b : Fp12) (n : Nat) : (a.mul b).npow n = (a.npow n).mul (b.npow n) := by
  let _ := commRing
  induction n with
  | zero => exact (mul_one _).symm
  | succ n ih =>
    rw [npow, ih, npow, npow]
    show (a.npow n * b.npow n) * (a * b) = (a.npow n * a) * (b.npow n * b)
    ring

theorem one_npow (n : Nat) : one.npow n = one := by
  induction n with
  | zero => rfl
  | succ n ih => rw [npow, ih, mul_one]

theorem zero_npow {n : Nat} (h : n ≠ 0) : zero.npow n = zero := by
  cases n with
  | zero => exact absurd rfl h
  | succ n => rw [npow, mul_zero]

/-- Square-and-multiply gives the power (44_fp12.md R273). -/
theorem pow_eq (a : Fp12) (k n : Nat) : a.pow n k = a.npow (k % 2 ^ n) := by
  have := ladder_pw (double := sqr) (add := fun r => r.mul a) (pw := a.npow)
    (fun m => by rw [Nat.two_mul, npow_add]; rfl) (fun m => rfl) k n 0
  simpa [pow, npow] using this

/-- FE(f) is the power with the exponent (p¹² − 1)/q (47_pairing.md R368). -/
theorem finalExp_eq (f : Fp12) : finalExp f = f.npow finalExponent := by
  rw [finalExp, pow_eq, Nat.mod_eq_of_lt Nat.lt_log2_self]

/-- FE is multiplicative (47_pairing.md R369). -/
theorem finalExp_mul (a b : Fp12) : finalExp (a.mul b) = (finalExp a).mul (finalExp b) := by
  simp only [finalExp_eq, mul_npow]

end Fp12
end Sys2Proof.Machine
end

