-- ==== Sys2Proof/Laws/Frobenius.lean ====
section
/-! SUPPORT. The Frobenius maps of 43_fp6.md R241 and 44_fp12.md R272 are the p^k-power maps. -/

namespace Sys2Proof.Machine

set_option Elab.async false

theorem charP_fp2 : CharP Fp2 P :=
  charP_of_injective_ringHom (f := algebraMap Fp Fp2) (fun _ _ h => congrArg QuadraticAlgebra.re h) P

/-- x + y·u to the p is the conjugate, since p ≡ 3 (mod 4). -/
theorem fp2_pow_p (x : Fp2) : x ^ P = ⟨x.re, -x.im⟩ := by
  have := fact_p
  have := charP_fp2
  have hx : x = algebraMap Fp Fp2 x.re + algebraMap Fp Fp2 x.im * ⟨0, 1⟩ := by
    ext <;> simp [QuadraticAlgebra.algebraMap_eq]
  have hu : (⟨0, 1⟩ : Fp2) ^ P = -⟨0, 1⟩ := by
    have e : P = 4 * ((P - 3) / 4) + 3 := by decide +kernel
    have h4 : (⟨0, 1⟩ : Fp2) ^ 4 = 1 := by
      ext <;> simp only [pow_succ, QuadraticAlgebra.re_one, QuadraticAlgebra.im_one] <;> simp
    calc (⟨0, 1⟩ : Fp2) ^ P = ⟨0, 1⟩ ^ (4 * ((P - 3) / 4) + 3) := congrArg _ e
      _ = -⟨0, 1⟩ := by
        rw [pow_add, pow_mul, h4, one_pow]
        ext <;> simp [pow_succ]
  conv_lhs => rw [hx]
  rw [add_pow_char, mul_pow, hu, ← map_pow, ← map_pow, ZMod.pow_card, ZMod.pow_card]
  ext <;> simp [QuadraticAlgebra.algebraMap_eq]

/-- π^k on Fp2 (43_fp6.md R241). -/
theorem conjOdd_eq (k : Nat) (x : Fp2) : conjOdd k x = x ^ P ^ k := by
  induction k with
  | zero => simp [conjOdd]
  | succ k ih =>
    rw [pow_succ, pow_mul, ← ih, fp2_pow_p]
    unfold conjOdd
    rcases Nat.mod_two_eq_zero_or_one k with h | h
    · rw [if_pos (by omega), if_neg (by omega)]
    · rw [if_neg (by omega), if_pos (by omega)]
      ext <;> simp

theorem six_dvd (k : Nat) : 6 ∣ P ^ k - 1 := by
  have h : P % 6 = 1 := by decide +kernel
  have : P ^ k % 6 = 1 := by rw [Nat.pow_mod, h, one_pow, Nat.mod_eq_of_lt (by decide)]
  omega

namespace Fp12

/-- Fp2 inside Fp12. -/
def ofFp2 (x : Fp2) : Fp12 := ⟨⟨x, 0, 0⟩, .zero⟩

/-- w. -/
def w : Fp12 := ⟨.zero, .one⟩

theorem ofFp2_mul (x y : Fp2) : ofFp2 (x * y) = (ofFp2 x).mul (ofFp2 y) := by
  ext1 <;> ext1 <;> simp [ofFp2, mul, Fp6.mul, Fp6.add, Fp6.mulV, Fp6.zero, mulXi_eq]

theorem ofFp2_add (x y : Fp2) : ofFp2 (x + y) = (ofFp2 x).add (ofFp2 y) := by
  ext1 <;> ext1 <;> simp [ofFp2, add, Fp6.add, Fp6.zero]

theorem ofFp2_npow (x : Fp2) (n : Nat) : (ofFp2 x).npow n = ofFp2 (x ^ n) := by
  induction n with
  | zero => rw [pow_zero]; rfl
  | succ n ih => rw [npow, ih, pow_succ, ofFp2_mul]

/-- Fp2 inside Fp12 as a ring homomorphism. -/
def hom : @RingHom Fp2 Fp12 _ (commRing.toSemiring.toNonAssocSemiring) :=
  let _ := commRing
  { toFun := ofFp2
    map_one' := rfl
    map_mul' := ofFp2_mul
    map_zero' := rfl
    map_add' := ofFp2_add }

theorem npow_eq_pow (a : Fp12) (n : Nat) : a.npow n = @HPow.hPow _ _ _ (@instHPow _ _ commRing.toMonoid.toPow) a n := by
  let _ := commRing
  show a.npow n = a ^ n
  induction n with
  | zero => exact (pow_zero a).symm
  | succ n ih => rw [npow, ih]; exact (pow_succ a n).symm

/-- Raising to p^k is additive. -/
theorem add_npow (a b : Fp12) (k : Nat) :
    (a.add b).npow (P ^ k) = (a.npow (P ^ k)).add (b.npow (P ^ k)) := by
  have := fact_p
  have := charP_fp2
  let _ := commRing
  have : CharP Fp12 P := charP_of_injective_ringHom (f := hom)
    (fun x y h => congrArg (fun a : Fp12 => a.c0.c0) h) P
  rw [npow_eq_pow, npow_eq_pow, npow_eq_pow]
  exact add_pow_char_pow a b P k

theorem w_six : w.npow 6 = ofFp2 xi := by
  ext1 <;> ext1 <;>
    simp [npow, w, ofFp2, one, mul, Fp6.mul, Fp6.add, Fp6.mulV, Fp6.zero, Fp6.one, mulXi_eq]

/-- w to the p^k (44_fp12.md R272). -/
theorem w_npow (k : Nat) : w.npow (P ^ k) = (ofFp2 (xi ^ ((P ^ k - 1) / 6))).mul w := by
  have h := six_dvd k
  have h0 : 0 < P ^ k := Nat.pow_pos p_pos
  have e : P ^ k = 6 * ((P ^ k - 1) / 6) + 1 := by omega
  calc w.npow (P ^ k) = w.npow (6 * ((P ^ k - 1) / 6) + 1) := congrArg _ e
    _ = _ := by
      rw [npow, npow_mul, w_six, ofFp2_npow]

/-- An element by its six positions, as a polynomial in w. -/
def poly (x0 x1 x2 x3 x4 x5 : Fp2) (w : Fp12) : Fp12 :=
  (((ofFp2 x0).add ((ofFp2 x1).mul (w.mul w))).add ((ofFp2 x2).mul ((w.mul w).mul (w.mul w)))).add
    ((((ofFp2 x3).add ((ofFp2 x4).mul (w.mul w))).add ((ofFp2 x5).mul ((w.mul w).mul (w.mul w)))).mul w)

theorem eq_poly (x0 x1 x2 x3 x4 x5 g : Fp2) :
    poly x0 x1 x2 x3 x4 x5 ((ofFp2 g).mul w) =
      ⟨⟨x0, x1 * (g * g), x2 * (g * g * (g * g))⟩, ⟨x3 * g, x4 * (g * g) * g, x5 * (g * g * (g * g)) * g⟩⟩ := by
  ext1 <;> ext1 <;>
    simp [poly, w, ofFp2, add, mul, Fp6.mul, Fp6.add, Fp6.mulV, Fp6.zero, Fp6.one, mulXi_eq]

/-- FROB of Fp12 is the p^k-power map (44_fp12.md R272). -/
theorem frob_eq (a : Fp12) (k : Nat) : a.frob k = a.npow (P ^ k) := by
  have h1 := eq_poly a.c0.c0 a.c0.c1 a.c0.c2 a.c1.c0 a.c1.c1 a.c1.c2 1
  have h2 : (ofFp2 1).mul w = w := one_mul w
  rw [h2] at h1
  have ha : a = poly a.c0.c0 a.c0.c1 a.c0.c2 a.c1.c0 a.c1.c1 a.c1.c2 w := by
    rw [h1]; ext1 <;> ext1 <;> simp
  conv_rhs => rw [ha]
  simp only [poly, add_npow, mul_npow, ofFp2_npow, w_npow]
  rw [← poly, eq_poly]
  have h := six_dvd k
  set g := xi ^ ((P ^ k - 1) / 6)
  have g1 : powAll xi ((P ^ k - 1) / 3) = g * g := by
    rw [powAll_eq, ← pow_add]; congr 1; omega
  have g2 : powAll xi (2 * (P ^ k - 1) / 3) = g * g * (g * g) := by
    rw [powAll_eq, ← pow_add, ← pow_add]; congr 1; omega
  simp only [frob, frob6, Fp6.scale2, g1, g2, conjOdd_eq]
  rw [powAll_eq]

theorem ofFp6_npow (a : Fp6) (n : Nat) : npow ⟨a, .zero⟩ n = ⟨a.npow n, .zero⟩ := by
  induction n with
  | zero => rfl
  | succ n ih =>
    rw [npow, ih, Fp6.npow]
    let _ := Fp6.commRing
    ext1 <;> simp only [mul, Fp6.mul_zero, Fp6.zero_mul, Fp6.mulV_eq]
    · show a.npow n * a + 0 = a.npow n * a
      ring
    · show (0 : Fp6) + 0 = 0
      ring

end Fp12

/-- FROB of Fp6 is the p^k-power map (43_fp6.md R241). -/
theorem frob6_eq (a : Fp6) (k : Nat) : frob6 a k = a.npow (P ^ k) := by
  have h := Fp12.frob_eq ⟨a, .zero⟩ k
  rw [Fp12.ofFp6_npow] at h
  exact congrArg Fp12.c0 h

end Sys2Proof.Machine
end

