-- ==== Sys2Proof/Laws/Cyclotomic.lean ====
section
/-! SUPPORT. The Granger-Scott square of 44_fp12.md R267 is the square on the cyclotomic subgroup, and
the conjugate is the p⁶-power map (44_fp12.md R271). -/

namespace Sys2Proof.Machine

set_option Elab.async false
namespace Fp12

/-- The Frobenius-of-w constant of p². -/
def zeta : Fp2 := powAll xi ((P ^ 2 - 1) / 6)

/-- A sixth root of one in Fp. -/
def zetaFp : Fp := powAll 2 ((P - 1) / 6)

theorem zetaFp_sq : zetaFp * zetaFp = zetaFp - 1 := by decide +kernel

theorem zeta_exponent : (P ^ 2 - 1) / 6 = (P + 1) * ((P - 1) / 6) := by decide +kernel

theorem xi_norm : xi ^ (P + 1) = algebraMap Fp Fp2 2 := by
  rw [pow_succ, fp2_pow_p]
  ext <;> simp [xi, QuadraticAlgebra.algebraMap_eq]
  norm_num

theorem zetaFp_eq : zetaFp = 2 ^ ((P - 1) / 6) := powAll_eq _ _

theorem zeta_eq_pow : zeta = xi ^ ((P ^ 2 - 1) / 6) := powAll_eq _ _

theorem zeta_eq : zeta = algebraMap Fp Fp2 zetaFp := by
  rw [zeta_eq_pow, zetaFp_eq, zeta_exponent, pow_mul, xi_norm, map_pow]

/-- It is a primitive sixth root of one. -/
theorem zeta_sq : zeta * zeta = zeta - 1 := by
  rw [zeta_eq, ← map_mul, zetaFp_sq, map_sub, map_one]

/-- FROB by its three constants. -/
theorem frob_of (a : Fp12) {k : Nat} {g g1 g2 : Fp2} (h1 : powAll xi ((P ^ k - 1) / 3) = g1)
    (h2 : powAll xi (2 * (P ^ k - 1) / 3) = g2) (h : powAll xi ((P ^ k - 1) / 6) = g) :
    a.frob k =
      ⟨⟨conjOdd k a.c0.c0, conjOdd k a.c0.c1 * g1, conjOdd k a.c0.c2 * g2⟩,
       ⟨conjOdd k a.c1.c0 * g, conjOdd k a.c1.c1 * g1 * g, conjOdd k a.c1.c2 * g2 * g⟩⟩ := by
  subst h1 h2 h; rfl

theorem conjOdd_even {k : Nat} (h : k % 2 = 0) (x : Fp2) : conjOdd k x = x := if_neg (by omega)

theorem exponent_third : (P ^ 2 - 1) / 3 = (P ^ 2 - 1) / 6 + (P ^ 2 - 1) / 6 := by
  have h := six_dvd 2
  omega

theorem exponent_two_thirds : 2 * (P ^ 2 - 1) / 3 =
    (P ^ 2 - 1) / 6 + (P ^ 2 - 1) / 6 + ((P ^ 2 - 1) / 6 + (P ^ 2 - 1) / 6) := by
  have h := six_dvd 2
  omega

theorem frob_two_g1 : powAll xi ((P ^ 2 - 1) / 3) = zeta - 1 := by
  rw [powAll_eq, exponent_third, pow_add, ← zeta_eq_pow, zeta_sq]

theorem frob_two_g2 : powAll xi (2 * (P ^ 2 - 1) / 3) = -zeta := by
  rw [powAll_eq, exponent_two_thirds, pow_add, pow_add, ← zeta_eq_pow]
  linear_combination (zeta * zeta + zeta) * zeta_sq

theorem frob_two_g : powAll xi ((P ^ 2 - 1) / 6) = zeta := by rw [zeta]

theorem frob_two_of (a : Fp12) {z : Fp2} (h2 : z * z = z - 1) :
    (⟨⟨conjOdd 2 a.c0.c0, conjOdd 2 a.c0.c1 * (z - 1), conjOdd 2 a.c0.c2 * -z⟩,
      ⟨conjOdd 2 a.c1.c0 * z, conjOdd 2 a.c1.c1 * (z - 1) * z, conjOdd 2 a.c1.c2 * -z * z⟩⟩ : Fp12) =
    ⟨⟨a.c0.c0, a.c0.c1 * (z - 1), a.c0.c2 * -z⟩,
     ⟨a.c1.c0 * z, a.c1.c1 * -1, a.c1.c2 * (1 - z)⟩⟩ := by
  simp only [conjOdd_even (k := 2) rfl]
  ext1 <;> ext1 <;> simp only
  · linear_combination a.c1.c1 * h2
  · linear_combination -a.c1.c2 * h2

theorem frob_two (a : Fp12) : a.frob 2 =
    ⟨⟨a.c0.c0, a.c0.c1 * (zeta - 1), a.c0.c2 * -zeta⟩,
     ⟨a.c1.c0 * zeta, a.c1.c1 * -1, a.c1.c2 * (1 - zeta)⟩⟩ :=
  (frob_of a frob_two_g1 frob_two_g2 frob_two_g).trans (frob_two_of a zeta_sq)

theorem frob_four (a : Fp12) : a.frob 4 = (a.frob 2).frob 2 := by
  rw [frob_eq, frob_eq, frob_eq, ← npow_mul, ← pow_add]

theorem cancel_zeta {e : Fp2} (h : zeta * e = 0) : e = 0 := by
  linear_combination (1 - zeta) * h + e * zeta_sq

theorem cancel_zeta2 {e : Fp2} (h : (zeta - 1) * e = 0) : e = 0 := by
  linear_combination -zeta * h + e * zeta_sq

/-- On the cyclotomic subgroup the Granger-Scott square is the square (44_fp12.md R267). -/
theorem cycSqr_eq {a : Fp12} (h : (a.frob 4).mul a = a.frob 2) : a.cycSqr = a.sqr := by
  rw [frob_four, frob_two, frob_two] at h
  have h2 := zeta_sq
  have h00 := congrArg (fun a : Fp12 => a.c0.c0) h
  have h01 := congrArg (fun a : Fp12 => a.c0.c1) h
  have h02 := congrArg (fun a : Fp12 => a.c0.c2) h
  have h10 := congrArg (fun a : Fp12 => a.c1.c0) h
  have h11 := congrArg (fun a : Fp12 => a.c1.c1) h
  have h12 := congrArg (fun a : Fp12 => a.c1.c2) h
  clear h
  obtain ⟨⟨x0, x2, x4⟩, ⟨x1, x3, x5⟩⟩ := a
  simp only [mul, Fp6.mul, Fp6.add, Fp6.mulV, mulXi_eq] at h00 h01 h02 h10 h11 h12
  have c1 : ∀ e, zeta * e = 0 → e = 0 := fun _ => cancel_zeta
  have c2 : ∀ e, (zeta - 1) * e = 0 → e = 0 := fun _ => cancel_zeta2
  generalize zeta = z at h00 h01 h02 h10 h11 h12 h2 c1 c2
  have e0 : x0 * x0 + xi * x3 * x3 - xi * x1 * x5 - xi * x2 * x4 - x0 = 0 := by
    linear_combination h00 - 2 * xi * (x2 * x4 + x1 * x5) * h2
  have e2 : x1 * x1 + xi * x4 * x4 - x0 * x2 - xi * x3 * x5 - x2 = 0 := c2 _ (by
    linear_combination h01 - (x0 * x2 + xi * x4 * x4 + x1 * x1 + xi * x3 * x5) * h2)
  have e4 : x2 * x2 + xi * x5 * x5 - x0 * x4 - x1 * x3 - x4 = 0 := c1 _ (by
    linear_combination (x0 * x4 + x2 * x2 + x1 * x3 + xi * x5 * x5) * h2 - h02)
  have e1 : x0 * x1 + xi * x3 * x4 - 2 * xi * x2 * x5 - x1 = 0 := c1 _ (by
    linear_combination h10 - (x0 * x1 + 2 * xi * x2 * x5 + xi * x3 * x4) * h2)
  have e3 : x1 * x2 + xi * x4 * x5 - 2 * x0 * x3 - x3 = 0 := by
    linear_combination 2 * (x1 * x2 + xi * x4 * x5) * h2 - h11
  have e5 : x0 * x5 + x2 * x3 - 2 * x1 * x4 - x5 = 0 := c2 _ (by
    linear_combination (x0 * x5 + 2 * x1 * x4 + x2 * x3) * h2 - h12)
  ext1 <;> ext1 <;> simp only [cycSqr, sq4, sqr, mul, Fp6.mul, Fp6.add, Fp6.mulV, mulXi_eq]
  · linear_combination 2 * e0
  · linear_combination 2 * e2
  · linear_combination 2 * e4
  · linear_combination -2 * e1
  · linear_combination -2 * e3
  · linear_combination -2 * e5

/-- The conjugate is the p⁶-power map (44_fp12.md R271). -/
theorem conj_eq (a : Fp12) : a.conj = a.npow (P ^ 6) := by
  rw [← frob_eq]
  have g : xi ^ ((P ^ 6 - 1) / 6) = -1 := by
    have e : (P ^ 6 - 1) / 6 = (P ^ 2 - 1) / 6 * (P ^ 4 + P ^ 2 + 1) := by decide +kernel
    have hz := zeta_eq_pow.symm
    have h4 : zeta ^ P ^ 4 = zeta := by rw [← conjOdd_eq]; exact if_neg (by decide)
    have h2 : zeta ^ P ^ 2 = zeta := by rw [← conjOdd_eq]; exact if_neg (by decide)
    rw [e, pow_mul, hz, pow_add, pow_add, h4, h2, pow_one]
    linear_combination (zeta + 1) * zeta_sq
  have h := six_dvd 6
  have g1 : powAll xi ((P ^ 6 - 1) / 3) = 1 := by
    have e : (P ^ 6 - 1) / 3 = (P ^ 6 - 1) / 6 * 2 := by omega
    rw [powAll_eq, e, pow_mul, g]; ring
  have g2 : powAll xi (2 * (P ^ 6 - 1) / 3) = 1 := by
    have e : 2 * (P ^ 6 - 1) / 3 = (P ^ 6 - 1) / 6 * 4 := by omega
    rw [powAll_eq, e, pow_mul, g]; ring
  rw [← powAll_eq] at g
  rw [frob_of a g1 g2 g]
  simp only [conjOdd_even (k := 6) rfl]
  ext1 <;> ext1 <;> simp only [conj, Fp6.neg] <;> ring

end Fp12
end Sys2Proof.Machine
end

