-- ==== Sys2Proof/Laws/Decode.lean ====
section
/-! SUPPORT. The laws of the command word: packing and unpacking fields are inverse, which opcodes have
a row, when a word decodes and to what. -/

namespace Sys2Proof

open Machine

/-! ### Fields of a word -/

theorem fieldsOf_packFields (f : Fields) : fieldsOf (packFields f) = f := by
  have h : ∀ (a b : Fields), a.op = b.op → a.d = b.d → a.a = b.a → a.b = b.b → a.c = b.c → a.e = b.e →
      a.f = b.f → a.chk = b.chk → a.rsv = b.rsv → a = b := by
    intro a b; cases a; cases b; simp_all
  refine h _ _ ?_ ?_ ?_ ?_ ?_ ?_ ?_ ?_ ?_ <;> simp only [fieldsOf, packFields]
  case refine_8 => simp only [BitVec.getLsbD_append]; simp
  all_goals
    apply BitVec.eq_of_getLsbD_eq
    intro i hi
    simp only [BitVec.getLsbD_extractLsb', BitVec.getLsbD_append]
    interval_cases i <;> simp

theorem packFields_fieldsOf (w : Word) : packFields (fieldsOf w) = w := by
  apply BitVec.eq_of_getLsbD_eq
  intro i hi
  simp only [fieldsOf, packFields, BitVec.getLsbD_extractLsb', BitVec.getLsbD_append]
  interval_cases i <;> simp

/-! ### The opcode table -/

/-- A row is found exactly for the opcodes that are not illegal (30_encoding.md R107). -/
theorem rowOf_isNone_iff (op : BitVec 8) : (rowOf op).isNone = true ↔ IllegalOpcode op := by
  unfold IllegalOpcode
  revert op
  decide +kernel

theorem rowOf_eq_none_iff {op : BitVec 8} : rowOf op = none ↔ IllegalOpcode op := by
  rw [← rowOf_isNone_iff, Option.isNone_iff_eq_none]

theorem mem_of_rowOf {op : BitVec 8} {r : OpRow} (h : rowOf op = some r) : r ∈ opTable ∧ r.op = op :=
  ⟨List.mem_of_find?_eq_some h, by simpa using List.find?_some h⟩

/-- The fields an opcode uses, the others 0. -/
def maskFields (u : FieldUse) (f : Fields) : Fields where
  op := f.op
  d := if u.d then f.d else 0#8
  a := if u.a then f.a else 0#8
  b := if u.b then f.b else 0#8
  c := if u.c then f.c else 0#8
  e := if u.e then f.e else 0#8
  f := if u.f then f.f else 0#8
  chk := u.chk && f.chk

/-- The command a row builds has the fields the row uses. -/
theorem fields_build : ∀ r ∈ opTable, ∀ f : Fields, f.op = r.op → (r.build f).fields = maskFields r.uses f := by
  simp only [opTable, dataRows, fpRows, fp2Rows, fp6Rows, fp12Rows, g1Rows, g2Rows, pairingRows,
    List.cons_append, List.nil_append, List.forall_mem_cons]
  repeat' apply And.intro
  all_goals first
    | (intro f h
       obtain ⟨op, d, a, b, c, e, f, chk, rsv⟩ := f
       subst h
       cases chk <;> rfl)
    | exact fun _ h => absurd h (by simp)

/-- No reserved or unused field is nonzero. -/
theorem reservedField_none_iff {u : FieldUse} {f : Fields} : reservedField u f = none ↔
    f.rsv = 0#7 ∧ (f.chk = true → u.chk = true) ∧ (u.d = false → f.d = 0#8) ∧ (u.a = false → f.a = 0#8) ∧
      (u.b = false → f.b = 0#8) ∧ (u.c = false → f.c = 0#8) ∧ (u.e = false → f.e = 0#8) ∧
      (u.f = false → f.f = 0#8) := by
  have key : ∀ {c : Prop} [Decidable c] {y : FieldName} {t : Option FieldName},
      (if c then some y else t) = none ↔ ¬c ∧ t = none := by
    intro c _ y t
    split <;> simp [*]
  simp only [reservedField, key, and_true]
  simp

theorem maskFields_of_none {u : FieldUse} {f : Fields} (h : reservedField u f = none) : maskFields u f = f := by
  obtain ⟨h0, h1, h2, h3, h4, h5, h6, h7⟩ := reservedField_none_iff.1 h
  obtain ⟨ud, ua, ub, uc, ue, uf, uk⟩ := u
  obtain ⟨op, d, a, b, c, e, f, chk, rsv⟩ := f
  simp only [maskFields, Fields.mk.injEq] at *
  refine ⟨trivial, ?_, ?_, ?_, ?_, ?_, ?_, ?_, h0.symm⟩
  · cases ud <;> simp_all
  · cases ua <;> simp_all
  · cases ub <;> simp_all
  · cases uc <;> simp_all
  · cases ue <;> simp_all
  · cases uf <;> simp_all
  · cases chk <;> simp_all

/-! ### Decoding -/

/-- When a word is a command. -/
theorem decode_ok_iff {w : Word} {i : Instr} : decode w = .ok i ↔
    ∃ r, rowOf (w.extractLsb' 0 8) = some r ∧ reservedField r.uses (fieldsOf w) = none ∧
      i = r.build (fieldsOf w) := by
  show (match rowOf (w.extractLsb' 0 8) with
    | none => Except.error DecodeError.illegalOpcode
    | some r => _) = _ ↔ _
  cases hr : rowOf (w.extractLsb' 0 8) with
  | none => simp
  | some r =>
    simp only [Option.some.injEq, exists_eq_left']
    cases hf : reservedField r.uses (fieldsOf w) with
    | some fld => simp
    | none => simp [eq_comm]

theorem decode_illegal_iff {w : Word} : decode w = .error .illegalOpcode ↔ IllegalOpcode (w.extractLsb' 0 8) := by
  rw [← rowOf_eq_none_iff]
  show (match rowOf (w.extractLsb' 0 8) with
    | none => Except.error DecodeError.illegalOpcode
    | some r => _) = _ ↔ _
  cases hr : rowOf (w.extractLsb' 0 8) with
  | none => simp
  | some r =>
    simp only
    cases hf : reservedField r.uses (fieldsOf w) with
    | some fld => simp
    | none => simp

theorem decode_reserved {w : Word} {r : OpRow} {fld : FieldName} (hr : rowOf (w.extractLsb' 0 8) = some r)
    (h : reservedField r.uses (fieldsOf w) = some fld) : decode w = .error (.reservedField fld) := by
  show (match rowOf (w.extractLsb' 0 8) with
    | none => Except.error DecodeError.illegalOpcode
    | some r => _) = _
  rw [hr]
  simp only [h]

/-- CHK is used by MILLER and PAIR only (30_encoding.md R104). -/
theorem uses_chk : ∀ r ∈ opTable, r.uses.chk = true ↔ r.op = 0x72#8 ∨ r.op = 0x74#8 := by
  decide +kernel

/-- The unused-field check as a search in the order of R403.3. -/
theorem reserved_fields {u : FieldUse} {w : Word} (h0 : w.extractLsb' 57 7 = 0#7)
    (h1 : w.getLsbD 56 = true → u.chk = true) :
    reservedField u (fieldsOf w) =
      checkedFields.find? (fun y => !(usesField u y || decide (fieldByte w y = 0#8))) := by
  have hf : ∃ f, fieldsOf w = f := ⟨_, rfl⟩
  obtain ⟨f, hf⟩ := hf
  have e1 : ∀ y, fieldByte w y = match y with
      | .d => f.d | .a => f.a | .b => f.b | .c => f.c | .e => f.e | .f => f.f | .none => 0#8 | .x => 0#8 := by
    intro y; subst hf; cases y <;> rfl
  have e2 : f.rsv = 0#7 := by subst hf; exact h0
  have e3 : f.chk = true → u.chk = true := by subst hf; exact h1
  rw [hf]
  simp only [e1]
  clear e1 hf h0 h1
  obtain ⟨ud, ua, ub, uc, ue, uf, uk⟩ := u
  obtain ⟨op, d, a, b, c, e, f, chk, rsv⟩ := f
  simp only at e2 e3
  unfold reservedField
  rw [if_neg (by simpa using e2), if_neg (by cases chk <;> simp_all)]
  simp only [checkedFields, List.find?_cons, List.find?_nil, usesField]
  have eq : ∀ (b : Bool) (x : BitVec 8), (!(b || decide (x = 0#8))) = (!b && decide (x ≠ 0#8)) := by
    intro b x; cases b <;> simp
  simp only [eq]
  generalize (!ud && decide (d ≠ 0#8)) = x1
  generalize (!ua && decide (a ≠ 0#8)) = x2
  generalize (!ub && decide (b ≠ 0#8)) = x3
  generalize (!uc && decide (c ≠ 0#8)) = x4
  generalize (!ue && decide (e ≠ 0#8)) = x5
  generalize (!uf && decide (f ≠ 0#8)) = x6
  cases x1 <;> cases x2 <;> cases x3 <;> cases x4 <;> cases x5 <;> cases x6 <;> rfl

end Sys2Proof
end

