-- ==== Sys2Proof/Laws/Points.lean ====
section
/-! SUPPORT. The point procedures compute what the relations of Safety.lean say, and nothing else does. -/

namespace Sys2Proof.Machine

section Points

variable {F : Type} [CommRing F] [DecidableEq F]

omit [DecidableEq F] in
theorem infinity_eq : (infinity : Jac F) = inf := rfl

theorem isDouble_iff {p r : Jac F} : IsDouble p r ↔ r = dblPt p := by
  unfold IsDouble dblPt
  by_cases hz : p.z = 0
  · simp [hz, infinity_eq]
  · simp only [hz, false_or, if_false]
    by_cases h2 : 2 * p.y * p.z = 0
    · simp [h2, infinity_eq]
    · simp only [h2, if_false, IsEmpty.forall_iff, true_and, not_false_iff, forall_const, ne_eq]
      constructor
      · intro h
        obtain ⟨hx, hy, hz'⟩ := h hz
        rw [hx] at hy
        ext
        · rw [hx]; ring
        · rw [hy]; ring
        · exact hz'
      · rintro rfl _
        refine ⟨?_, ?_, rfl⟩ <;> simp only <;> ring

theorem isSum_iff {p q r : Jac F} : IsSum p q r ↔ r = addPt p q := by
  unfold IsSum addPt
  by_cases h1 : p.z = 0
  · by_cases h2 : q.z = 0
    · simp [h1, h2, infinity_eq]
    · simp [h1, h2]
  · by_cases h2 : q.z = 0
    · simp [h1, h2]
    · have eh : q.x * p.z ^ 2 - p.x * q.z ^ 2 = q.x * (p.z * p.z) - p.x * (q.z * q.z) := by ring
      have ed : q.y * p.z ^ 3 - p.y * q.z ^ 3 =
          q.y * (p.z * (p.z * p.z)) - p.y * (q.z * (q.z * q.z)) := by ring
      simp only [h1, h2, if_false, IsEmpty.forall_iff, true_and, not_false_iff, forall_const, ne_eq,
        eh, ed]
      by_cases hh : q.x * (p.z * p.z) - p.x * (q.z * q.z) = 0
      · by_cases hd : q.y * (p.z * (p.z * p.z)) - p.y * (q.z * (q.z * q.z)) = 0
        · simp [hh, hd, isDouble_iff]
        · simp [hh, hd, infinity_eq]
      · simp only [hh, if_false, IsEmpty.forall_iff, true_and, not_false_iff, forall_const]
        constructor
        · rintro ⟨hx, hy, hz'⟩
          rw [hx] at hy
          ext
          · rw [hx]; ring
          · rw [hy]; ring
          · exact hz'
        · rintro rfl
          refine ⟨?_, ?_, rfl⟩ <;> simp only <;> ring

theorem isAffine_iff {inv : F → F} (hi : ∀ z, z ≠ 0 → z * inv z = 1) {p r : Jac F} :
    IsAffine p r ↔ r = affPt inv p := by
  unfold IsAffine affPt
  by_cases hz : p.z = 0
  · simp [hz]
  · have h1 := hi _ hz
    simp only [hz, if_false, IsEmpty.forall_iff, true_and, not_false_iff, forall_const, ne_eq]
    constructor
    · rintro ⟨zi, h2, rfl⟩
      have : zi = inv p.z := by linear_combination inv p.z * h2 - zi * h1
      subst this
      ext <;> simp only <;> ring
    · rintro rfl
      refine ⟨inv p.z, h1, ?_⟩
      ext <;> simp only <;> ring

/-- The running points of the ladder. -/
theorem ladder_run {α : Type} (double add : α → α) (k n : Nat) (r : α) (T : Nat → α) (h0 : T n = r)
    (h : ∀ i < n, T i = if k.testBit i then add (double (T (i + 1))) else double (T (i + 1))) :
    ladder double add k n r = T 0 := by
  induction n generalizing r with
  | zero => exact h0.symm
  | succ n ih =>
    unfold ladder
    refine ih _ ?_ fun i hi => h i (by omega)
    rw [h n (by omega), h0]

theorem ladder_exists {α : Type} (double add : α → α) (k n : Nat) (r : α) :
    ∃ T : Nat → α, T n = r ∧
      (∀ i < n, T i = if k.testBit i then add (double (T (i + 1))) else double (T (i + 1))) ∧
      T 0 = ladder double add k n r := by
  induction n generalizing r with
  | zero => exact ⟨fun _ => r, rfl, fun i hi => absurd hi (by omega), rfl⟩
  | succ n ih =>
    obtain ⟨T, h1, h2, h3⟩ := ih (if k.testBit n then add (double r) else double r)
    refine ⟨fun i => if i = n + 1 then r else T i, by simp, fun i hi => ?_, ?_⟩
    · by_cases hn : i = n
      · subst hn; simp [h1]
      · have h4 : i + 1 ≠ n + 1 := by omega
        have h5 : i ≠ n + 1 := by omega
        simp only [h4, h5, if_false]
        exact h2 i (by omega)
    · simp only [show (0 : Nat) ≠ n + 1 by omega, if_false]
      exact h3

theorem isMultiple_iff {inv : F → F} (hi : ∀ z, z ≠ 0 → z * inv z = 1) {p r : Jac F} {k : Nat} :
    IsMultiple p k r ↔ r = mulPt inv p k := by
  have fin : ∀ t : Jac F, ((t.z = 0 → r = infinity) ∧ (t.z ≠ 0 → IsAffine t r)) ↔
      r = (if t.z = 0 then inf else affPt inv t) := by
    intro t
    by_cases ht : t.z = 0
    · simp [ht, infinity_eq]
    · simp [ht, isAffine_iff hi]
  constructor
  · rintro ⟨T, h1, h2, h3⟩
    have := ladder_run dblPt (fun t => addPt t p) k 384 inf T h1 (fun i hi => by
      obtain ⟨d, hd, hs⟩ := h2 i hi
      rw [isDouble_iff] at hd
      subst hd
      split at hs
      · next h => rw [if_pos h]; exact isSum_iff.1 hs
      · next h => rw [if_neg h]; exact hs)
    unfold mulPt
    rw [this]
    exact (fin _).1 h3
  · intro hr
    obtain ⟨T, h1, h2, h3⟩ := ladder_exists dblPt (fun t => addPt t p) k 384 (inf : Jac F)
    refine ⟨T, h1, fun i hi => ⟨dblPt (T (i + 1)), isDouble_iff.2 rfl, ?_⟩, ?_⟩
    · have := h2 i hi
      split
      · next h => rw [if_pos h] at this; exact isSum_iff.2 this
      · next h => rw [if_neg h] at this; exact this
    · rw [h3]
      exact (fin _).2 hr

theorem inSubgroup_iff {inv : F → F} (hi : ∀ z, z ≠ 0 → z * inv z = 1) {p : Jac F} :
    inSubgroup inv p = true ↔ InSubgroup p := by
  unfold inSubgroup InSubgroup
  rw [beq_iff_eq]
  constructor
  · intro h
    exact ⟨_, (isMultiple_iff hi).2 rfl, h⟩
  · rintro ⟨r, hr, hz⟩
    rw [isMultiple_iff hi] at hr
    rw [← hr]
    exact hz

end Points

theorem onCurve1_iff {p : Jac Fp} : onCurve b1 p = true ↔ OnCurve1 p := by
  rw [onCurve_iff, OnCurve1]
  refine or_congr Iff.rfl ?_
  have e1 : p.y * p.y = p.y ^ 2 := by ring
  have e2 : p.x * p.x * p.x + b1 * (p.z * p.z * (p.z * p.z) * (p.z * p.z)) = p.x ^ 3 + 4 * p.z ^ 6 := by
    rw [b1]; ring
  rw [e1, e2]

theorem onCurve2_iff {p : Jac Fp2} : onCurve b2 p = true ↔ OnCurve2 p := by
  rw [onCurve_iff, OnCurve2]
  refine or_congr Iff.rfl ?_
  have e1 : p.y * p.y = p.y ^ 2 := by ring
  have e2 : p.x * p.x * p.x + b2 * (p.z * p.z * (p.z * p.z) * (p.z * p.z)) =
      p.x ^ 3 + ⟨4, 4⟩ * p.z ^ 6 := by
    rw [b2]; ring
  rw [e1, e2]

/-- EQ_F (45_g1.md R313). -/
theorem eqPt_iff {F : Type} [CommRing F] [DecidableEq F] {p q : Jac F} : eqPt p q = true ↔
    (if p.z = 0 ∨ q.z = 0 then p.z = 0 ∧ q.z = 0
        else p.x * q.z ^ 2 = q.x * p.z ^ 2 ∧ p.y * q.z ^ 3 = q.y * p.z ^ 3) := by
  unfold eqPt
  split
  · simp
  · rw [Bool.and_eq_true, beq_iff_eq, beq_iff_eq]
    refine and_congr ?_ ?_
    · rw [pow_two, pow_two]
    · rw [pow_succ, pow_two, pow_succ, pow_two]

end Sys2Proof.Machine
end

