-- ==== Sys2Proof/Laws/Errors.lean ====
section
/-! SUPPORT. When the checks of the point arrays and of canonical operands pass. -/

namespace Sys2Proof.Machine

/-- A canonical operand passes its check. -/
theorem inputStop_canonical {s : State} {x : Operand} (h : Canonical s x.base.toNat x.width) : x.inputStop s.em = none := by
  rw [inputStop_none]
  intro k hk
  obtain ⟨v, h1, h2, _⟩ := h.read hk
  simp [h1, h2]

/-- When no point is off its curve. -/
theorem curveError_none {s : State} {a b n : Nat} : curveError s a b n = none ↔
    ∀ k < n, OnCurve1 (s.readG1 (a + 3 * k)) ∧ OnCurve2 (s.readG2 (b + 6 * k)) := by
  unfold curveError
  rw [List.findSome?_eq_none_iff]
  refine forall_congr' fun k => ?_
  rw [List.mem_range]
  refine imp_congr Iff.rfl ?_
  rw [← onCurve1_iff, ← onCurve2_iff]
  cases onCurve b1 (s.readG1 (a + 3 * k)) <;> cases onCurve b2 (s.readG2 (b + 6 * k)) <;> simp

/-- When no point is outside its subgroup. -/
theorem subgroupError_none {s : State} {a b n : Nat} : subgroupError s a b n = none ↔
    ∀ k < n, InSubgroup (s.readG1 (a + 3 * k)) ∧ InSubgroup (s.readG2 (b + 6 * k)) := by
  unfold subgroupError
  rw [List.findSome?_eq_none_iff]
  refine forall_congr' fun k => ?_
  rw [List.mem_range]
  refine imp_congr Iff.rfl ?_
  rw [← inSubgroup_iff fp_inv_ok, ← inSubgroup_iff fp2_inv_ok]
  cases inSubgroup fpInv (s.readG1 (a + 3 * k)) <;> cases inSubgroup fp2Inv (s.readG2 (b + 6 * k)) <;> simp

end Sys2Proof.Machine
end

