-- ==== Sys2Proof/Laws/HostBytes.lean ====
section
/-! SUPPORT. The laws of the byte encodings: big-endian strings and integers determine each other, the
lengths, and the round trips of one Fp component (20_memory.md R86, R92). -/

namespace Sys2Proof.Machine

set_option Elab.async false

theorem length_bigEndian (n v : Nat) : (bigEndian n v).length = n := by
  induction n generalizing v with
  | zero => rfl
  | succ n ih => simp [bigEndian, ih]

theorem ofBigEndian_append (l : List Byte) (b : Byte) :
    ofBigEndian (l ++ [b]) = 256 * ofBigEndian l + b.toNat := by simp [ofBigEndian]

theorem ofBigEndian_bigEndian (n v : Nat) : ofBigEndian (bigEndian n v) = v % 256 ^ n := by
  induction n generalizing v with
  | zero => simp [bigEndian, ofBigEndian, Nat.mod_one]
  | succ n ih =>
    rw [bigEndian, ofBigEndian_append, ih, BitVec.toNat_ofNat, show 256 ^ (n + 1) = 256 * 256 ^ n by
      rw [Nat.pow_succ, Nat.mul_comm], Nat.mod_mul]
    omega

theorem bigEndian_ofBigEndian (l : List Byte) : bigEndian l.length (ofBigEndian l) = l := by
  induction l using List.reverseRecOn with
  | nil => rfl
  | append_singleton l b ih =>
    have hb := b.isLt
    rw [List.length_append, List.length_singleton, bigEndian, ofBigEndian_append,
      show (256 * ofBigEndian l + b.toNat) / 256 = ofBigEndian l by omega, ih]
    congr 2
    apply BitVec.eq_of_toNat_eq
    rw [BitVec.toNat_ofNat]
    omega

theorem length_encodeFp (a : Fp) : (encodeFp a).length = 48 := length_bigEndian _ _

theorem length_encodeFp2 (a : Fp2) : (encodeFp2 a).length = 96 := by
  rw [encodeFp2, List.length_append, length_encodeFp, length_encodeFp]

theorem length_encodeFp6 (a : Fp6) : (encodeFp6 a).length = 288 := by
  rw [encodeFp6, List.length_append, List.length_append, length_encodeFp2, length_encodeFp2,
    length_encodeFp2]

/-- Decoding an encoded component gives it back. -/
theorem decodeFp_encodeFp (a : Fp) : decodeFp (encodeFp a) = some a := by
  have := ne_zero_p
  have hlt : a.val < P := ZMod.val_lt a
  have he : ofBigEndian (encodeFp a) = a.val := by
    rw [encodeFp, ofBigEndian_bigEndian, show (256 : Nat) ^ 48 = R by decide +kernel]
    exact Nat.mod_eq_of_lt (hlt.trans p_lt_r)
  rw [decodeFp, he, if_pos ⟨length_encodeFp a, hlt⟩, ZMod.natCast_zmod_val]

/-- Encoding a decoded component gives back its bytes (20_memory.md R92). -/
theorem encodeFp_decodeFp {l : List Byte} {a : Fp} (h : decodeFp l = some a) : encodeFp a = l := by
  unfold decodeFp at h
  split at h
  · next hc =>
    obtain rfl := Option.some.inj h
    rw [encodeFp, ZMod.val_cast_of_lt hc.2, ← hc.1]
    exact bigEndian_ofBigEndian l
  · cases h

/-- What is decoded has 48 bytes. -/
theorem length_of_decodeFp {l : List Byte} {a : Fp} (h : decodeFp l = some a) : l.length = 48 := by
  rw [← encodeFp_decodeFp h, length_encodeFp]

end Sys2Proof.Machine
end

