-- ==== Sys2Proof/Laws/Step.lean ====
section
/-! SUPPORT. What a step does, event by event, and what the completion step answers. -/

namespace Sys2Proof.Machine

/-! ### Events -/

theorem step_nil {s : State} (h : s.inbox = []) : step s = s.engineTurn := by
  show s.advance = _
  unfold State.advance
  rw [h]

theorem step_cons {s : State} {e : HostEvent} {rest : List HostEvent} (h : s.inbox = e :: rest) :
    step s = State.handle { s with inbox := rest } e := by
  show s.advance = _
  unfold State.advance
  rw [h]

theorem step_engine {s : State} {rest : List HostEvent} (h : NextEngine s rest) :
    step s = State.runLatched { s with inbox := rest } :=
  (step_cons h.2).trans (if_pos h.1)

theorem step_hardReset {s : State} {rest : List HostEvent} (h : s.inbox = .hardReset :: rest) :
    step s = .next (State.hardReset { s with inbox := rest }) := step_cons h

/-- Which accesses the CORE accepts (20_memory.md R70, R72). -/
theorem accepts_ok {s : State} {off : Nat} (h : off < 0x8000) (h8 : off % 8 = 0) :
    s.accepts (s.base + off) 8 = .ok off := by
  unfold State.accepts
  rw [if_neg (by unfold windowSize; omega), if_pos ⟨rfl, by rwa [Nat.add_sub_cancel_left]⟩,
    Nat.add_sub_cancel_left]

theorem accepts_bus {s : State} {off width : Nat} (h : off < 0x8000) (h8 : width ≠ 8 ∨ off % 8 ≠ 0) :
    s.accepts (s.base + off) width = .error .busError := by
  unfold State.accepts
  rw [if_neg (by unfold windowSize; omega), if_neg (by rw [Nat.add_sub_cancel_left]; omega)]

theorem accepts_cases (s : State) (addr width : Nat) :
    (∃ f, s.accepts addr width = .error f) ∨
      (∃ off, s.accepts addr width = .ok off ∧ off < 0x8000 ∧ off % 8 = 0 ∧ addr = s.base + off) := by
  unfold State.accepts
  split
  · exact .inl ⟨_, rfl⟩
  · next h =>
    split
    · next h8 => exact .inr ⟨_, rfl, by unfold windowSize at h; omega, h8.2, by omega⟩
    · exact .inl ⟨_, rfl⟩

theorem step_write {s : State} {off : Nat} {v : Word} {rest : List HostEvent}
    (h : NextWrite s off v rest) (ho : off < 0x8000) (h8 : off % 8 = 0) :
    step s = State.hostWrite { s with inbox := rest } off v := by
  rw [step_cons h]
  show State.memWrite _ _ _ _ = _
  unfold State.memWrite
  rw [accepts_ok (s := { s with inbox := rest }) ho h8]

theorem step_read {s : State} {off : Nat} {rest : List HostEvent} (h : NextRead s off rest)
    (ho : off < 0x8000) (h8 : off % 8 = 0) : step s = State.hostRead { s with inbox := rest } off := by
  rw [step_cons h]
  show State.memRead _ _ _ = _
  unfold State.memRead
  rw [accepts_ok (s := { s with inbox := rest }) ho h8]

/-- A write of the register window. -/
theorem step_register {s : State} {off : Nat} {v : Word} {rest : List HostEvent}
    (h : NextWrite s off v rest) (ho : off < 0x4000) (h8 : off % 8 = 0) :
    step s = .next (State.writeRegister { s with inbox := rest } off v) := by
  rw [step_write h (by omega) h8]
  unfold State.hostWrite
  rw [if_pos (by unfold slotWindow; exact ho)]

/-- A write of the slot window. -/
theorem step_window {s : State} {off : Nat} {v : Word} {rest : List HostEvent}
    (h : NextWrite s off v rest) (h1 : 0x4000 ≤ off) (h2 : off < 0x8000) (h8 : off % 8 = 0) :
    step s = .next (State.writeWindow { s with inbox := rest } off v) := by
  rw [step_write h h2 h8]
  unfold State.hostWrite
  rw [if_neg (by unfold slotWindow; omega)]

/-- A read of the slot window. -/
theorem step_readWindow {s : State} {off : Nat} {rest : List HostEvent} (h : NextRead s off rest)
    (h1 : 0x4000 ≤ off) (h2 : off < 0x8000) (h8 : off % 8 = 0) :
    step s = State.readWindow { s with inbox := rest } off := by
  rw [step_read h h2 h8]
  unfold State.hostRead
  rw [if_neg (by unfold slotWindow; omega)]

/-! ### The completion step -/

theorem runLatched_ok {s : State} {i : Instr} (h : decode s.lcmd = .ok i) : s.runLatched = exec i s := by
  unfold State.runLatched; rw [h]

theorem runLatched_error {s : State} {e : DecodeError} (h : decode s.lcmd = .error e) :
    s.runLatched = .next (s.abort (decodeReport e)) := by
  unfold State.runLatched; rw [h]

/-- Everything the completion step can answer: an abort, a completion on the output operands of the
command, or the fault of an empty slot. -/
theorem runLatched_cases (s : State) :
    (∃ e, s.runLatched = .next (s.abort e)) ∨
    (∃ i e, decode s.lcmd = .ok i ∧ firstStop i s = none ∧ s.runLatched = .next (s.complete e) ∧
      EffectOk i e) ∨
    (∃ f, s.runLatched = .fault f) := by
  cases h : decode s.lcmd with
  | error e => exact .inl ⟨_, runLatched_error h⟩
  | ok i =>
    rw [runLatched_ok h]
    rcases exec_cases i s with ⟨f, _, h1⟩ | ⟨e, h1⟩ | ⟨e, h0, h1, h2⟩
    · exact .inr (.inr ⟨f, h1⟩)
    · exact .inl ⟨e, h1⟩
    · exact .inr (.inl ⟨i, e, rfl, h0, h1, h2⟩)

/-- The error codes (60_exceptions.md R401). -/
theorem errCode_range (c : ErrCode) : 1 ≤ c.code.toNat ∧ c.code.toNat ≤ 7 := by
  cases c <;> decide

end Sys2Proof.Machine
end

