-- ==== Sys2Proof/Laws/Invariant.lean ====
section
/-! SUPPORT. The pieces of the invariant: the flags after each event, the memory after an abandoned
command, the completion step. -/

namespace Sys2Proof.Machine

/-! ### The flags -/

theorem statusInv_zero : StatusInv Status.zero ErrInfo.zero := by
  refine ⟨by simp [Status.zero], rfl, by decide, fun _ => rfl, by simp [Status.zero], by simp [Status.zero]⟩

/-- A completion leaves consistent flags. -/
theorem statusInv_completed (st : Status) {r z : Bool} (h : ¬(r = true ∧ z = true)) :
    StatusInv (st.completed r z) ErrInfo.zero := by
  refine ⟨by simp, rfl, by simp, fun _ => rfl, by simp, by simpa using h⟩

/-- An abort leaves consistent flags. -/
theorem statusInv_aborted (st : Status) (c : ErrCode) (ei : ErrInfo) : StatusInv (st.aborted c.code) ei := by
  have := errCode_range c
  refine ⟨by simp, ?_, by simpa using this.2, by simp, by simp, by simp⟩
  simp only [Status.aborted_err, Status.aborted_errcode]
  cases c <;> rfl

/-- An accepted start leaves consistent flags. -/
theorem statusInv_started (st : Status) : StatusInv st.started ErrInfo.zero :=
  ⟨by simp, rfl, by simp, fun _ => rfl, by simp, by simp⟩

theorem statusInv_overrun {st : Status} {ei : ErrInfo} (h : StatusInv st ei) : StatusInv st.overrun ei := h

theorem statusInv_w1c {st : Status} {ei : ErrInfo} (h : StatusInv st ei) (v : Word) :
    StatusInv (st.writeOneToClear v) ei := by
  obtain ⟨h1, h2, h3, h4, h5, h6⟩ := h
  refine ⟨fun hb => ?_, h2, h3, h4, h5, h6⟩
  obtain ⟨a, b⟩ := h1 hb
  exact ⟨by simp [a], b⟩

/-! ### An abandoned command -/

/-- An abandoned command lists no new byte. -/
theorem abandoned_mem {s : State} : ∀ c ∈ s.abandonedMemory, c ∈ s.em := by
  intro c hc
  unfold State.abandonedMemory at hc
  split at hc
  · exact hc
  · split at hc
    · exact hc
    · next i _ _ _ =>
      revert hc
      generalize s.em = m
      generalize operandsOf i = ops
      induction ops generalizing m with
      | nil => exact id
      | cons o ops ih =>
        intro hc
        have := ih _ hc
        simp only at this
        split at this
        · exact mem_clearSlots this
        · exact this

/-- An abandoned command keeps the canonical form. -/
theorem abandoned_wf {s : State} (h : s.em.wf = true) : s.abandonedMemory.wf = true := by
  unfold State.abandonedMemory
  split
  · exact h
  · split
    · exact h
    · next i _ _ _ =>
      revert h
      generalize s.em = m
      generalize operandsOf i = ops
      induction ops generalizing m with
      | nil => exact id
      | cons o ops ih =>
        intro h
        refine ih _ ?_
        simp only
        split
        · exact wf_clearSlots _ _ h
        · exact h

/-- What emptying the output operands leaves, slot by slot. -/
theorem readSlot_clearOutputs (ops : List Operand) (m : Memory) (slot : Nat) :
    ((∃ o ∈ ops, o.isOutput = true ∧ o.base.toNat ≤ slot ∧ slot < o.base.toNat + o.width) →
      (ops.foldl (fun m o => if o.isOutput then m.clearSlots o.base.toNat o.width else m) m).readSlot slot = none) ∧
    ((¬∃ o ∈ ops, o.isOutput = true ∧ o.base.toNat ≤ slot ∧ slot < o.base.toNat + o.width) →
      (ops.foldl (fun m o => if o.isOutput then m.clearSlots o.base.toNat o.width else m) m).readSlot slot = m.readSlot slot) := by
  induction ops generalizing m with
  | nil => exact ⟨fun ⟨o, ho, _⟩ => absurd ho (by simp), fun _ => rfl⟩
  | cons o ops ih =>
    rw [List.foldl_cons]
    by_cases h2 : ∃ o ∈ ops, o.isOutput = true ∧ o.base.toNat ≤ slot ∧ slot < o.base.toNat + o.width
    · refine ⟨fun _ => (ih _).1 h2, fun h => ?_⟩
      obtain ⟨x, hx, h3⟩ := h2
      exact absurd ⟨x, List.mem_cons_of_mem _ hx, h3⟩ h
    · rw [(ih _).2 h2]
      constructor
      · rintro ⟨x, hx, h3⟩
        rcases List.mem_cons.1 hx with rfl | hx
        · rw [if_pos h3.1, readSlot_clearSlots, if_pos h3.2]
        · exact absurd ⟨x, hx, h3⟩ h2
      · intro h
        split
        · next ho =>
          rw [readSlot_clearSlots, if_neg]
          exact fun hh => h ⟨o, List.mem_cons_self, ho, hh⟩
        · rfl

/-! ### The invariant -/

/-- The invariant from the fields a step may change. -/
theorem State.Inv.update {s t : State} (h : s.Inv) (hn : t.nslots = s.nslots) (hb : t.base = s.base)
    (hw : t.em.wf = true) (hm : ∀ c ∈ t.em, slotByte s.nslots c.1 = true)
    (hs : StatusInv t.status t.errinfo) : t.Inv := by
  obtain ⟨_, _, h3, h4, _⟩ := h
  exact ⟨hw, by rw [hn]; exact hm, by rw [hn]; exact h3, by rw [hb]; exact h4, hs⟩

theorem inv_runLatched {s t : State} (h : s.Inv) (hx : s.runLatched = .next t) : t.Inv := by
  rcases runLatched_cases s with ⟨e, h1⟩ | ⟨i, e, hd, h0, h1, h2⟩ | ⟨f, h1⟩
  · rw [h1] at hx; cases hx
    exact State.Inv.update h rfl rfl h.1 h.2.1 (statusInv_aborted _ _ _)
  · rw [h1] at hx; cases hx
    refine State.Inv.update h rfl rfl (wf_writeSlots h.1) ?_ (statusInv_completed _ h2.2)
    intro c hc
    rcases mem_writeSlots hc with hc | ⟨w, hw, hc1, hc2⟩
    · exact h.2.1 c hc
    · obtain ⟨o, ho, _, h3, h4⟩ := h2.1 w hw
      have hf := (firstStop_none.1 h0).2 o ho
      have := hf.1
      unfold Fits at this
      exact slotByte_of_slot (slot := w.1) (by omega) hc1 hc2
  · rw [h1] at hx; cases hx

end Sys2Proof.Machine
end

