-- ==== Sys2Proof/Laws/Pairing.lean ====
section
/-! SUPPORT. The laws of the Miller loop: the loop of a list of pairs is the product of the loops of its
parts (47_pairing.md R372). -/

namespace Sys2Proof.Machine

set_option Elab.async false

/-- The lines of a doubling step multiply into f independently of f. -/
theorem doubleAll_mul (w : List Work) (f : Fp12) :
    doubleAll w f = ((doubleAll w .one).1, f.mul (doubleAll w .one).2) := by
  induction w generalizing f with
  | nil => simp [doubleAll, Fp12.mul_one]
  | cons x w ih =>
    unfold doubleAll
    simp only
    rw [ih, ih (Fp12.one.mul _)]
    simp only [Fp12.one_mul, Fp12.mul_assoc]

theorem addAll_mul (w : List Work) (f : Fp12) :
    addAll w f = ((addAll w .one).1, f.mul (addAll w .one).2) := by
  induction w generalizing f with
  | nil => simp [addAll, Fp12.mul_one]
  | cons x w ih =>
    unfold addAll
    simp only
    rw [ih, ih (Fp12.one.mul _)]
    simp only [Fp12.one_mul, Fp12.mul_assoc]

theorem doubleAll_append (w1 w2 : List Work) : doubleAll (w1 ++ w2) .one =
    ((doubleAll w1 .one).1 ++ (doubleAll w2 .one).1, (doubleAll w1 .one).2.mul (doubleAll w2 .one).2) := by
  induction w1 with
  | nil => simp [doubleAll, Fp12.one_mul]
  | cons x w ih =>
    simp only [List.cons_append, doubleAll]
    rw [doubleAll_mul (w ++ w2), doubleAll_mul w, ih]
    simp only [Fp12.mul_assoc]

theorem addAll_append (w1 w2 : List Work) : addAll (w1 ++ w2) .one =
    ((addAll w1 .one).1 ++ (addAll w2 .one).1, (addAll w1 .one).2.mul (addAll w2 .one).2) := by
  induction w1 with
  | nil => simp [addAll, Fp12.one_mul]
  | cons x w ih =>
    simp only [List.cons_append, addAll]
    rw [addAll_mul (w ++ w2), addAll_mul w, ih]
    simp only [Fp12.mul_assoc]

/-- The loop without its last conjugation. -/
def millerWork (n : Nat) (wf : List Work × Fp12) : List Work × Fp12 :=
  ladder (fun wf => doubleAll wf.1 wf.2.sqr) (fun wf => addAll wf.1 wf.2) XABS n wf

theorem millerWork_append (n : Nat) (w1 w2 : List Work) (f1 f2 : Fp12) :
    millerWork n (w1 ++ w2, f1.mul f2) =
      ((millerWork n (w1, f1)).1 ++ (millerWork n (w2, f2)).1,
        (millerWork n (w1, f1)).2.mul (millerWork n (w2, f2)).2) := by
  induction n generalizing w1 w2 f1 f2 with
  | zero => rfl
  | succ n ih =>
    have sw : ∀ a b c d : Fp12, (a.mul b).mul (c.mul d) = (a.mul c).mul (b.mul d) := fun a b c d => by
      rw [Fp12.mul_assoc, Fp12.mul_assoc, ← Fp12.mul_assoc b, Fp12.mul_comm b c, Fp12.mul_assoc]
    have hd : doubleAll (w1 ++ w2) (f1.mul f2).sqr =
        ((doubleAll w1 f1.sqr).1 ++ (doubleAll w2 f2.sqr).1,
          (doubleAll w1 f1.sqr).2.mul (doubleAll w2 f2.sqr).2) := by
      rw [doubleAll_mul _ (f1.mul f2).sqr, doubleAll_append, doubleAll_mul w1 f1.sqr,
        doubleAll_mul w2 f2.sqr]
      simp only [Fp12.sqr]
      rw [sw f1 f2 f1 f2, sw]
    have ha : ∀ (v1 v2 : List Work) (g1 g2 : Fp12), addAll (v1 ++ v2) (g1.mul g2) =
        ((addAll v1 g1).1 ++ (addAll v2 g2).1, (addAll v1 g1).2.mul (addAll v2 g2).2) := by
      intro v1 v2 g1 g2
      rw [addAll_mul _ (g1.mul g2), addAll_append, addAll_mul v1 g1, addAll_mul v2 g2]
      simp only
      rw [sw]
    unfold millerWork ladder
    simp only
    rw [hd]
    split
    · rw [ha]
      exact ih _ _ _ _
    · exact ih _ _ _ _

theorem millerLoop_eq (pairs : List (Jac Fp × Jac Fp2)) : millerLoop pairs =
    (millerWork 63 (pairs.filterMap fun pq => workOf pq.1 pq.2, .one)).2.conj := rfl

/-- The batching law (47_pairing.md R372). -/
theorem millerLoop_append (l1 l2 : List (Jac Fp × Jac Fp2)) :
    millerLoop (l1 ++ l2) = (millerLoop l1).mul (millerLoop l2) := by
  rw [millerLoop_eq, millerLoop_eq, millerLoop_eq, List.filterMap_append, ← Fp12.conj_mul]
  refine congrArg Fp12.conj ?_
  have := millerWork_append 63 (l1.filterMap fun pq => workOf pq.1 pq.2)
    (l2.filterMap fun pq => workOf pq.1 pq.2) .one .one
  rw [Fp12.one_mul] at this
  rw [this]

theorem millerLoop_nil_work (n : Nat) : millerWork n ([], .one) = ([], .one) := by
  induction n with
  | zero => rfl
  | succ n ih =>
    unfold millerWork ladder
    have h : doubleAll [] Fp12.one.sqr = ([], .one) := by
      rw [Fp12.sqr, Fp12.one_mul]; rfl
    simp only [h, addAll, ite_self]
    exact ih

/-- The loop of no pairs is 1 (47_pairing.md R366). -/
theorem millerLoop_nil : millerLoop [] = .one := by
  rw [millerLoop_eq, List.filterMap_nil, millerLoop_nil_work, Fp12.conj_one]

/-- A pair with a point at infinity contributes 1 (47_pairing.md R366). -/
theorem millerLoop_infinite {p : Jac Fp} {q : Jac Fp2} (h : p.z = 0 ∨ q.z = 0) :
    millerLoop [(p, q)] = .one := by
  rw [← millerLoop_nil, millerLoop_eq, millerLoop_eq]
  have : workOf p q = none := if_pos h
  simp [this]

/-- The order of the pairs does not matter (47_pairing.md R372). -/
theorem millerLoop_perm {l1 l2 : List (Jac Fp × Jac Fp2)} (h : l1.Perm l2) :
    millerLoop l1 = millerLoop l2 := by
  induction h with
  | nil => rfl
  | @cons x l l' _ ih =>
    rw [← List.singleton_append, ← List.singleton_append (l := l'), millerLoop_append, ih,
      ← millerLoop_append]
  | swap x y l =>
    have e : ∀ a b : Jac Fp × Jac Fp2, a :: b :: l = [a] ++ ([b] ++ l) := fun _ _ => rfl
    rw [e, e, millerLoop_append, millerLoop_append, millerLoop_append, millerLoop_append,
      ← Fp12.mul_assoc, Fp12.mul_comm (millerLoop [y]), Fp12.mul_assoc]
  | trans _ _ ih1 ih2 => rw [ih1, ih2]

/-! ### The order of the units of Fp12 -/

/-- The p¹²-power map is the identity. -/
theorem npow_p12 (f : Fp12) : f.npow (P ^ 12) = f := by
  have e : P ^ 12 = P ^ 6 * P ^ 6 := by decide +kernel
  rw [e, Fp12.npow_mul, ← Fp12.conj_eq, ← Fp12.conj_eq, Fp12.conj_conj]

/-- The order of the units of Fp12 divides p¹² − 1. -/
theorem npow_order {f : Fp12} (h : f ≠ .zero) : f.npow (P ^ 12 - 1) = .one := by
  have h1 : f.npow (P ^ 12 - 1 + 1) = f := by
    rw [show P ^ 12 - 1 + 1 = P ^ 12 by decide +kernel]; exact npow_p12 f
  have e := Fp12.mul_inv h
  generalize P ^ 12 - 1 = n at h1 ⊢
  rw [Fp12.npow] at h1
  calc f.npow n = ((f.npow n).mul f).mul f.inv := by rw [Fp12.mul_assoc, e, Fp12.mul_one]
    _ = _ := by rw [h1, e]

end Sys2Proof.Machine
end

