-- ==== Sys2Proof/Laws/PerInstr.lean ====
section
/-! SUPPORT. One lemma per command about its word: the row of its opcode builds it back from its fields,
and none of its unused fields is nonzero (30_encoding.md R102, R120). -/

namespace Sys2Proof.Laws.Encoding

open Sys2Proof

/-- The opcode of the command has a row, the command's fields pass the row's check of unused fields, and
the row builds the command from them. -/
def Statement (i : Instr) : Prop :=
  ∃ r, rowOf i.fields.op = some r ∧ reservedField r.uses i.fields = none ∧ r.build i.fields = i

theorem nop : Statement (.nop) := ⟨_, rfl, rfl, rfl⟩

theorem mov (d a : SlotNo) (n : Imm) : Statement (.mov d a n) := ⟨_, rfl, rfl, rfl⟩

theorem zero (d : SlotNo) (n : Imm) : Statement (.zero d n) := ⟨_, rfl, rfl, rfl⟩

theorem const (d : SlotNo) (id : Imm) : Statement (.const d id) := ⟨_, rfl, rfl, rfl⟩

theorem fpAdd (d a b : SlotNo) : Statement (.fpAdd d a b) := ⟨_, rfl, rfl, rfl⟩

theorem fpSub (d a b : SlotNo) : Statement (.fpSub d a b) := ⟨_, rfl, rfl, rfl⟩

theorem fpDbl (d a : SlotNo) : Statement (.fpDbl d a) := ⟨_, rfl, rfl, rfl⟩

theorem fpNeg (d a : SlotNo) : Statement (.fpNeg d a) := ⟨_, rfl, rfl, rfl⟩

theorem fpMul (d a b : SlotNo) : Statement (.fpMul d a b) := ⟨_, rfl, rfl, rfl⟩

theorem fpSqr (d a : SlotNo) : Statement (.fpSqr d a) := ⟨_, rfl, rfl, rfl⟩

theorem fpMont (d a : SlotNo) : Statement (.fpMont d a) := ⟨_, rfl, rfl, rfl⟩

theorem fpDemont (d a : SlotNo) : Statement (.fpDemont d a) := ⟨_, rfl, rfl, rfl⟩

theorem fpRedc (d a b : SlotNo) : Statement (.fpRedc d a b) := ⟨_, rfl, rfl, rfl⟩

theorem fpExp (d a b : SlotNo) : Statement (.fpExp d a b) := ⟨_, rfl, rfl, rfl⟩

theorem fpInvup (d a : SlotNo) : Statement (.fpInvup d a) := ⟨_, rfl, rfl, rfl⟩

theorem fpInvdown (d a : SlotNo) : Statement (.fpInvdown d a) := ⟨_, rfl, rfl, rfl⟩

theorem fpInveea (d a : SlotNo) : Statement (.fpInveea d a) := ⟨_, rfl, rfl, rfl⟩

theorem fpSqrt (d a : SlotNo) : Statement (.fpSqrt d a) := ⟨_, rfl, rfl, rfl⟩

theorem fpEq (a b : SlotNo) : Statement (.fpEq a b) := ⟨_, rfl, rfl, rfl⟩

theorem fpIszero (a : SlotNo) : Statement (.fpIszero a) := ⟨_, rfl, rfl, rfl⟩

theorem fp2Add (d a b : SlotNo) : Statement (.fp2Add d a b) := ⟨_, rfl, rfl, rfl⟩

theorem fp2Sub (d a b : SlotNo) : Statement (.fp2Sub d a b) := ⟨_, rfl, rfl, rfl⟩

theorem fp2Dbl (d a : SlotNo) : Statement (.fp2Dbl d a) := ⟨_, rfl, rfl, rfl⟩

theorem fp2Neg (d a : SlotNo) : Statement (.fp2Neg d a) := ⟨_, rfl, rfl, rfl⟩

theorem fp2Mul (d a b : SlotNo) : Statement (.fp2Mul d a b) := ⟨_, rfl, rfl, rfl⟩

theorem fp2Sqr (d a : SlotNo) : Statement (.fp2Sqr d a) := ⟨_, rfl, rfl, rfl⟩

theorem fp2Mulnr (d a : SlotNo) : Statement (.fp2Mulnr d a) := ⟨_, rfl, rfl, rfl⟩

theorem fp2Inv (d a : SlotNo) : Statement (.fp2Inv d a) := ⟨_, rfl, rfl, rfl⟩

theorem fp2Exp (d a b : SlotNo) : Statement (.fp2Exp d a b) := ⟨_, rfl, rfl, rfl⟩

theorem fp2Sqrt (d a : SlotNo) : Statement (.fp2Sqrt d a) := ⟨_, rfl, rfl, rfl⟩

theorem fp2Eq (a b : SlotNo) : Statement (.fp2Eq a b) := ⟨_, rfl, rfl, rfl⟩

theorem fp2Iszero (a : SlotNo) : Statement (.fp2Iszero a) := ⟨_, rfl, rfl, rfl⟩

theorem fp6Add (d a b : SlotNo) : Statement (.fp6Add d a b) := ⟨_, rfl, rfl, rfl⟩

theorem fp6Sub (d a b : SlotNo) : Statement (.fp6Sub d a b) := ⟨_, rfl, rfl, rfl⟩

theorem fp6Dbl (d a : SlotNo) : Statement (.fp6Dbl d a) := ⟨_, rfl, rfl, rfl⟩

theorem fp6Neg (d a : SlotNo) : Statement (.fp6Neg d a) := ⟨_, rfl, rfl, rfl⟩

theorem fp6Mul (d a b : SlotNo) : Statement (.fp6Mul d a b) := ⟨_, rfl, rfl, rfl⟩

theorem fp6Sqr (d a : SlotNo) : Statement (.fp6Sqr d a) := ⟨_, rfl, rfl, rfl⟩

theorem fp6Mulby01 (d a b : SlotNo) : Statement (.fp6Mulby01 d a b) := ⟨_, rfl, rfl, rfl⟩

theorem fp6Mulby1 (d a : SlotNo) : Statement (.fp6Mulby1 d a) := ⟨_, rfl, rfl, rfl⟩

theorem fp6Mulnr (d a : SlotNo) : Statement (.fp6Mulnr d a) := ⟨_, rfl, rfl, rfl⟩

theorem fp6Inv (d a : SlotNo) : Statement (.fp6Inv d a) := ⟨_, rfl, rfl, rfl⟩

theorem fp6Frob (d a : SlotNo) (k : Imm) : Statement (.fp6Frob d a k) := ⟨_, rfl, rfl, rfl⟩

theorem fp6Eq (a b : SlotNo) : Statement (.fp6Eq a b) := ⟨_, rfl, rfl, rfl⟩

theorem fp6Iszero (a : SlotNo) : Statement (.fp6Iszero a) := ⟨_, rfl, rfl, rfl⟩

theorem fp12Add (d a b : SlotNo) : Statement (.fp12Add d a b) := ⟨_, rfl, rfl, rfl⟩

theorem fp12Sub (d a b : SlotNo) : Statement (.fp12Sub d a b) := ⟨_, rfl, rfl, rfl⟩

theorem fp12Dbl (d a : SlotNo) : Statement (.fp12Dbl d a) := ⟨_, rfl, rfl, rfl⟩

theorem fp12Neg (d a : SlotNo) : Statement (.fp12Neg d a) := ⟨_, rfl, rfl, rfl⟩

theorem fp12Mul (d a b : SlotNo) : Statement (.fp12Mul d a b) := ⟨_, rfl, rfl, rfl⟩

theorem fp12Sqr (d a : SlotNo) : Statement (.fp12Sqr d a) := ⟨_, rfl, rfl, rfl⟩

theorem fp12Cycsqr (d a : SlotNo) : Statement (.fp12Cycsqr d a) := ⟨_, rfl, rfl, rfl⟩

theorem fp12Mulby014 (d a b c : SlotNo) : Statement (.fp12Mulby014 d a b c) := ⟨_, rfl, rfl, rfl⟩

theorem fp12Mulby034 (d a b c : SlotNo) : Statement (.fp12Mulby034 d a b c) := ⟨_, rfl, rfl, rfl⟩

theorem fp12Inv (d a : SlotNo) : Statement (.fp12Inv d a) := ⟨_, rfl, rfl, rfl⟩

theorem fp12Conj (d a : SlotNo) : Statement (.fp12Conj d a) := ⟨_, rfl, rfl, rfl⟩

theorem fp12Frob (d a : SlotNo) (k : Imm) : Statement (.fp12Frob d a k) := ⟨_, rfl, rfl, rfl⟩

theorem fp12Exp (d a b : SlotNo) : Statement (.fp12Exp d a b) := ⟨_, rfl, rfl, rfl⟩

theorem fp12Eq (a b : SlotNo) : Statement (.fp12Eq a b) := ⟨_, rfl, rfl, rfl⟩

theorem fp12Iszero (a : SlotNo) : Statement (.fp12Iszero a) := ⟨_, rfl, rfl, rfl⟩

theorem g1Dbl (d a : SlotNo) : Statement (.g1Dbl d a) := ⟨_, rfl, rfl, rfl⟩

theorem g1Add (d a b : SlotNo) : Statement (.g1Add d a b) := ⟨_, rfl, rfl, rfl⟩

theorem g1Neg (d a : SlotNo) : Statement (.g1Neg d a) := ⟨_, rfl, rfl, rfl⟩

theorem g1Affine (d a : SlotNo) : Statement (.g1Affine d a) := ⟨_, rfl, rfl, rfl⟩

theorem g1Mul (d a b : SlotNo) : Statement (.g1Mul d a b) := ⟨_, rfl, rfl, rfl⟩

theorem g1Iszero (a : SlotNo) : Statement (.g1Iszero a) := ⟨_, rfl, rfl, rfl⟩

theorem g1Oncurve (a : SlotNo) : Statement (.g1Oncurve a) := ⟨_, rfl, rfl, rfl⟩

theorem g1Insub (a : SlotNo) : Statement (.g1Insub a) := ⟨_, rfl, rfl, rfl⟩

theorem g1Eq (a b : SlotNo) : Statement (.g1Eq a b) := ⟨_, rfl, rfl, rfl⟩

theorem g2Dbl (d a : SlotNo) : Statement (.g2Dbl d a) := ⟨_, rfl, rfl, rfl⟩

theorem g2Add (d a b : SlotNo) : Statement (.g2Add d a b) := ⟨_, rfl, rfl, rfl⟩

theorem g2Neg (d a : SlotNo) : Statement (.g2Neg d a) := ⟨_, rfl, rfl, rfl⟩

theorem g2Affine (d a : SlotNo) : Statement (.g2Affine d a) := ⟨_, rfl, rfl, rfl⟩

theorem g2Mul (d a b : SlotNo) : Statement (.g2Mul d a b) := ⟨_, rfl, rfl, rfl⟩

theorem g2Iszero (a : SlotNo) : Statement (.g2Iszero a) := ⟨_, rfl, rfl, rfl⟩

theorem g2Oncurve (a : SlotNo) : Statement (.g2Oncurve a) := ⟨_, rfl, rfl, rfl⟩

theorem g2Insub (a : SlotNo) : Statement (.g2Insub a) := ⟨_, rfl, rfl, rfl⟩

theorem g2Eq (a b : SlotNo) : Statement (.g2Eq a b) := ⟨_, rfl, rfl, rfl⟩

theorem lineDbl (d a b : SlotNo) : Statement (.lineDbl d a b) := ⟨_, rfl, rfl, rfl⟩

theorem lineAdd (d a b c : SlotNo) : Statement (.lineAdd d a b c) := ⟨_, rfl, rfl, rfl⟩

theorem miller (d a b : SlotNo) (n1 n2 : Imm) (chk : Bool) : Statement (.miller d a b n1 n2 chk) := by
  cases chk <;> exact ⟨_, rfl, rfl, rfl⟩

theorem finalexp (d a : SlotNo) : Statement (.finalexp d a) := ⟨_, rfl, rfl, rfl⟩

theorem pair (d a b : SlotNo) (n1 n2 : Imm) (chk : Bool) : Statement (.pair d a b n1 n2 chk) := by
  cases chk <;> exact ⟨_, rfl, rfl, rfl⟩

end Sys2Proof.Laws.Encoding
end

