-- ==== Sys2Proof/Laws/Values.lean ====
section
/-! SUPPORT. Values of operands: canonical slots hold equal values exactly when they hold equal
integers, what the zero and equality tests of the meanings say of values, the integer inverse, and the
completion of the commands that write one element. -/

namespace Sys2Proof.Machine

/-! ### Completion with one element -/

/-- The first slot of a typed operand is canonical. -/
theorem Typed.lt {s : State} {a : SlotNo} {w : Nat} (h : Typed s a w) (hw : 0 < w) : s.slotInt a.toNat < P := by
  have := h.2.lt (k := 0) hw
  simpa using this

/-- A slot integer has 384 bits. -/
theorem slotInt_lt (s : State) (n : Nat) : s.slotInt n < 2 ^ 384 := by
  unfold State.slotInt; exact BitVec.isLt _

/-- A command that writes an Fp2 element. -/
theorem writes_fp2 {i : Instr} {s : State} {d : SlotNo} {z : Bool} {post : State → Prop} (y : Fp2)
   (hx : exec i s = completes i s fun _ => { writes := put2 d.toNat y, zdiv := z })
   (hok : firstStop i s = none) (hp : ∀ t, t.val2 d.toNat = y → post t) : Writes i s d 2 z post :=
  writes_of (ints2 y) hx rfl lt_ints2 hok fun t h => hp t h.val2

/-- A command that writes an Fp6 element. -/
theorem writes_fp6 {i : Instr} {s : State} {d : SlotNo} {z : Bool} {post : State → Prop} (y : Fp6)
   (hx : exec i s = completes i s fun _ => { writes := put6 d.toNat y, zdiv := z })
   (hok : firstStop i s = none) (hp : ∀ t, t.val6 d.toNat = y → post t) : Writes i s d 6 z post :=
  writes_of (ints6 y) hx rfl lt_ints6 hok fun t h => hp t h.val6

/-- A command that writes an Fp12 element. -/
theorem writes_fp12 {i : Instr} {s : State} {d : SlotNo} {z : Bool} {post : State → Prop} (y : Fp12)
   (hx : exec i s = completes i s fun _ => { writes := put12 d.toNat y, zdiv := z })
   (hok : firstStop i s = none) (hp : ∀ t, t.val12 d.toNat = y → post t) : Writes i s d 12 z post :=
  writes_of (ints12 y) hx rfl lt_ints12 hok fun t h => hp t h.val12

/-- A command that writes a G1 triple. -/
theorem writes_g1 {i : Instr} {s : State} {d : SlotNo} {z : Bool} {post : State → Prop} (y : Jac Fp)
   (hx : exec i s = completes i s fun _ => { writes := putG1 d.toNat y, zdiv := z })
   (hok : firstStop i s = none) (hp : ∀ t, t.readG1 d.toNat = y → post t) : Writes i s d 3 z post :=
  writes_of (intsG1 y) hx rfl lt_intsG1 hok fun t h => hp t h.readG1

/-- A command that writes a G2 triple. -/
theorem writes_g2 {i : Instr} {s : State} {d : SlotNo} {z : Bool} {post : State → Prop} (y : Jac Fp2)
   (hx : exec i s = completes i s fun _ => { writes := putG2 d.toNat y, zdiv := z })
   (hok : firstStop i s = none) (hp : ∀ t, t.readG2 d.toNat = y → post t) : Writes i s d 6 z post :=
  writes_of (intsG2 y) hx rfl lt_intsG2 hok fun t h => hp t h.readG2

/-! ### Operands of some commands -/

theorem ok_redc {s : State} {d a b : SlotNo} (hd : Fits s d 1) (ha : Raw s a 1) (hb : Raw s b 1) :
    firstStop (.fpRedc d a b) s = none := by
  rw [firstStop_none]
  refine ⟨rfl, fun o h => ?_⟩
  simp only [operandsOf, List.mem_cons, List.not_mem_nil, or_false] at h
  rcases h with rfl | rfl | rfl
  · exact ok_destD hd
  · exact ok_rawInput ha
  · exact ok_rawInput hb

/-- The input of FP_REDC (41_fp.md R160). -/
theorem redcInput_eq (s : State) (a b : SlotNo) : s.redcInput a b = s.slotInt a.toNat + 2 ^ 384 * s.slotInt b.toNat := by
  rw [State.redcInput, R, Nat.mul_comm (2 ^ 384)]

theorem ok_mulby01 {s : State} {d a b : SlotNo} (hd : Typed s d 6) (ha : Typed s a 2) (hb : Typed s b 2) :
    firstStop (.fp6Mulby01 d a b) s = none := by
  rw [firstStop_none]
  refine ⟨rfl, fun o h => ?_⟩
  simp only [operandsOf, List.mem_cons, List.not_mem_nil, or_false] at h
  rcases h with rfl | rfl | rfl
  · exact ok_inoutD hd
  · exact ok_input ha
  · exact ok_input hb

theorem ok_mulby1 {s : State} {d a : SlotNo} (hd : Typed s d 6) (ha : Typed s a 2) :
    firstStop (.fp6Mulby1 d a) s = none := by
  rw [firstStop_none]
  refine ⟨rfl, fun o h => ?_⟩
  simp only [operandsOf, List.mem_cons, List.not_mem_nil, or_false] at h
  rcases h with rfl | rfl
  · exact ok_inoutD hd
  · exact ok_input ha

theorem ok_sparse {i : Instr} {s : State} {d a b c : SlotNo} (hi : i = .fp12Mulby014 d a b c ∨ i = .fp12Mulby034 d a b c) (hd : Typed s d 12) (ha : Typed s a 2) (hb : Typed s b 2) (hc : Typed s c 2) :
    firstStop i s = none := by
  rw [firstStop_none]
  have : operandsOf i = [inoutD d 12, input .a a 2, input .b b 2, input .c c 2] ∧ i.wellFormed = true := by
    rcases hi with rfl | rfl <;> exact ⟨rfl, rfl⟩
  rw [this.1]
  refine ⟨this.2, fun o h => ?_⟩
  simp only [List.mem_cons, List.not_mem_nil, or_false] at h
  rcases h with rfl | rfl | rfl | rfl
  · exact ok_inoutD hd
  · exact ok_input ha
  · exact ok_input hb
  · exact ok_input hc

/-! ### Values and slot integers -/

theorem mul_lt_p_mul_r {a b : Nat} (ha : a < P) (hb : b < P) : a * b < P * R := mul_lt_pr ha (hb.trans p_lt_r')

theorem mod_eq_of_fp {a b : Nat} (h : (a : Fp) = (b : Fp)) : a % P = b % P :=
  (ZMod.natCast_eq_natCast_iff a b P).1 h

theorem r2_fp : ((R2 : Nat) : Fp) = (R : Nat) * (R : Nat) := by
  rw [r2_eq, ZMod.natCast_mod, Nat.cast_mul]

/-- A part of a canonical operand is canonical. -/
theorem Canonical.sub {s : State} {a w o n : Nat} (h : Canonical s a w) (ho : o + n ≤ w) : Canonical s (a + o) n := by
  intro k hk
  have := h (o + k) (by omega)
  rwa [← Nat.add_assoc] at this

theorem val1_eq_zero_iff {s : State} {n : Nat} (h : s.slotInt n < P) : s.val1 n = 0 ↔ s.slotInt n = 0 := by
  constructor
  · intro e
    rw [slotInt_eq_montInt h, e, ZMod.val_zero, montInt_zero]
  · intro e
    rw [State.val1, e]; simp

/-- Canonical slot integers are equal exactly when their values are. -/
theorem val1_inj {s : State} {n m : Nat} (hn : s.slotInt n < P) (hm : s.slotInt m < P) :
    s.val1 n = s.val1 m ↔ s.slotInt n = s.slotInt m := by
  constructor
  · intro e
    rw [slotInt_eq_montInt hn, slotInt_eq_montInt hm, e]
  · intro e
    rw [State.val1, State.val1, e]

theorem allEqual_iff {s : State} {a b n : Nat} : s.allEqual a b n = true ↔ ∀ k < n, s.slotInt (a + k) = s.slotInt (b + k) := by
  simp [State.allEqual]

theorem allZero_iff {s : State} {a n : Nat} : s.allZero a n = true ↔ ∀ k < n, s.slotInt (a + k) = 0 := by
  simp [State.allZero]

theorem val2_inj {s : State} {a b : Nat} (ha : Canonical s a 2) (hb : Canonical s b 2) :
    s.val2 a = s.val2 b ↔ ∀ k < 2, s.slotInt (a + k) = s.slotInt (b + k) := by
  have h0 := val1_inj (s := s) (n := a) (m := b) (by simpa using ha.lt (k := 0) (by omega)) (by simpa using hb.lt (k := 0) (by omega))
  have h1 := val1_inj (ha.lt (k := 1) (by omega)) (hb.lt (k := 1) (by omega))
  rw [State.val2, State.val2, QuadraticAlgebra.ext_iff]
  simp only [h0, h1]
  constructor
  · rintro ⟨x, y⟩ k hk
    interval_cases k
    · exact x
    · exact y
  · intro h
    exact ⟨h 0 (by omega), h 1 (by omega)⟩

theorem val6_inj {s : State} {a b : Nat} (ha : Canonical s a 6) (hb : Canonical s b 6) :
    s.val6 a = s.val6 b ↔ ∀ k < 6, s.slotInt (a + k) = s.slotInt (b + k) := by
  have h0 := val2_inj (Canonical.sub (o := 0) (n := 2) ha (by omega)) (Canonical.sub (o := 0) (n := 2) hb (by omega))
  have h1 := val2_inj (Canonical.sub (o := 2) (n := 2) ha (by omega)) (Canonical.sub (o := 2) (n := 2) hb (by omega))
  have h2 := val2_inj (Canonical.sub (o := 4) (n := 2) ha (by omega)) (Canonical.sub (o := 4) (n := 2) hb (by omega))
  simp only [Nat.add_zero] at h0
  rw [State.val6, State.val6, Fp6.ext_iff]
  simp only [h0, h1, h2]
  constructor
  · rintro ⟨x, y, z⟩ k hk
    interval_cases k
    · exact x 0 (by omega)
    · exact x 1 (by omega)
    · exact y 0 (by omega)
    · exact y 1 (by omega)
    · exact z 0 (by omega)
    · exact z 1 (by omega)
  · intro h
    refine ⟨fun k hk => h k (by omega), fun k hk => ?_, fun k hk => ?_⟩
    · have := h (2 + k) (by omega); rwa [← Nat.add_assoc, ← Nat.add_assoc] at this
    · have := h (4 + k) (by omega); rwa [← Nat.add_assoc, ← Nat.add_assoc] at this

theorem val12_inj {s : State} {a b : Nat} (ha : Canonical s a 12) (hb : Canonical s b 12) :
    s.val12 a = s.val12 b ↔ ∀ k < 12, s.slotInt (a + k) = s.slotInt (b + k) := by
  have h0 := val6_inj (Canonical.sub (o := 0) (n := 6) ha (by omega)) (Canonical.sub (o := 0) (n := 6) hb (by omega))
  have h1 := val6_inj (Canonical.sub (o := 6) (n := 6) ha (by omega)) (Canonical.sub (o := 6) (n := 6) hb (by omega))
  simp only [Nat.add_zero] at h0
  rw [State.val12, State.val12, Fp12.ext_iff]
  simp only [h0, h1]
  constructor
  · rintro ⟨x, y⟩ k hk
    by_cases h6 : k < 6
    · exact x k h6
    · have := y (k - 6) (by omega)
      rwa [show a + 6 + (k - 6) = a + k by omega, show b + 6 + (k - 6) = b + k by omega] at this
  · intro h
    refine ⟨fun k hk => h k (by omega), fun k hk => ?_⟩
    have := h (6 + k) (by omega); rwa [← Nat.add_assoc, ← Nat.add_assoc] at this

theorem val2_eq_zero_iff {s : State} {a : Nat} (ha : Canonical s a 2) : s.val2 a = 0 ↔ ∀ k < 2, s.slotInt (a + k) = 0 := by
  have h0 := val1_eq_zero_iff (s := s) (n := a) (by simpa using ha.lt (k := 0) (by omega))
  have h1 := val1_eq_zero_iff (ha.lt (k := 1) (by omega))
  rw [State.val2, QuadraticAlgebra.ext_iff]
  simp only [QuadraticAlgebra.re_zero, QuadraticAlgebra.im_zero, h0, h1]
  constructor
  · rintro ⟨x, y⟩ k hk
    interval_cases k
    · exact x
    · exact y
  · intro h
    exact ⟨h 0 (by omega), h 1 (by omega)⟩

theorem val6_eq_zero_iff {s : State} {a : Nat} (ha : Canonical s a 6) : s.val6 a = .zero ↔ ∀ k < 6, s.slotInt (a + k) = 0 := by
  have h0 := val2_eq_zero_iff (Canonical.sub (o := 0) (n := 2) ha (by omega))
  have h1 := val2_eq_zero_iff (Canonical.sub (o := 2) (n := 2) ha (by omega))
  have h2 := val2_eq_zero_iff (Canonical.sub (o := 4) (n := 2) ha (by omega))
  simp only [Nat.add_zero] at h0
  rw [State.val6, Fp6.zero, Fp6.ext_iff]
  simp only [h0, h1, h2]
  constructor
  · rintro ⟨x, y, z⟩ k hk
    interval_cases k
    · exact x 0 (by omega)
    · exact x 1 (by omega)
    · exact y 0 (by omega)
    · exact y 1 (by omega)
    · exact z 0 (by omega)
    · exact z 1 (by omega)
  · intro h
    refine ⟨fun k hk => h k (by omega), fun k hk => ?_, fun k hk => ?_⟩
    · have := h (2 + k) (by omega); rwa [← Nat.add_assoc] at this
    · have := h (4 + k) (by omega); rwa [← Nat.add_assoc] at this

theorem val12_eq_zero_iff {s : State} {a : Nat} (ha : Canonical s a 12) : s.val12 a = .zero ↔ ∀ k < 12, s.slotInt (a + k) = 0 := by
  have h0 := val6_eq_zero_iff (Canonical.sub (o := 0) (n := 6) ha (by omega))
  have h1 := val6_eq_zero_iff (Canonical.sub (o := 6) (n := 6) ha (by omega))
  simp only [Nat.add_zero] at h0
  rw [State.val12, Fp12.zero, Fp12.ext_iff]
  simp only [h0, h1]
  constructor
  · rintro ⟨x, y⟩ k hk
    by_cases h6 : k < 6
    · exact x k h6
    · have := y (k - 6) (by omega)
      rwa [show a + 6 + (k - 6) = a + k by omega] at this
  · intro h
    refine ⟨fun k hk => h k (by omega), fun k hk => ?_⟩
    have := h (6 + k) (by omega); rwa [← Nat.add_assoc] at this

theorem allZero_one {s : State} {a : Nat} : s.allZero a 1 = decide (s.slotInt a = 0) := by
  rw [Bool.eq_iff_iff, decide_eq_true_iff, allZero_iff]
  constructor
  · intro h; exact h 0 (by omega)
  · intro h k hk; interval_cases k; exact h

theorem allZero_fp2 {s : State} {a : Nat} (h : Canonical s a 2) : s.allZero a 2 = decide (s.val2 a = 0) := by
  rw [Bool.eq_iff_iff, decide_eq_true_iff, allZero_iff, val2_eq_zero_iff h]

theorem allZero_fp6 {s : State} {a : Nat} (h : Canonical s a 6) : s.allZero a 6 = decide (s.val6 a = .zero) := by
  rw [Bool.eq_iff_iff, decide_eq_true_iff, allZero_iff, val6_eq_zero_iff h]

theorem allZero_fp12 {s : State} {a : Nat} (h : Canonical s a 12) : s.allZero a 12 = decide (s.val12 a = .zero) := by
  rw [Bool.eq_iff_iff, decide_eq_true_iff, allZero_iff, val12_eq_zero_iff h]

/-! ### The integer inverse -/

theorem inv0_lt (a : Nat) : inv0 a < P := by
  have := ne_zero_p
  exact ZMod.val_lt _

/-- `inv0` inverts (00_scope.md R17). -/
theorem inv0_mul {a : Nat} (h0 : a ≠ 0) (h : a < P) : ((inv0 a : Nat) : Fp) * a = 1 := by
  have := ne_zero_p
  have hne : (a : Fp) ≠ 0 := by
    intro e
    rw [ZMod.natCast_eq_zero_iff] at e
    exact h0 (Nat.eq_zero_of_dvd_of_lt e h)
  rw [inv0, ZMod.natCast_zmod_val, mul_comm, mul_fpInv hne]

theorem inv0_zero : inv0 0 = 0 := by
  rw [inv0, Nat.cast_zero, fpInv_zero, ZMod.val_zero]

end Sys2Proof.Machine
end

