-- ==== Sys2Proof/Tests/Slice0.lean ====
section
/-! SUPPORT. Tests. The words of the decode tests and the values of the step tests are the spec's own
(the examples of 40_data.md to 47_pairing.md; 95_test_vectors.md); a number there is written as its slot
integer, `montInt y` for the element y. The witnesses show, for each statement of Obligations.lean that
has hypotheses, operands that meet them. -/

namespace Sys2Proof.Tests

open Sys2Proof.Machine

set_option Elab.async false

/-! ### Small states -/

/-- Slots `i`, `i + 1`, ... as bytes. -/
def cells : Nat → List Nat → Memory
  | _, [] => []
  | i, v :: l => bytesOf (slotOffset i) v 48 ++ cells (i + 1) l

/-- The reset state whose slots from 0 on hold the given integers. -/
def holding (l : List Nat) : State := { State.reset with em := cells 0 l }

/-- One step with `w` in flight on slots `l` leaves these STATUS and ERRINFO words and slots. -/
def runs (l : List Nat) (w status errinfo : Nat) (outs : List (Nat × Nat)) : Bool :=
  match step ((holding l).withFetchWord 64 w) with
  | .next t =>
    t.status.word.toNat == status && t.errinfo.word.toNat == errinfo &&
      outs.all fun o => (t.em.readSlot o.1).map (·.toNat) == some o.2
  | .fault _ => false
  | .refused _ => false

/-! ### Well-formedness and decoding -/

/-- 30_encoding.md R108, R109: the ill-formed commands are refused, their neighbours are not. -/
theorem test_wellFormed :
    (Instr.const 0#8 0x00#8).wellFormed = false ∧ (Instr.const 0#8 0x10#8).wellFormed = false ∧
    (Instr.const 0#8 0xFF#8).wellFormed = false ∧ (Instr.miller 0#8 0#8 0#8 1#8 2#8 true).wellFormed = false ∧
    (Instr.pair 0#8 0#8 0#8 0#8 1#8 false).wellFormed = false ∧ (Instr.const 0#8 0x01#8).wellFormed = true ∧
    (Instr.const 0#8 0x0F#8).wellFormed = true ∧ (Instr.miller 0#8 0#8 0#8 0#8 0#8 true).wellFormed = true ∧
    (Instr.pair 0#8 0#8 0#8 85#8 85#8 false).wellFormed = true ∧ Instr.nop.wellFormed = true := by decide

/-- The words of the examples of 40_data.md. -/
theorem test_decode_data :
  decode 0x0000000000000000#64 = .ok .nop ∧
  decode 0x0000030000000A01#64 = .ok (.mov 10#8 0#8 3#8) ∧
  decode 0x0000020000000502#64 = .ok (.zero 5#8 2#8) ∧
  decode 0x0000090000000003#64 = .ok (.const 0#8 9#8) :=
  ⟨rfl, rfl, rfl, rfl⟩

/-- The words of the examples of 41_fp.md. -/
theorem test_decode_fp :
  decode 0x0000000002010310#64 = .ok (.fpAdd 3#8 1#8 2#8) ∧
  decode 0x0000000002010311#64 = .ok (.fpSub 3#8 1#8 2#8) ∧
  decode 0x0000000000010112#64 = .ok (.fpDbl 1#8 1#8) ∧
  decode 0x0000000000010213#64 = .ok (.fpNeg 2#8 1#8) ∧
  decode 0x0000000002010314#64 = .ok (.fpMul 3#8 1#8 2#8) ∧
  decode 0x0000000000010215#64 = .ok (.fpSqr 2#8 1#8) ∧
  decode 0x0000000000010116#64 = .ok (.fpMont 1#8 1#8) ∧
  decode 0x0000000000030317#64 = .ok (.fpDemont 3#8 3#8) ∧
  decode 0x0000000005040318#64 = .ok (.fpRedc 3#8 4#8 5#8) ∧
  decode 0x0000000002010319#64 = .ok (.fpExp 3#8 1#8 2#8) ∧
  decode 0x000000000001021A#64 = .ok (.fpInvup 2#8 1#8) ∧
  decode 0x000000000001021B#64 = .ok (.fpInvdown 2#8 1#8) ∧
  decode 0x000000000001021C#64 = .ok (.fpInveea 2#8 1#8) ∧
  decode 0x000000000001021D#64 = .ok (.fpSqrt 2#8 1#8) ∧
  decode 0x000000000101001E#64 = .ok (.fpEq 1#8 1#8) ∧
  decode 0x000000000001001F#64 = .ok (.fpIszero 1#8) :=
  ⟨rfl, rfl, rfl, rfl, rfl, rfl, rfl, rfl, rfl, rfl, rfl, rfl, rfl, rfl, rfl, rfl⟩

/-- The words of the examples of 42_fp2.md. -/
theorem test_decode_fp2 :
  decode 0x0000000002000420#64 = .ok (.fp2Add 4#8 0#8 2#8) ∧
  decode 0x0000000002000421#64 = .ok (.fp2Sub 4#8 0#8 2#8) ∧
  decode 0x0000000000000422#64 = .ok (.fp2Dbl 4#8 0#8) ∧
  decode 0x0000000000000423#64 = .ok (.fp2Neg 4#8 0#8) ∧
  decode 0x0000000002000424#64 = .ok (.fp2Mul 4#8 0#8 2#8) ∧
  decode 0x0000000000000425#64 = .ok (.fp2Sqr 4#8 0#8) ∧
  decode 0x0000000000000426#64 = .ok (.fp2Mulnr 4#8 0#8) ∧
  decode 0x0000000000000427#64 = .ok (.fp2Inv 4#8 0#8) ∧
  decode 0x0000000006000428#64 = .ok (.fp2Exp 4#8 0#8 6#8) ∧
  decode 0x0000000000000429#64 = .ok (.fp2Sqrt 4#8 0#8) ∧
  decode 0x000000000200002A#64 = .ok (.fp2Eq 0#8 2#8) ∧
  decode 0x000000000000002B#64 = .ok (.fp2Iszero 0#8) :=
  ⟨rfl, rfl, rfl, rfl, rfl, rfl, rfl, rfl, rfl, rfl, rfl, rfl⟩

/-- The words of the examples of 43_fp6.md. -/
theorem test_decode_fp6 :
  decode 0x0000000006000C30#64 = .ok (.fp6Add 12#8 0#8 6#8) ∧
  decode 0x0000000006000C31#64 = .ok (.fp6Sub 12#8 0#8 6#8) ∧
  decode 0x0000000000000C32#64 = .ok (.fp6Dbl 12#8 0#8) ∧
  decode 0x0000000000000C33#64 = .ok (.fp6Neg 12#8 0#8) ∧
  decode 0x0000000006000C34#64 = .ok (.fp6Mul 12#8 0#8 6#8) ∧
  decode 0x0000000000000C35#64 = .ok (.fp6Sqr 12#8 0#8) ∧
  decode 0x0000000008060036#64 = .ok (.fp6Mulby01 0#8 6#8 8#8) ∧
  decode 0x0000000000080037#64 = .ok (.fp6Mulby1 0#8 8#8) ∧
  decode 0x0000000000000C38#64 = .ok (.fp6Mulnr 12#8 0#8) ∧
  decode 0x0000000000000C39#64 = .ok (.fp6Inv 12#8 0#8) ∧
  decode 0x0000010000000C3A#64 = .ok (.fp6Frob 12#8 0#8 1#8) ∧
  decode 0x000000000600003B#64 = .ok (.fp6Eq 0#8 6#8) ∧
  decode 0x000000000000003C#64 = .ok (.fp6Iszero 0#8) :=
  ⟨rfl, rfl, rfl, rfl, rfl, rfl, rfl, rfl, rfl, rfl, rfl, rfl, rfl⟩

/-- The words of the examples of 44_fp12.md. -/
theorem test_decode_fp12 :
  decode 0x000000000C001840#64 = .ok (.fp12Add 24#8 0#8 12#8) ∧
  decode 0x000000000C001841#64 = .ok (.fp12Sub 24#8 0#8 12#8) ∧
  decode 0x0000000000001842#64 = .ok (.fp12Dbl 24#8 0#8) ∧
  decode 0x0000000000001843#64 = .ok (.fp12Neg 24#8 0#8) ∧
  decode 0x000000000C001844#64 = .ok (.fp12Mul 24#8 0#8 12#8) ∧
  decode 0x0000000000001845#64 = .ok (.fp12Sqr 24#8 0#8) ∧
  decode 0x0000000000001846#64 = .ok (.fp12Cycsqr 24#8 0#8) ∧
  decode 0x000000100E0C0047#64 = .ok (.fp12Mulby014 0#8 12#8 14#8 16#8) ∧
  decode 0x000000100E0C0048#64 = .ok (.fp12Mulby034 0#8 12#8 14#8 16#8) ∧
  decode 0x0000000000001849#64 = .ok (.fp12Inv 24#8 0#8) ∧
  decode 0x000000000000184A#64 = .ok (.fp12Conj 24#8 0#8) ∧
  decode 0x000001000000184B#64 = .ok (.fp12Frob 24#8 0#8 1#8) ∧
  decode 0x000000002400184C#64 = .ok (.fp12Exp 24#8 0#8 36#8) ∧
  decode 0x000000000C00004D#64 = .ok (.fp12Eq 0#8 12#8) ∧
  decode 0x000000000000004E#64 = .ok (.fp12Iszero 0#8) :=
  ⟨rfl, rfl, rfl, rfl, rfl, rfl, rfl, rfl, rfl, rfl, rfl, rfl, rfl, rfl, rfl⟩

/-- The words of the examples of 45_g1.md. -/
theorem test_decode_g1 :
  decode 0x0000000000000350#64 = .ok (.g1Dbl 3#8 0#8) ∧
  decode 0x0000000003000651#64 = .ok (.g1Add 6#8 0#8 3#8) ∧
  decode 0x0000000000000352#64 = .ok (.g1Neg 3#8 0#8) ∧
  decode 0x0000000000030353#64 = .ok (.g1Affine 3#8 3#8) ∧
  decode 0x0000000009000354#64 = .ok (.g1Mul 3#8 0#8 9#8) ∧
  decode 0x0000000000000055#64 = .ok (.g1Iszero 0#8) ∧
  decode 0x0000000000000056#64 = .ok (.g1Oncurve 0#8) ∧
  decode 0x0000000000000057#64 = .ok (.g1Insub 0#8) ∧
  decode 0x0000000003000058#64 = .ok (.g1Eq 0#8 3#8) :=
  ⟨rfl, rfl, rfl, rfl, rfl, rfl, rfl, rfl, rfl⟩

/-- The words of the examples of 46_g2.md. -/
theorem test_decode_g2 :
  decode 0x0000000000000660#64 = .ok (.g2Dbl 6#8 0#8) ∧
  decode 0x0000000006000C61#64 = .ok (.g2Add 12#8 0#8 6#8) ∧
  decode 0x0000000000000662#64 = .ok (.g2Neg 6#8 0#8) ∧
  decode 0x0000000000060663#64 = .ok (.g2Affine 6#8 6#8) ∧
  decode 0x000000000C000664#64 = .ok (.g2Mul 6#8 0#8 12#8) ∧
  decode 0x0000000000000065#64 = .ok (.g2Iszero 0#8) ∧
  decode 0x0000000000000066#64 = .ok (.g2Oncurve 0#8) ∧
  decode 0x0000000000000067#64 = .ok (.g2Insub 0#8) ∧
  decode 0x0000000006000068#64 = .ok (.g2Eq 0#8 6#8) :=
  ⟨rfl, rfl, rfl, rfl, rfl, rfl, rfl, rfl, rfl⟩

/-- The words of the examples of 47_pairing.md. -/
theorem test_decode_pairing :
  decode 0x00000000000A1470#64 = .ok (.lineDbl 20#8 10#8 0#8) ∧
  decode 0x00000010000A1471#64 = .ok (.lineAdd 20#8 10#8 0#8 16#8) ∧
  decode 0x0001010003002872#64 = .ok (.miller 40#8 0#8 3#8 1#8 1#8 false) ∧
  decode 0x0000000000283473#64 = .ok (.finalexp 52#8 40#8) ∧
  decode 0x0001010003002874#64 = .ok (.pair 40#8 0#8 3#8 1#8 1#8 false) :=
  ⟨rfl, rfl, rfl, rfl, rfl⟩

/-- 60_exceptions.md R402, R403: the words that are no command, each under its name. -/
theorem test_decode_rejects :
    decode 0x0000000000000004#64 = .error .illegalOpcode ∧
    decode 0xFFFFFFFFFFFFFF2C#64 = .error .illegalOpcode ∧
    decode 0x1000000000000000#64 = .error (.reservedField .x) ∧
    decode 0x0100000001000210#64 = .error (.reservedField .x) ∧
    decode 0x0000000501000210#64 = .error (.reservedField .c) ∧
    decode 0x0000000000000100#64 = .error (.reservedField .d) ∧
    decode 0x0001010000000310#64 = .error (.reservedField .e) := by decide

/-- 20_memory.md R86, R87, R91: most significant byte first, c1 before c0, and an integer that is p is
rejected. -/
theorem test_bytes :
    encodeFp 258 = List.replicate 46 0#8 ++ [1#8, 2#8] ∧
    encodeFp2 ⟨1, 2⟩ = List.replicate 47 0#8 ++ [2#8] ++ List.replicate 47 0#8 ++ [1#8] ∧
    decodeFp (bigEndian 48 P) = none ∧ decodeFp (List.replicate 47 0#8) = none := by decide +kernel

/-! ### Constants and reset -/

/-- 00_scope.md R11-R14: q = x⁴ − x² + 1, p = (x − 1)²·q/3 + x for x = −|x|, and the Montgomery numbers. -/
theorem test_constants :
    Q = XABS ^ 4 - XABS ^ 2 + 1 ∧ P + XABS = (XABS + 1) ^ 2 * Q / 3 ∧ (XABS + 1) ^ 2 * Q % 3 = 0 ∧
    ONE = R % P ∧ R2 = R * R % P ∧ NP % 2 ^ 64 = N0 ∧ (N0 * P + 1) % 2 ^ 64 = 0 ∧ (NP * P + 1) % R = 0 ∧
    R * RINV % P = 1 := by decide +kernel

/-- 70_reset_and_hazards.md R440: PARAM of the reference configuration, STATUS and ERRINFO. -/
theorem test_reset :
    State.reset.paramWord = 0x10100#64 ∧ State.reset.status.word = 0#64 ∧ State.reset.errinfo.word = 0#64 ∧
    State.reset.ctrlWord = 0#64 ∧ State.reset.em.wf = true := by decide

/-! ### One step -/

/-- 95_test_vectors.md V2. -/
theorem test_mov : runs [11, 22, 33]
  0x0000030000000A01 0x2 0x0 [(10, 11), (11, 22), (12, 33)] = true := by decide +kernel

/-- 95_test_vectors.md V3. -/
theorem test_mov_overlap : runs [1, 2, 3,
    P + 5]
  0x0000040000000101 0x2 0x0 [(1, 1), (2, 2), (3, 3), (4,
    P + 5)] = true := by decide +kernel

/-- 95_test_vectors.md V6. -/
theorem test_const_g1 : runs []
  0x0000090000000003 0x2 0x0 [(0, montInt G1X), (1, montInt G1Y), (2, ONE)] = true := by decide +kernel

/-- 95_test_vectors.md V6. -/
theorem test_const_minus_one : runs []
  0x00000E0000000003 0x2 0x0 [(0, montInt (P - 1))] = true := by decide +kernel

/-- 95_test_vectors.md V10. -/
theorem test_fp_add : runs [0, montInt (P - 3), montInt 5]
  0x0000000002010310 0x2 0x0 [(3, montInt 2)] = true := by decide +kernel

/-- 95_test_vectors.md V11. -/
theorem test_fp_sub : runs [0, montInt 3, montInt 5]
  0x0000000002010311 0x2 0x0 [(3, montInt (P - 2))] = true := by decide +kernel

/-- 95_test_vectors.md V12. -/
theorem test_fp_dbl_wraps : runs [0, 0x17fbb8571a006596d3916126f2d14ca26e22d1ec31ebb502633cb57c253c276f855000053ab000011804000000015554]
  0x0000000000010112 0x2 0x0 [(1, ONE)] = true := by decide +kernel

/-- 95_test_vectors.md V13. -/
theorem test_fp_neg_zero : runs [0, 0]
  0x0000000000010213 0x2 0x0 [(2, 0)] = true := by decide +kernel

/-- 95_test_vectors.md V14. -/
theorem test_fp_mul : runs [0, montInt 7, montInt 9]
  0x0000000002010314 0x2 0x0 [(3, montInt 63)] = true := by decide +kernel

/-- 95_test_vectors.md V15. -/
theorem test_fp_sqr : runs [0, montInt (P - 1)]
  0x0000000000010115 0x2 0x0 [(1, ONE)] = true := by decide +kernel

/-- 95_test_vectors.md V16. -/
theorem test_fp_mont : runs [0, 7]
  0x0000000000010116 0x2 0x0 [(1, montInt 7)] = true := by decide +kernel

/-- 95_test_vectors.md V17. -/
theorem test_fp_demont : runs [0, montInt 7]
  0x0000000000010217 0x2 0x0 [(2, 7)] = true := by decide +kernel

/-- 95_test_vectors.md V18. -/
theorem test_fp_redc_top : runs [0, 0, 0, 0,
    2 ^ 384 - 1,
    P - 1]
  0x0000000005040618 0x2 0x0 [(6, 0x5024ae85084d9b05dbd438f06fc594c4cdfa0709adc84d632f22927e21b885b9ecaed89d8bb0503c52b7da6c7f4628b)] = true := by decide +kernel

/-- 95_test_vectors.md V20. -/
theorem test_fp_exp_zero : runs [0, 0, 0]
  0x0000000002010319 0x2 0x0 [(3, ONE)] = true := by decide +kernel

/-- 95_test_vectors.md V22. -/
theorem test_fp_invup_zero : runs [0, 0]
  0x000000000001021A 0x12 0x0 [(2, 0)] = true := by decide +kernel

/-- 95_test_vectors.md V28. -/
theorem test_fp_eq : runs [0, montInt 7, montInt 7]
  0x000000000201001E 0xa 0x0 [] = true := by decide +kernel

/-- 95_test_vectors.md V29. -/
theorem test_fp_iszero : runs [0, 0]
  0x000000000001001F 0xa 0x0 [] = true := by decide +kernel

/-- 95_test_vectors.md V44. -/
theorem test_fp2_mul : runs [ONE, montInt 2, montInt 3, montInt 4]
  0x0000000002000424 0x2 0x0 [(4, montInt (P - 5)), (5, montInt 10)] = true := by decide +kernel

/-- 95_test_vectors.md V46. -/
theorem test_fp2_mulnr : runs [ONE, montInt 2]
  0x0000000000000426 0x2 0x0 [(4, montInt (P - 1)), (5, montInt 3)] = true := by decide +kernel

/-- 95_test_vectors.md V42. -/
theorem test_fp2_dbl : runs [ONE, montInt 2]
  0x0000000000000422 0x2 0x0 [(4, montInt 2), (5, montInt 4)] = true := by decide +kernel

/-- 95_test_vectors.md V54. -/
theorem test_fp2_eq : runs [ONE, montInt 2, ONE, montInt 3]
  0x000000000200002A 0x2 0x0 [] = true := by decide +kernel

/-- 95_test_vectors.md V100. -/
theorem test_g1_dbl : runs [montInt G1X, montInt G1Y, ONE]
  0x0000000000000350 0x2 0x0 [(3, 0xce377ca1af03fa7e280d22f17bc05badf15559d79828ecd33ad17c51ad0c653dc1be65000d769d2103e61f4bdda902b),
    (4, 0x15c2f5f94df1f750628c04a2e7fb8e203ac292fd4559e0f713639d9f8c73cebea8cd3dd3a683ef06111405902b1882bf),
    (5, 0x17787df8a01144d41c39187f5a00b380a358b052a080a329bab2be26ae0e4b9d1844c634f231fb1d755927aa19ce44e2)] = true := by decide +kernel

/-- 95_test_vectors.md V102. -/
theorem test_g1_add : runs [montInt G1X, montInt G1Y, ONE,
    0xce377ca1af03fa7e280d22f17bc05badf15559d79828ecd33ad17c51ad0c653dc1be65000d769d2103e61f4bdda902b,
    0x15c2f5f94df1f750628c04a2e7fb8e203ac292fd4559e0f713639d9f8c73cebea8cd3dd3a683ef06111405902b1882bf,
    0x17787df8a01144d41c39187f5a00b380a358b052a080a329bab2be26ae0e4b9d1844c634f231fb1d755927aa19ce44e2]
  0x0000000003000951 0x2 0x0 [(9, 0x9799eff1e1f0bf565d67f787f5d664df3b851b5b80e374a1c9f991f4e00fa9daa1c443eb792c2a2740d6a16fa3a0d3b),
    (10, 0x69d9eb743ea1b064da48c13f1d55164ff58b5894c67e401e99b562facf0a4e58153c6d906370e85065c5bf0af4abfd3),
    (11, 0x8f5d1cbc42749fcdac7c4c0d42fb65abac6c0b44eb507884d5c749f171ec33b4353eb0c1518181ab169030ed43e5f9f)] = true := by decide +kernel

/-- 95_test_vectors.md V-E1. -/
theorem test_illegal_opcode : runs []
  0x0000000000000004 0x106 0x0 [] = true := by decide +kernel

/-- 95_test_vectors.md V-E2. -/
theorem test_reserved_bits : runs []
  0x1000000000000000 0x206 0x700 [] = true := by decide +kernel

/-- 95_test_vectors.md V-E4. -/
theorem test_const_reserved : runs []
  0x0000000000000003 0x206 0x500 [] = true := by decide +kernel

/-- 95_test_vectors.md V-E7. -/
theorem test_length_mismatch : runs []
  0x0001020003002872 0x306 0x600 [] = true := by decide +kernel

/-- 95_test_vectors.md V-E8. -/
theorem test_slot_range : runs []
  0x000000000C00FA40 0x406 0x1fa [] = true := by decide +kernel

/-- 95_test_vectors.md V-E10. -/
theorem test_noncanonical : runs [montInt 7, P]
  0x0000000001000210 0x506 0x301 [(0, montInt 7), (1, P)] = true := by decide +kernel

/-- 95_test_vectors.md V-E11. -/
theorem test_noncanonical_index : runs [montInt G1X, montInt G1Y, ONE, 1, 1,
    P + 1]
  0x000202000A002872 0x506 0x10205 [(0, montInt G1X), (1, montInt G1Y), (2, ONE), (3, 1), (4, 1), (5,
    P + 1)] = true := by decide +kernel

/-- 95_test_vectors.md V-E12. -/
theorem test_redc_top : runs [0, 0, 0, 0, 0, P]
  0x0000000005040618 0x506 0x305 [(4, 0), (5, P)] = true := by decide +kernel

/-! ### Functions of the larger types, on the spec's values -/

/-- 95_test_vectors.md V63. -/
theorem test_fp6_mul :
    Fp6.mul ⟨⟨1, 2⟩, ⟨3, 4⟩, ⟨5, 6⟩⟩ ⟨⟨7, 8⟩, ⟨9, 10⟩, ⟨11, 12⟩⟩ =
      ⟨⟨-223, 176⟩, ⟨-165, 189⟩, ⟨-39, 182⟩⟩ := by decide +kernel

/-- 95_test_vectors.md S7. -/
theorem test_fp6_mulby01 :
    Fp6.mulBy01 ⟨⟨1, 2⟩, ⟨3, 4⟩, ⟨5, 6⟩⟩ ⟨7, 8⟩ ⟨9, 10⟩ =
      ⟨⟨-128, 111⟩, ⟨-22, 80⟩, ⟨-26, 148⟩⟩ := by decide +kernel

/-- 95_test_vectors.md V80. -/
theorem test_fp12_sqr :
    Fp12.sqr ⟨⟨⟨1, 0⟩, ⟨0, 0⟩, ⟨0, 0⟩⟩,
      ⟨⟨1, 0⟩, ⟨0, 0⟩, ⟨0, 0⟩⟩⟩ =
    ⟨⟨⟨1, 0⟩, ⟨1, 0⟩, ⟨0, 0⟩⟩,
      ⟨⟨2, 0⟩, ⟨0, 0⟩, ⟨0, 0⟩⟩⟩ := by decide +kernel

/-- 95_test_vectors.md V81. -/
theorem test_fp12_cycsqr :
    Fp12.cycSqr ⟨⟨⟨1, 0⟩, ⟨0, 0⟩, ⟨0, 0⟩⟩,
      ⟨⟨1, 0⟩, ⟨0, 0⟩, ⟨0, 0⟩⟩⟩ =
    ⟨⟨⟨1, 0⟩, ⟨3, 0⟩, ⟨0, 0⟩⟩,
      ⟨⟨2, 0⟩, ⟨0, 0⟩, ⟨0, 0⟩⟩⟩ := by decide +kernel

/-- 95_test_vectors.md V86. -/
theorem test_fp12_mulby014 :
    Fp12.mul ⟨⟨⟨1, 2⟩, ⟨3, 4⟩, ⟨5, 6⟩⟩,
      ⟨⟨7, 8⟩, ⟨9, 10⟩, ⟨11, 12⟩⟩⟩
    (.shape014 ⟨1, 1⟩ ⟨2, 0⟩ ⟨0, 3⟩) =
    ⟨⟨⟨-60, 22⟩, ⟨-68, 8⟩, ⟨-19, 40⟩⟩,
      ⟨⟨-36, 58⟩, ⟨7, 38⟩, ⟨5, 52⟩⟩⟩ := by decide +kernel

/-- 95_test_vectors.md V87. -/
theorem test_fp12_mulby034 :
    Fp12.mul ⟨⟨⟨1, 2⟩, ⟨3, 4⟩, ⟨5, 6⟩⟩,
      ⟨⟨7, 8⟩, ⟨9, 10⟩, ⟨11, 12⟩⟩⟩
    (.shape034 ⟨1, 1⟩ ⟨2, 0⟩ ⟨0, 3⟩) =
    ⟨⟨⟨-60, 46⟩, ⟨-56, 20⟩, ⟨-7, 52⟩⟩,
      ⟨⟨-32, 16⟩, ⟨-1, 30⟩, ⟨-3, 44⟩⟩⟩ := by decide +kernel

/-- 95_test_vectors.md V82. -/
theorem test_fp12_conj :
    Fp12.conj ⟨⟨⟨1, 0⟩, ⟨0, 0⟩, ⟨0, 0⟩⟩,
      ⟨⟨1, 0⟩, ⟨0, 0⟩, ⟨0, 0⟩⟩⟩ =
    ⟨⟨⟨1, 0⟩, ⟨0, 0⟩, ⟨0, 0⟩⟩,
      ⟨⟨-1, 0⟩, ⟨0, 0⟩, ⟨0, 0⟩⟩⟩ := by decide +kernel

/-- 95_test_vectors.md V120. -/
theorem test_g2_dbl :
    dblPt ⟨⟨G2X0, G2X1⟩, ⟨G2Y0, G2Y1⟩, ⟨1, 0⟩⟩ =
    (⟨⟨0x177d52dd65245f8908a03288adcd396f489ef87ae23fe110c5aa48bc208fbd1a0ed403df5b1ac137922b915f1f38ec37, 0xcf8158b9e689553d58194f79863fe02902c5f169f0d4ddf46e23f15bb4f24304a8e26f1e5febc57b750d1c3dc4261d8⟩,
      ⟨0x65ae9215806e8a55fd2d9ec4af9d2d448599cdb85d9080b2c9b4766434c33d103730c92c30a69d0602a8804c2a7c65f, 0xe9c342d8a6d4b3a1cbd02c7bdc0e0aa304de41a04569ae33184419e66bbc0271c361c973962955ba6405f0e51beb98b⟩,
      ⟨0x19cbaa4ee4fadc2319939b8db45c6a355bfb3755197ba74eda8534d2a2c1a2592475939877594513c326a90c11705002, 0xc0d89405d4e69986559a56057851733967c50fd0b4ec75e4ce92556ae5d33567e6e1a4eb9d83b4355520ebfe0bef37c⟩⟩ : Jac Fp2) := by decide +kernel

/-- 95_test_vectors.md V122. -/
theorem test_g2_add :
    addPt ⟨⟨G2X0, G2X1⟩, ⟨G2Y0, G2Y1⟩, ⟨1, 0⟩⟩
    ⟨⟨0x177d52dd65245f8908a03288adcd396f489ef87ae23fe110c5aa48bc208fbd1a0ed403df5b1ac137922b915f1f38ec37, 0xcf8158b9e689553d58194f79863fe02902c5f169f0d4ddf46e23f15bb4f24304a8e26f1e5febc57b750d1c3dc4261d8⟩, ⟨0x65ae9215806e8a55fd2d9ec4af9d2d448599cdb85d9080b2c9b4766434c33d103730c92c30a69d0602a8804c2a7c65f, 0xe9c342d8a6d4b3a1cbd02c7bdc0e0aa304de41a04569ae33184419e66bbc0271c361c973962955ba6405f0e51beb98b⟩, ⟨0x19cbaa4ee4fadc2319939b8db45c6a355bfb3755197ba74eda8534d2a2c1a2592475939877594513c326a90c11705002, 0xc0d89405d4e69986559a56057851733967c50fd0b4ec75e4ce92556ae5d33567e6e1a4eb9d83b4355520ebfe0bef37c⟩⟩ =
    (⟨⟨0x67bc516822bc8d4fd256db0ba5f7fe05c2c5a445f6e820f50d9b61124c4e6b8fcafef4bf2266ea0455b3550ab8434e7, 0x8a48be82c78bdb9db5d4fb1a5d3e56c37d8a95e2e3c02cd5141dce450fcfaabb6d3c45a73578580a426ea52a4dcc68e⟩,
      ⟨0xb8ff66958391b51c9b5c51a7b58bb61d7558dec93f1c6924fef186968b821574331f9a006316ead08550c8fe9b9c313, 0xd2ee2718945f61118bb66f7284e6cec3dd8409980cbb6f03fa584d85b9c2dcb5a34c27b09d17632c6094634a8a2e6f8⟩,
      ⟨0xb8a3bfd9baf8eca305b9d63f3cc4fd03623a0ca73f48d8f4c8888c4db84138bb0e240749faeb8e95c23f6ab0981e1e9, 0x5d8c322a6d0ce02d8e3355c2ce89473462bfb378f60f0838bd3984c6ebcf8a34d4ece702da16a1c7374a541dd6768e⟩⟩ : Jac Fp2) := by decide +kernel

/-- 95_test_vectors.md V140. -/
theorem test_line_dbl :
    lineDouble ⟨⟨G2X0, G2X1⟩, ⟨G2Y0, G2Y1⟩, ⟨1, 0⟩⟩ G1X G1Y =
    (⟨⟨0x15b51419e1a418afdd7594d2d91e38f5b69596dc2b4ab67c5f16a2f6e6835c1441d7e6b666cc01fec20379c2ad5a1b14, 0xddbd44b20d059abd10ff0211da4010414a89c4c2cab430b5d4d7ff4c26da454b8669b7443a386a0142022f66315e522⟩,
      ⟨0xca1eee3a640cd25732889ec405f296ea89a3759ce447546f06a8e8ef77772c0a93e7dd28dbd30f6048c874e9507cb3d, 0xaced63d97969456a5e5a04a51481396d8b3e734932a00cee7a2851d263518f525f60585bb17ce779d6fabb1b647aae1⟩,
      ⟨0x111cbe5ca8e801ac4bfcbda6449c85d5845185f19faa3ff62eb97344e4a9071534bbbdb5e0a94790d841b9a1794849f2, 0x1623280783479dd64e3a63f3f76dcf270a36099ae925ccef70f12e04dd274d326d1dffc5fabf378f4e8373068619f329⟩⟩,
     ⟨⟨0x177d52dd65245f8908a03288adcd396f489ef87ae23fe110c5aa48bc208fbd1a0ed403df5b1ac137922b915f1f38ec37, 0xcf8158b9e689553d58194f79863fe02902c5f169f0d4ddf46e23f15bb4f24304a8e26f1e5febc57b750d1c3dc4261d8⟩,
      ⟨0x65ae9215806e8a55fd2d9ec4af9d2d448599cdb85d9080b2c9b4766434c33d103730c92c30a69d0602a8804c2a7c65f, 0xe9c342d8a6d4b3a1cbd02c7bdc0e0aa304de41a04569ae33184419e66bbc0271c361c973962955ba6405f0e51beb98b⟩,
      ⟨0x19cbaa4ee4fadc2319939b8db45c6a355bfb3755197ba74eda8534d2a2c1a2592475939877594513c326a90c11705002, 0xc0d89405d4e69986559a56057851733967c50fd0b4ec75e4ce92556ae5d33567e6e1a4eb9d83b4355520ebfe0bef37c⟩⟩) := by decide +kernel

/-- 95_test_vectors.md V141. -/
theorem test_line_add :
    lineAddition ⟨⟨0x177d52dd65245f8908a03288adcd396f489ef87ae23fe110c5aa48bc208fbd1a0ed403df5b1ac137922b915f1f38ec37, 0xcf8158b9e689553d58194f79863fe02902c5f169f0d4ddf46e23f15bb4f24304a8e26f1e5febc57b750d1c3dc4261d8⟩,
      ⟨0x65ae9215806e8a55fd2d9ec4af9d2d448599cdb85d9080b2c9b4766434c33d103730c92c30a69d0602a8804c2a7c65f, 0xe9c342d8a6d4b3a1cbd02c7bdc0e0aa304de41a04569ae33184419e66bbc0271c361c973962955ba6405f0e51beb98b⟩,
      ⟨0x19cbaa4ee4fadc2319939b8db45c6a355bfb3755197ba74eda8534d2a2c1a2592475939877594513c326a90c11705002, 0xc0d89405d4e69986559a56057851733967c50fd0b4ec75e4ce92556ae5d33567e6e1a4eb9d83b4355520ebfe0bef37c⟩⟩
    ⟨G2X0, G2X1⟩ ⟨G2Y0, G2Y1⟩ G1X G1Y =
    (⟨⟨0xd697f709888849326c345b38879fe97a204c51b2c50bcca39d84c9b27a04012b1f7769cd510f827e5b3629d2a86d4a5, 0x1129ab6f9e9f99d291f1bf227211dfe09dc1cddb8b5236305c069a4f2833ed3fae5cb92c91c120aa09febe71c5db3e46⟩,
      ⟨0x17bf329a4417a5055eb58027813817a7eb43f20af641cbe1718ff6ed1ce6cb8be4d11738c6b8ae1bb91d53880d77613c, 0x138352650fe5b11f96db5e6e21bff0c9ba9de8621fc2ac946d9facfb43ff4bf7811abe6dff351946f3862c7477033c13⟩,
      ⟨0x10ce22043412c1fc5c3c9e6f7dfabde530e9eac9c604f73d90b17b369cfd8e6566209d05d76fcbcd5a778e397c9256a3, 0x4fa2d9d349f0dc29477c60ad9dab7687729203ca7597757daf50c08b16cef11cfc2ada275c67b5454a163054115f64d⟩⟩,
     ⟨⟨0x67bc516822bc8d4fd256db0ba5f7fe05c2c5a445f6e820f50d9b61124c4e6b8fcafef4bf2266ea0455b3550ab8434e7, 0x8a48be82c78bdb9db5d4fb1a5d3e56c37d8a95e2e3c02cd5141dce450fcfaabb6d3c45a73578580a426ea52a4dcc68e⟩,
      ⟨0xe711b80e146cb488165e29bc7f2f1758d21bd985f934c2d1741ba378df8d4ccdb7a065eab229152b1a9f3701645e798, 0xcd22f78b039f089326040bf1afd3feb269f0aeb72b95bcf278b4dc89b14c858c4773d83a78289ccf3f5b9cb575cc3b3⟩,
      ⟨0xe76d5ec9dd057d01ac00a524f7f5d072e53aaba7f9085301aa849dc1b2ce2986dc9bf8a11a547165ddb0954f67dc8c2, 0x19a385b80f12d9ba1d8d7460807d239030148bd17a8f03b72e73991c2fc52699e9d71317ae79e95df2c7b5abe229341d⟩⟩) := by decide +kernel

/-- 95_test_vectors.md V67. -/
theorem test_fp6_frob :
    frob6 ⟨⟨1, 0⟩, ⟨1, 0⟩, ⟨1, 0⟩⟩ 1 =
    ⟨⟨1, 0⟩, ⟨0, 0x1a0111ea397fe699ec02408663d4de85aa0d857d89759ad4897d29650fb85f9b409427eb4f49fffd8bfd00000000aaac⟩,
      ⟨0x1a0111ea397fe699ec02408663d4de85aa0d857d89759ad4897d29650fb85f9b409427eb4f49fffd8bfd00000000aaad, 0⟩⟩ := by decide +kernel

/-- 95_test_vectors.md V52. -/
theorem test_fp2_sqrt :
    fp2Sqrt ⟨-3, 4⟩ = some ⟨1, 2⟩ := by decide +kernel

/-! ### Slots of a small state -/

theorem le_of_mem_cells {c : Host.Cell} {i : Nat} {l : List Nat} (h : c ∈ cells i l) :
    slotOffset i ≤ c.1 ∧ c.1 < slotOffset (i + l.length) := by
  induction l generalizing i with
  | nil => simp [cells] at h
  | cons v l ih =>
    rw [cells, List.mem_append] at h
    simp only [List.length_cons, slotOffset] at *
    rcases h with h | h
    · have := mem_bytesOf h; omega
    · have := ih h; omega

theorem wf_cells (i : Nat) (l : List Nat) : (cells i l).wf = true := by
  induction l generalizing i with
  | nil => rfl
  | cons v l ih =>
    refine wf_iff.2 (List.pairwise_append.2 ⟨pairwise_bytesOf _ _ _, wf_iff.1 (ih _), ?_⟩)
    intro c hc d hd
    have h1 := mem_bytesOf hc
    have h2 := le_of_mem_cells hd
    simp only [slotOffset] at *
    omega

theorem range_bytesOf (off v : Nat) : (bytesOf off v 48).range off 48 = bytesOf off v 48 :=
  filter_bytesOf fun c h1 h2 => by simp [h1, h2]

theorem range_bytesOf_nil {o v off : Nat} (h : o + 48 ≤ off) : (bytesOf o v 48).range off 48 = [] :=
  filter_bytesOf_nil fun c _ h2 => by
    rw [Bool.and_eq_false_iff, decide_eq_false_iff_not]
    exact .inl (by omega)

theorem range_append (m m' : Memory) (off n : Nat) :
    Memory.range (m ++ m') off n = m.range off n ++ m'.range off n := List.filter_append _ _

theorem range_cells {i k : Nat} {l : List Nat} (h : k < l.length) :
    (cells i l).range (slotOffset (i + k)) 48 = bytesOf (slotOffset (i + k)) l[k] 48 := by
  induction l generalizing i k with
  | nil => simp at h
  | cons v l ih =>
    rw [cells, range_append]
    cases k with
    | zero =>
      have : (cells (i + 1) l).range (slotOffset i) 48 = [] := by
        rw [Memory.range, List.filter_eq_nil_iff]
        intro c hc hf
        have h1 := (le_of_mem_cells hc).1
        have h2 : slotOffset (i + 1) = slotOffset i + 64 := by unfold slotOffset; omega
        rw [Bool.and_eq_true, decide_eq_true_eq, decide_eq_true_eq] at hf
        omega
      rw [Nat.add_zero, this, range_bytesOf, List.append_nil]
      rfl
    | succ k =>
      have := ih (i := i + 1) (k := k) (by simpa using h)
      rw [show i + 1 + k = i + (k + 1) by omega] at this
      rw [this, range_bytesOf_nil (by simp only [slotOffset]; omega)]
      rfl

theorem readSlot_holding {l : List Nat} {k : Nat} (h : k < l.length) :
    (holding l).em.readSlot k = some (BitVec.ofNat 384 l[k]) := by
  have := range_cells (i := 0) h
  rw [Nat.zero_add] at this
  have e : (256 : Nat) ^ 48 = 2 ^ 384 := by decide +kernel
  show (cells 0 l).readSlot k = _
  simp only [Memory.readSlot, this, length_bytesOf, if_true, littleEndian_bytesOf, e]
  congr 1
  apply BitVec.eq_of_toNat_eq
  simp only [BitVec.toNat_ofNat, Nat.mod_mod]

theorem slotInt_holding {l : List Nat} {k : Nat} (h : l.getD k R < R) :
    (holding l).slotInt k = l.getD k R := by
  have hk : k < l.length := by
    by_contra hk
    rw [List.getD_eq_default _ _ (by omega)] at h
    exact lt_irrefl _ h
  rw [State.slotInt, readSlot_holding hk, Option.getD_some, BitVec.toNat_ofNat]
  rw [List.getD_eq_getElem _ _ hk] at h ⊢
  exact Nat.mod_eq_of_lt h

theorem typed_holding {l : List Nat} {a : SlotNo} {w : Nat} (h : ∀ k < w, l.getD (a.toNat + k) P < P)
    (hl : a.toNat + w ≤ 256) : Typed (holding l) a w := by
  refine ⟨.inr hl, fun k hk => ?_⟩
  have hkl : a.toNat + k < l.length := by
    by_contra hc
    have := h k hk
    rw [List.getD_eq_default _ _ (by omega)] at this
    exact lt_irrefl _ this
  have := h k hk
  rw [List.getD_eq_getElem _ _ hkl] at this
  rw [readSlot_holding hkl]
  simp [Nat.mod_eq_of_lt (this.trans p_lt_r), this]

theorem raw_holding {l : List Nat} {a : SlotNo} {w : Nat} (h : a.toNat + w ≤ l.length)
    (hl : l.length ≤ 256) : Raw (holding l) a w :=
  ⟨.inr (h.trans hl), fun k hk => by rw [readSlot_holding (show a.toNat + k < l.length by omega)]; rfl⟩

/-- The value slot `k` of `l` stands for. -/
def valueAt (l : List Nat) (k : Nat) : Fp := ((l.getD k R * RINV : Nat) : Fp)

theorem val1_holding {l : List Nat} {k : Nat} (h : l.getD k R < R) :
    (holding l).val1 k = valueAt l k := by rw [State.val1, slotInt_holding h, valueAt]

theorem readG1_holding {l : List Nat} {k : Nat} (h : ∀ j < 3, l.getD (k + j) R < R) :
    (holding l).readG1 k = ⟨valueAt l k, valueAt l (k + 1), valueAt l (k + 2)⟩ := by
  rw [State.readG1, val1_holding (k := k) (h 0 (by omega)), val1_holding (k := k + 1) (h 1 (by omega)),
    val1_holding (k := k + 2) (h 2 (by omega))]

theorem readG2_holding {l : List Nat} {k : Nat} (h : ∀ j < 6, l.getD (k + j) R < R) :
    (holding l).readG2 k = ⟨⟨valueAt l k, valueAt l (k + 1)⟩, ⟨valueAt l (k + 2), valueAt l (k + 3)⟩,
      ⟨valueAt l (k + 4), valueAt l (k + 5)⟩⟩ := by
  rw [State.readG2, State.val2, State.val2, State.val2,
    show k + 2 + 1 = k + 3 from rfl, show k + 4 + 1 = k + 5 from rfl, val1_holding (k := k) (h 0 (by omega)),
    val1_holding (k := k + 1) (h 1 (by omega)), val1_holding (k := k + 2) (h 2 (by omega)), val1_holding (k := k + 3) (h 3 (by omega)),
    val1_holding (k := k + 4) (h 4 (by omega)), val1_holding (k := k + 5) (h 5 (by omega))]

theorem readSlot_holding_none {l : List Nat} {k : Nat} (h : l.length ≤ k) :
    (holding l).em.readSlot k = none := by
  have : (cells 0 l).range (slotOffset k) 48 = [] := by
    rw [Memory.range, List.filter_eq_nil_iff]
    intro c hc hf
    have h1 := (le_of_mem_cells hc).2
    have h2 : slotOffset (0 + l.length) ≤ slotOffset k := by unfold slotOffset; omega
    rw [Bool.and_eq_true, decide_eq_true_eq, decide_eq_true_eq] at hf
    omega
  show (cells 0 l).readSlot k = none
  simp only [Memory.readSlot, this, List.length_nil]
  rfl

/-! ### The demonstration state

Slots 0-2 the generator of G1, 3-8 that of G2, 9-11 and 12-17 points off their curves, 18-20 and 21-26
points on their curves outside the subgroups, 27-44 zeros, 45 p − 1 (a nonsquare), 46 zero, 47-48 the
square (1 + 2u)² of Fp2, 49-60 One of Fp12, 61 p, 62 the largest slot integer. -/

def demoInts : List Nat :=
  [montInt G1X, montInt G1Y, ONE] ++
  [montInt G2X0, montInt G2X1, montInt G2Y0, montInt G2Y1, ONE, 0] ++
  [ONE, ONE, ONE] ++ [ONE, 0, ONE, 0, ONE, 0] ++
  [0, montInt 2, ONE] ++
  [ONE, ONE,
   montInt 0x17faa6201231304f270b858dad9462089f2a5b83388e4b10773abc1eef6d193b9fce4e8ea2d9d28e3c3a315aa7de14ca,
   montInt 0xcc12449be6ac4e7f367e7242250427c4fb4c39325d3164ad397c1837a90f0ea1a534757df374dd6569345eb41ed76e,
   ONE, 0] ++
  List.replicate 18 0 ++ [P - 1, 0, montInt (P - 3), montInt 4] ++
  [ONE, 0, 0, 0, 0, 0, 0, 0, 0, 0, 0, 0] ++ [P, 2 ^ 384 - 1]

def demo : State := holding demoInts

theorem length_demo : demoInts.length = 63 := by decide +kernel

theorem demo_fits {d : SlotNo} {w : Nat} (h : d.toNat + w ≤ 256) : Fits demo d w := .inr h

/-- Slots 0 to 60 are canonical. -/
theorem demo_canonical : ∀ k < 61, demoInts.getD k P < P := by decide +kernel

theorem demo_typed {a : SlotNo} {w : Nat} (h : a.toNat + w ≤ 61) : Typed demo a w :=
  typed_holding (fun k hk => demo_canonical _ (by omega)) (by omega)

theorem demo_raw {a : SlotNo} {w : Nat} (h : a.toNat + w ≤ 63) : Raw demo a w :=
  raw_holding (by rw [length_demo]; exact h) (by rw [length_demo]; omega)

theorem demo_slots : ∀ k < 63, demoInts.getD k R < R := by decide +kernel

theorem demo_slot {k : Nat} (h : k < 63) : demo.slotInt k = demoInts.getD k R :=
  slotInt_holding (demo_slots k h)

theorem demo_read {k : Nat} (h : k < 63) :
    demo.em.readSlot k = some (BitVec.ofNat 384 (demoInts[k]'(length_demo.symm ▸ h))) :=
  readSlot_holding (by rw [length_demo]; exact h)

theorem demo_val1 {k : Nat} (h : k < 63) : demo.val1 k = valueAt demoInts k := val1_holding (demo_slots k h)

theorem demo_val2 {k : Nat} (h : k + 1 < 63) : demo.val2 k = ⟨valueAt demoInts k, valueAt demoInts (k + 1)⟩ := by
  rw [State.val2, demo_val1 (by omega), demo_val1 h]

theorem demo_g1 {k : Nat} (h : k + 2 < 63) : demo.readG1 k =
    ⟨valueAt demoInts k, valueAt demoInts (k + 1), valueAt demoInts (k + 2)⟩ :=
  readG1_holding fun j hj => demo_slots _ (by omega)

theorem demo_g2 {k : Nat} (h : k + 5 < 63) : demo.readG2 k =
    ⟨⟨valueAt demoInts k, valueAt demoInts (k + 1)⟩, ⟨valueAt demoInts (k + 2), valueAt demoInts (k + 3)⟩,
      ⟨valueAt demoInts (k + 4), valueAt demoInts (k + 5)⟩⟩ :=
  readG2_holding fun j hj => demo_slots _ (by omega)

theorem curve_0 : OnCurve1 (demo.readG1 0) := by rw [demo_g1 (by decide), ← onCurve1_iff]; decide +kernel
theorem curve_9 : ¬OnCurve1 (demo.readG1 9) := by rw [demo_g1 (by decide), ← onCurve1_iff]; decide +kernel
theorem curve_18 : OnCurve1 (demo.readG1 18) := by rw [demo_g1 (by decide), ← onCurve1_iff]; decide +kernel
theorem curve_27 : OnCurve1 (demo.readG1 27) := by rw [demo_g1 (by decide), ← onCurve1_iff]; decide +kernel
theorem twist_3 : OnCurve2 (demo.readG2 3) := by rw [demo_g2 (by decide), ← onCurve2_iff]; decide +kernel
theorem twist_12 : ¬OnCurve2 (demo.readG2 12) := by rw [demo_g2 (by decide), ← onCurve2_iff]; decide +kernel
theorem twist_21 : OnCurve2 (demo.readG2 21) := by rw [demo_g2 (by decide), ← onCurve2_iff]; decide +kernel

theorem sub_0 : InSubgroup (demo.readG1 0) := by
  rw [demo_g1 (by decide), ← inSubgroup_iff fp_inv_ok]; decide +kernel
theorem sub_18 : ¬InSubgroup (demo.readG1 18) := by
  rw [demo_g1 (by decide), ← inSubgroup_iff fp_inv_ok]; decide +kernel
theorem sub_27 : InSubgroup (demo.readG1 27) := by
  rw [demo_g1 (by decide), ← inSubgroup_iff fp_inv_ok]; decide +kernel
theorem sub2_3 : InSubgroup (demo.readG2 3) := by
  rw [demo_g2 (by decide), ← inSubgroup_iff fp2_inv_ok]; decide +kernel
theorem sub2_21 : ¬InSubgroup (demo.readG2 21) := by
  rw [demo_g2 (by decide), ← inSubgroup_iff fp2_inv_ok]; decide +kernel

/-- The reset state with one event and a STATUS.BUSY to come. -/
def facing (e : HostEvent) (busy : Bool) (w : Nat) : State :=
  { State.reset with inbox := [e], lcmd := BitVec.ofNat 64 w, status := { Status.zero with busy := busy } }

/-! ### Witnesses: the words and the machine -/

theorem witness_EncodeDecode : decode 0x0000000002010310#64 = .ok (.fpAdd 3#8 1#8 2#8) := rfl

theorem witness_IllegalOpcodes :
    (NextEngine (facing .engine true 0xFF04) [] ∧
      IllegalOpcode ((facing .engine true 0xFF04).lcmd.extractLsb' 0 8)) ∧
    (NextEngine (facing .engine true 0xFF) [] ∧
      IllegalOpcode ((facing .engine true 0xFF).lcmd.extractLsb' 0 8)) ∧
    ¬IllegalOpcode ((0x74#64).extractLsb' 0 8) := by
  refine ⟨⟨⟨rfl, rfl⟩, .inl (by decide)⟩, ⟨⟨rfl, rfl⟩, ?_⟩, ?_⟩
  · exact .inr (.inr (.inr (.inr (.inr (.inr (by decide))))))
  · unfold IllegalOpcode; decide

/-- One word for each clause: bit 63, CHK, field C of FP_ADD, field D of NOP, CONST ids 0 and 0x10. -/
theorem witness_ReservedFields :
    (NextEngine (facing .engine true 0x8000000000000000) [] ∧ (rowOf 0x00#8).isSome = true ∧
      (0x8000000000000000#64).extractLsb' 57 7 ≠ 0#7) ∧
    (NextEngine (facing .engine true 0x0100000001000210) [] ∧ (rowOf 0x10#8).isSome = true ∧
      (0x0100000001000210#64).extractLsb' 57 7 = 0#7 ∧ (0x0100000001000210#64).getLsbD 56 = true) ∧
    (NextEngine (facing .engine true 0x0000000501000210) [] ∧
      (0x0000000501000210#64).extractLsb' 57 7 = 0#7 ∧ (0x0000000501000210#64).getLsbD 56 = false ∧
      checkedFields = [.d, .a, .b] ++ .c :: [.e, .f] ∧
      (∀ r, rowOf 0x10#8 = some r → (∀ y ∈ [FieldName.d, .a, .b], usesField r.uses y = true) ∧
        usesField r.uses .c = false) ∧ fieldByte 0x0000000501000210#64 .c ≠ 0#8) ∧
    (NextEngine (facing .engine true 0x0000000000000100) [] ∧ checkedFields = [] ++ .d :: [.a, .b, .c, .e, .f] ∧
      (∀ r, rowOf 0x00#8 = some r → usesField r.uses .d = false) ∧
      fieldByte 0x0000000000000100#64 .d ≠ 0#8) ∧
    (NextEngine (facing .engine true 0x0000000000000003) [] ∧
      (∀ r, rowOf 0x03#8 = some r → r.op = 0x03#8 ∧ ∀ y ∈ checkedFields, usesField r.uses y = true ∨
        fieldByte 0x0000100000000003#64 y = 0#8) ∧ fieldByte 0x0000000000000003#64 .e = 0#8 ∧
      0x10 ≤ (fieldByte 0x0000100000000003#64 .e).toNat) := by
  refine ⟨⟨⟨rfl, rfl⟩, rfl, by decide⟩, ⟨⟨rfl, rfl⟩, rfl, by decide, by decide⟩,
    ⟨⟨rfl, rfl⟩, by decide, by decide, rfl, ?_, by decide⟩, ⟨⟨rfl, rfl⟩, rfl, ?_, by decide⟩,
    ⟨rfl, rfl⟩, ?_, by decide, by decide⟩
  all_goals
    intro r hr
    obtain rfl := Option.some.inj hr
    decide

theorem witness_ResetValues : (facing .hardReset true 0x10).inbox = [.hardReset] := rfl

theorem witness_StepKeepsInvariant : State.reset.Inv ∧ ∃ t, step State.reset = .next t :=
  ⟨⟨rfl, by simp [State.reset], ⟨by decide, by decide⟩, rfl, by unfold StatusInv; decide⟩, _, rfl⟩

theorem witness_StepRunsCommand :
    ((facing .engine true 0x10).status.busy = true ∧
      decode (facing .engine true 0x10).lcmd = .ok (.fpAdd 0#8 0#8 0#8) ∧
      (facing .engine true 0x10).inbox = [.engine]) ∧
    ({ facing .engine true 0x10 with inbox := [] } : State).inbox = [] ∧
    (facing .engine false 0x10).status.busy = false ∧
    decode (BitVec.ofNat 64 0x2010310) = .ok (.fpAdd 3#8 1#8 2#8) := ⟨⟨rfl, rfl, rfl⟩, rfl, rfl, rfl⟩

theorem witness_Start :
    (NextWrite (facing (.write 0x008 8 1#64) false 0) 0x008 1#64 [] ∧
      (facing (.write 0x008 8 1#64) false 0).status.busy = false ∧ (1#64).getLsbD 0 = true ∧
      (1#64).getLsbD 2 = false) ∧
    (NextWrite (facing (.write 0x008 8 3#64) true 0) 0x008 3#64 [] ∧
      (facing (.write 0x008 8 3#64) true 0).status.busy = true ∧ (3#64).getLsbD 0 = true ∧
      (3#64).getLsbD 2 = false) ∧
    (NextWrite (facing (.write 0x008 8 5#64) true 0) 0x008 5#64 [] ∧ (5#64).getLsbD 0 = true ∧
      (5#64).getLsbD 2 = true) := by
  refine ⟨⟨rfl, rfl, ?_⟩, ⟨rfl, rfl, ?_⟩, rfl, ?_⟩ <;> decide

/-- The first and the last offset of the window; a hole, written and read; an empty slot, read. -/
theorem witness_SlotAccessWhileBusy :
    (NextWrite (facing (.write 0x4000 8 7#64) true 0) 0x4000 7#64 [] ∧
      (facing (.write 0x4000 8 7#64) true 0).status.busy = true) ∧
    (NextRead (facing (.read 0x7FF8 8) true 0) 0x7FF8 [] ∧
      (facing (.read 0x7FF8 8) true 0).status.busy = true) ∧
    (NextWrite (facing (.write 0x4030 8 7#64) true 0) 0x4030 7#64 [] ∧
      (facing (.write 0x4030 8 7#64) true 0).isLimb 0x4030 = false) ∧
    (NextRead (facing (.read 0x4030 8) true 0) 0x4030 [] ∧
      (facing (.read 0x4030 8) true 0).isLimb 0x4030 = false) ∧
    (NextRead (facing (.read 0x4000 8) true 0) 0x4000 [] ∧
      (facing (.read 0x4000 8) true 0).em.readSlot 0 = none) :=
  ⟨⟨rfl, rfl⟩, ⟨rfl, rfl⟩, ⟨rfl, by decide⟩, ⟨rfl, by decide⟩, rfl, rfl⟩

theorem witness_RegisterWrites :
    NextWrite (facing (.write 0x008 8 2#64) true 0) 0x008 2#64 [] ∧
    ((2#64).getLsbD 0 = false ∧ (2#64).getLsbD 2 = false) ∧
    NextWrite (facing (.write 0x010 8 34#64) false 0) 0x010 34#64 [] ∧
    NextWrite (facing (.write 0x018 8 9#64) true 0) 0x018 9#64 [] ∧
    NextWrite (facing (.write 0x028 8 9#64) true 0) 0x028 9#64 [] ∧
    NextWrite (facing (.write 0x3FF8 8 9#64) true 0) 0x3FF8 9#64 [] :=
  ⟨rfl, by decide, rfl, rfl, rfl, rfl⟩

theorem witness_RegisterReads :
    NextRead (facing (.read 0x000 8) true 0) 0x000 [] ∧ NextRead (facing (.read 0x008 8) true 0) 0x008 [] ∧
    NextRead (facing (.read 0x010 8) true 0) 0x010 [] ∧ NextRead (facing (.read 0x018 8) true 0) 0x018 [] ∧
    NextRead (facing (.read 0x020 8) true 0) 0x020 [] ∧ NextRead (facing (.read 0x028 8) true 0) 0x028 [] ∧
    NextRead (facing (.read 0x3FF8 8) true 0) 0x3FF8 [] := ⟨rfl, rfl, rfl, rfl, rfl, rfl, rfl⟩

/-- Every slot holds a value: limb 0 of slot 0, limb 5 of slot 255. -/
theorem witness_SlotWindow :
    ({ holding (List.replicate 256 5) with inbox := [.read 0x4000 8] } : State).em.wf = true ∧
    NextRead { holding (List.replicate 256 5) with inbox := [.read 0x4000 8] } (0x4000 + 64 * 0 + 8 * 0) [] ∧
    (holding (List.replicate 256 5)).em.readSlot 0 = some 5#384 ∧
    NextWrite { holding (List.replicate 256 5) with inbox := [.write 0x7FE8 8 6#64] }
      (0x4000 + 64 * 255 + 8 * 5) 6#64 [] ∧
    (holding (List.replicate 256 5)).em.readSlot 255 = some 5#384 := by
  refine ⟨wf_cells _ _, rfl, ?_, rfl, ?_⟩
  · rw [readSlot_holding (by rw [List.length_replicate]; decide), List.getElem_replicate]
  · rw [readSlot_holding (by rw [List.length_replicate]; decide), List.getElem_replicate]

/-- A slot that does not exist, and limbs 6 and 7 of one that does. -/
theorem witness_SlotHoles :
    (NextRead { facing (.read 0x7FC0 8) false 0 with nslots := 255 } (0x4000 + 64 * 255 + 8 * 0) [] ∧
      ({ facing (.read 0x7FC0 8) false 0 with nslots := 255 } : State).nslots ≤ 255) ∧
    NextRead (facing (.read 0x4030 8) false 0) (0x4000 + 64 * 0 + 8 * 6) [] ∧
    NextWrite (facing (.write 0x7FF8 8 1#64) false 0) (0x4000 + 64 * 255 + 8 * 7) 1#64 [] ∧
    (facing (.write 0x7FF8 8 1#64) false 0).status.busy = false :=
  ⟨⟨rfl, by decide⟩, rfl, rfl, rfl⟩

theorem witness_EmptySlotReads :
    (facing (.read 0x4000 8) false 0).em.wf = true ∧
    NextRead (facing (.read 0x4000 8) false 0) (0x4000 + 64 * 0 + 8 * 0) [] ∧
    (facing (.read 0x4000 8) false 0).em.readSlot 0 = none ∧
    (facing (.read 0x4000 8) false 0).status.busy = false := ⟨rfl, rfl, rfl, rfl⟩

/-- Idle; busy with a word that is no command, and with one that fails SLOT_RANGE; busy with one that
passes. -/
theorem witness_SoftReset :
    (NextWrite (facing (.write 0x008 8 4#64) false 0) 0x008 4#64 [] ∧ (4#64).getLsbD 2 = true ∧
      (facing (.write 0x008 8 4#64) false 0).status.busy = false) ∧
    decode (facing (.write 0x008 8 7#64) true 0x04).lcmd = .error .illegalOpcode ∧
    (decode (facing (.write 0x008 8 7#64) true 0x000002000000FF02).lcmd = .ok (.zero 0xFF#8 2#8) ∧
      earlyError (.zero 0xFF#8 2#8) 256 ≠ none) ∧
    (NextWrite (facing (.write 0x008 8 7#64) true 0x000002000000FE02) 0x008 7#64 [] ∧ (7#64).getLsbD 2 = true ∧
      decode (facing (.write 0x008 8 7#64) true 0x000002000000FE02).lcmd = .ok (.zero 0xFE#8 2#8) ∧
      earlyError (.zero 0xFE#8 2#8) 256 = none) := by
  refine ⟨⟨rfl, by decide, rfl⟩, rfl, ⟨rfl, by decide⟩, rfl, by decide, rfl, by decide⟩

theorem witness_BusErrors :
    (facing (.read 0x4004 8) false 0).inbox = .read (0 + 0x4004) 8 :: [] ∧ (8 ≠ 8 ∨ 0x4004 % 8 ≠ 0) ∧
    (facing (.write 0x010 4 1#64) false 0).inbox = .write (0 + 0x010) 4 1#64 :: [] ∧
    (4 ≠ 8 ∨ 0x010 % 8 ≠ 0) := ⟨rfl, by decide, rfl, by decide⟩

theorem witness_ReadsChangeNothing :
    (∃ t, step (facing (.read 0x010 8) true 0) = .next t) ∧
    ∃ t, step (facing (.read 0x4000 8) true 0) = .next t := ⟨⟨_, rfl⟩, _, rfl⟩

theorem witness_Interrupt :
    (∃ t, (facing .engine true 0).runLatched = .next t) ∧
    (∃ t, step (facing (.write 0x008 8 1#64) false 0) = .next t) ∧
    (∃ t, step (facing (.write 0x008 8 2#64) true 0) = .next t) ∧
    (∃ t, step (facing (.write 0x008 8 4#64) true 0) = .next t) ∧
    (∃ t, step (facing (.write 0x010 8 2#64) false 0) = .next t) ∧
    ∃ t, step (facing .hardReset true 0) = .next t :=
  ⟨⟨_, rfl⟩, ⟨_, rfl⟩, ⟨_, rfl⟩, ⟨_, rfl⟩, ⟨_, rfl⟩, _, rfl⟩

/-! ### Witnesses: every command -/

theorem witness_ExecFrame : ∃ t, exec (.zero 254#8 2#8) State.reset = .next t := ⟨_, rfl⟩

theorem witness_AbortIsPrecise :
    ∃ t, (facing .engine true 0x04).runLatched = .next t ∧ t.status.err = true := ⟨_, rfl, rfl⟩

/-- Slot A holds a canonical value, slot B none. -/
theorem witness_EmptySlotFaults :
    earlyError (.fpAdd 255#8 0#8 63#8) demo.nslots = none ∧
    (∀ v, demo.em.readSlot 0 = some v → v.toNat < P) ∧ demo.em.readSlot 63 = none := by
  refine ⟨rfl, fun v hv => ?_, ?_⟩
  · rw [demo_read (by decide)] at hv
    obtain rfl := Option.some.inj hv
    decide +kernel
  · exact readSlot_holding_none (by rw [length_demo])

/-- The first operand out of range, and the last. -/
theorem witness_SlotRange :
    ((Instr.fp12Add 245#8 0#8 0#8).wellFormed = true ∧
      operandsOf (.fp12Add 245#8 0#8 0#8) = [] ++ destD 245#8 12 :: [input .a 0#8 12, input .b 0#8 12] ∧
      demo.nslots < (245#8).toNat + 12) ∧
    (operandsOf (.fp12Add 244#8 244#8 245#8) =
        [destD 244#8 12, input .a 244#8 12] ++ input .b 245#8 12 :: [] ∧ Fits demo 244#8 12) :=
  ⟨⟨rfl, rfl, by decide⟩, rfl, demo_fits (by decide)⟩

theorem witness_LengthMismatch : (1#8 : Imm) ≠ 2#8 ∧ (0#8 : Imm) ≠ 255#8 := by decide

/-- The first slot of A; the last slot of B; the last slot of an in/out D; the last slot of a point array
(pair 1); and FP_REDC with T = p·R. -/
theorem witness_Noncanonical :
    (demo.em.readSlot 61 = some (BitVec.ofNat 384 P) ∧ P ≤ (BitVec.ofNat 384 P).toNat) ∧
    (earlyError (.fpNeg 255#8 61#8) demo.nslots = none ∧
      operandsOf (.fpNeg 255#8 61#8) = [destD 255#8 1, input .a 61#8 1] ∧ Canonical demo 61 0) ∧
    (earlyError (.fp2Add 254#8 3#8 60#8) demo.nslots = none ∧ Canonical demo 3 2 ∧ Canonical demo 60 1) ∧
    (earlyError (.fp6Mulby1 56#8 3#8) demo.nslots = none ∧ Canonical demo 56 5 ∧
      operandsOf (.fp6Mulby1 56#8 3#8) = [inoutD 56#8 6, input .a 3#8 2]) ∧
    (earlyError (.miller 244#8 27#8 50#8 2#8 2#8 false) demo.nslots = none ∧ Canonical demo 27 6 ∧
      Canonical demo 50 11) ∧
    (Fits demo 255#8 1 ∧ Raw demo 46#8 1 ∧ Raw demo 61#8 1 ∧
      P * R ≤ demo.slotInt 46 + 2 ^ 384 * demo.slotInt 61) := by
  refine ⟨⟨?_, by decide +kernel⟩, ⟨rfl, rfl, fun k hk => absurd hk (by omega)⟩,
    ⟨rfl, (demo_typed (a := 3#8) (by decide)).2, (demo_typed (a := 60#8) (by decide)).2⟩,
    ⟨rfl, (demo_typed (a := 56#8) (by decide)).2, rfl⟩,
    ⟨rfl, (demo_typed (a := 27#8) (by decide)).2, (demo_typed (a := 50#8) (by decide)).2⟩,
    demo_fits (by decide), demo_raw (by decide), demo_raw (by decide), ?_⟩
  · rw [demo_read (by decide)]; rfl
  · rw [demo_slot (by decide), demo_slot (by decide)]; decide +kernel

/-- P_0 off the curve; Q_0 off the curve; with n = 1, so j = 0 is also the last. -/
theorem witness_NotOnCurve :
    (Fits demo 244#8 12 ∧ Typed demo 9#8 (3 * (1#8).toNat) ∧ Typed demo 12#8 (6 * (1#8).toNat) ∧
      ¬OnCurve1 (demo.readG1 9)) ∧
    (Typed demo 0#8 (3 * (1#8).toNat) ∧ OnCurve1 (demo.readG1 0) ∧ ¬OnCurve2 (demo.readG2 12)) :=
  ⟨⟨demo_fits (by decide), demo_typed (by decide), demo_typed (by decide), curve_9⟩,
    demo_typed (by decide), curve_0, twist_12⟩

theorem witness_NotInSubgroup :
    (Fits demo 244#8 12 ∧ Typed demo 18#8 (3 * (1#8).toNat) ∧ Typed demo 3#8 (6 * (1#8).toNat) ∧
      (OnCurve1 (demo.readG1 18) ∧ OnCurve2 (demo.readG2 3)) ∧ ¬InSubgroup (demo.readG1 18)) ∧
    (Typed demo 0#8 (3 * (1#8).toNat) ∧ Typed demo 21#8 (6 * (1#8).toNat) ∧
      (OnCurve1 (demo.readG1 0) ∧ OnCurve2 (demo.readG2 21)) ∧ InSubgroup (demo.readG1 0) ∧
      ¬InSubgroup (demo.readG2 21)) :=
  ⟨⟨demo_fits (by decide), demo_typed (by decide), demo_typed (by decide), ⟨curve_18, twist_3⟩, sub_18⟩,
    demo_typed (by decide), demo_typed (by decide), ⟨curve_0, twist_21⟩, sub_0, sub2_21⟩

/-! ### Witnesses: data and Fp -/

theorem witness_DataMovement :
    Fits demo 195#8 (61#8).toNat ∧ Raw demo 2#8 (61#8).toNat ∧ Fits demo 255#8 (0#8).toNat ∧
      Raw demo 0#8 (0#8).toNat :=
  ⟨demo_fits (by decide), demo_raw (by decide), .inl rfl, demo_raw (by decide)⟩

theorem witness_Constants :
    ((0x00#8 : Imm) = 0x00#8 ∨ 0x10 ≤ (0x00#8).toNat) ∧ ((0x10#8 : Imm) = 0x00#8 ∨ 0x10 ≤ (0x10#8).toNat) ∧
    Fits demo 244#8 12 ∧ Fits demo 255#8 1 :=
  ⟨by decide, by decide, demo_fits (by decide), demo_fits (by decide)⟩

theorem witness_MontgomeryReduction : P * R - 1 < P * R ∧ 0 < P * R := by decide +kernel

theorem witness_FpAdditive : Fits demo 255#8 1 ∧ Typed demo 0#8 1 ∧ Typed demo 45#8 1 :=
  ⟨demo_fits (by decide), demo_typed (by decide), demo_typed (by decide)⟩

theorem witness_FpMontgomery : Fits demo 255#8 1 ∧ Typed demo 45#8 1 ∧ Typed demo 45#8 1 :=
  ⟨demo_fits (by decide), demo_typed (by decide), demo_typed (by decide)⟩

/-- The largest T, p·R − 1. -/
theorem witness_FpReducer :
    Fits demo 255#8 1 ∧ Raw demo 62#8 1 ∧ Raw demo 45#8 1 ∧
      demo.slotInt 62 + 2 ^ 384 * demo.slotInt 45 = P * R - 1 := by
  refine ⟨demo_fits (by decide), demo_raw (by decide), demo_raw (by decide), ?_⟩
  rw [demo_slot (by decide), demo_slot (by decide)]; decide +kernel

theorem witness_RoundTrips_slots :
    Typed demo 45#8 1 ∧ Fits demo 255#8 1 ∧
    ((∃ t, exec (.fpMont 255#8 45#8) demo = .next t ∧ ∃ u, exec (.fpDemont 254#8 255#8) t = .next u) ∧
      ∃ t, exec (.fpDemont 255#8 45#8) demo = .next t ∧ ∃ u, exec (.fpMont 254#8 255#8) t = .next u) := by
  have hok : ∀ i, operandsOf i = opsDA 1 255#8 45#8 → i.wellFormed = true → firstStop i demo = none :=
    fun i ho hw => ok_DA ho hw (demo_fits (by decide)) (demo_typed (by decide))
  have hlt : demo.slotInt (45#8 : SlotNo).toNat < P := (demo_typed (a := 45#8) (w := 1) (by decide)).lt (by decide)
  refine ⟨demo_typed (by decide), demo_fits (by decide), ?_, ?_⟩
  · obtain ⟨t, h1, h2, -, h4, -⟩ := writes_of (i := .fpMont 255#8 45#8) (s := demo) (d := 255#8) (z := false)
      (post := fun _ => True) [redc (demo.slotInt (45#8 : SlotNo).toNat * R2)]
      (by show execFpMont _ _ _ = _; unfold execFpMont; rw [putInt_eq]) rfl
      (fun v hv => by rw [List.mem_singleton.1 hv]; exact (redc_spec (mul_lt_p_mul_r hlt (by decide +kernel))).1) (hok _ rfl rfl) fun _ _ => trivial
    refine ⟨t, h1, ?_⟩
    show ∃ u, execFpDemont 254#8 255#8 t = .next u
    unfold execFpDemont
    rw [completes_of_ok (ok_DA rfl rfl (.inr (by rw [h2.2.2.1]; decide)) ⟨.inr (by rw [h2.2.2.1]; decide), h4⟩)]
    exact ⟨_, rfl⟩
  · obtain ⟨t, h1, h2, -, h4, -⟩ := writes_of (i := .fpDemont 255#8 45#8) (s := demo) (d := 255#8) (z := false)
      (post := fun _ => True) [redc (demo.slotInt (45#8 : SlotNo).toNat * 1)]
      (by show execFpDemont _ _ _ = _; unfold execFpDemont; rw [putInt_eq]) rfl
      (fun v hv => by rw [List.mem_singleton.1 hv]; exact (redc_spec (mul_lt_p_mul_r hlt (by decide +kernel))).1) (hok _ rfl rfl) fun _ _ => trivial
    refine ⟨t, h1, ?_⟩
    show ∃ u, execFpMont 254#8 255#8 t = .next u
    unfold execFpMont
    rw [completes_of_ok (ok_DA rfl rfl (.inr (by rw [h2.2.2.1]; decide)) ⟨.inr (by rw [h2.2.2.1]; decide), h4⟩)]
    exact ⟨_, rfl⟩

/-- The generator of G2 decodes, since it is on its curve and in its subgroup. -/
theorem decode_g2 : decodeG2 (encodeFp2 ⟨G2X0, G2X1⟩ ++ encodeFp2 ⟨G2Y0, G2Y1⟩) =
    some ⟨⟨G2X0, G2X1⟩, ⟨G2Y0, G2Y1⟩, 1⟩ := by
  have hp : demo.readG2 3 = ⟨⟨G2X0, G2X1⟩, ⟨G2Y0, G2Y1⟩, 1⟩ := by
    rw [demo_g2 (by decide)]; decide +kernel
  have h1 := onCurve2_iff.2 (hp ▸ twist_3)
  have h2 := (inSubgroup_iff fp2_inv_ok).2 (hp ▸ sub2_3)
  have hx : decodeFp2 ((encodeFp2 ⟨G2X0, G2X1⟩ ++ encodeFp2 ⟨G2Y0, G2Y1⟩).take 96) = some ⟨G2X0, G2X1⟩ := by
    decide +kernel
  have hy : decodeFp2 ((encodeFp2 ⟨G2X0, G2X1⟩ ++ encodeFp2 ⟨G2Y0, G2Y1⟩).drop 96) = some ⟨G2Y0, G2Y1⟩ := by
    decide +kernel
  simp only [decodeG2, hx, hy, Option.bind_eq_bind, Option.bind_some, h1, h2, Bool.and_self, if_true]

/-- Byte strings that decode: One of Fp12, whose upper half is all zero, and the generators. -/
theorem witness_RoundTrips_bytes :
    decodeFp12 (List.replicate 575 0#8 ++ [1#8]) = some .one ∧
    (∃ p, decodeG1 (encodeFp G1X ++ encodeFp G1Y) = some p) ∧
    ∃ p, decodeG2 (encodeFp2 ⟨G2X0, G2X1⟩ ++ encodeFp2 ⟨G2Y0, G2Y1⟩) = some p :=
  ⟨by decide +kernel, ⟨⟨G1X, G1Y, 1⟩, by decide +kernel⟩, _, decode_g2⟩

/-- The exponents are the largest slot integer and 0. -/
theorem witness_Exponentiation :
    (Raw demo 62#8 1 ∧ Raw demo 46#8 1) ∧ (Fits demo 255#8 1 ∧ Typed demo 45#8 1) ∧
    (Fits demo 254#8 2 ∧ Typed demo 47#8 2) ∧ (Fits demo 244#8 12 ∧ Typed demo 49#8 12) :=
  ⟨⟨demo_raw (by decide), demo_raw (by decide)⟩, ⟨demo_fits (by decide), demo_typed (by decide)⟩,
    ⟨demo_fits (by decide), demo_typed (by decide)⟩, demo_fits (by decide), demo_typed (by decide)⟩

theorem witness_FpInverses :
    Fits demo 255#8 1 ∧ (Typed demo 45#8 1 ∧ demo.slotInt 45 ≠ 0) ∧ (Typed demo 46#8 1 ∧ demo.slotInt 46 = 0) ∧
    (Instr.fpInveea 255#8 45#8, 1) ∈ [(Instr.fpInvup 255#8 45#8, R * R), (.fpInvdown 255#8 45#8, R),
      (.fpInveea 255#8 45#8, 1)] := by
  refine ⟨demo_fits (by decide), ⟨demo_typed (by decide), ?_⟩, ⟨demo_typed (by decide), ?_⟩, by simp⟩
  · rw [demo_slot (by decide)]; decide +kernel
  · rw [demo_slot (by decide)]; decide +kernel

/-- The square 1, and the nonsquare of slot 45. -/
theorem witness_FpSquareRoot :
    (Fits demo 255#8 1 ∧ Typed demo 49#8 1 ∧ ∃ r, r * r = demo.val1 49) ∧
    (Typed demo 45#8 1 ∧ ¬∃ r, r * r = demo.val1 45) := by
  refine ⟨⟨demo_fits (by decide), demo_typed (by decide), 1, ?_⟩, demo_typed (by decide), ?_⟩
  · rw [demo_val1 (by decide)]; decide +kernel
  · rintro ⟨r, hr⟩
    have h := (isqr_iff (demo.val1 45)).2 ⟨r, hr.symm⟩
    rw [demo_val1 (by decide), show isqr (valueAt demoInts 45) = false by decide +kernel] at h
    exact absurd h (by decide)

theorem witness_FieldEquality :
    (Typed demo 0#8 1 ∧ Typed demo 60#8 1) ∧ (Typed demo 0#8 2 ∧ Typed demo 59#8 2) ∧
    (Typed demo 27#8 6 ∧ Typed demo 55#8 6) ∧ (Typed demo 27#8 12 ∧ Typed demo 49#8 12) :=
  ⟨⟨demo_typed (by decide), demo_typed (by decide)⟩, ⟨demo_typed (by decide), demo_typed (by decide)⟩,
    ⟨demo_typed (by decide), demo_typed (by decide)⟩, demo_typed (by decide), demo_typed (by decide)⟩

theorem witness_FieldIsZero :
    Typed demo 46#8 1 ∧ Typed demo 47#8 2 ∧ Typed demo 27#8 6 ∧ Typed demo 49#8 12 :=
  ⟨demo_typed (by decide), demo_typed (by decide), demo_typed (by decide), demo_typed (by decide)⟩

/-! ### Witnesses: the tower -/

theorem witness_Fp2Ring : Fits demo 254#8 2 ∧ Typed demo 47#8 2 ∧ Typed demo 0#8 2 :=
  ⟨demo_fits (by decide), demo_typed (by decide), demo_typed (by decide)⟩

/-- A square of Fp, a nonsquare of Fp, (1 + 2u)² and (1 + u)², and the nonsquare 1 + u of Fp2. -/
theorem witness_Fp2SquareRoot :
    (Fits demo 254#8 2 ∧ Typed demo 49#8 2 ∧ (demo.val2 49).im = 0 ∧ IsSquare (demo.val2 49).re) ∧
    (Typed demo 45#8 2 ∧ (demo.val2 45).im = 0 ∧ ¬IsSquare (demo.val2 45).re ∧ ∃ r, r * r = demo.val2 45) ∧
    (Typed demo 47#8 2 ∧ (demo.val2 47).im ≠ 0 ∧ ∃ r, r * r = demo.val2 47) ∧
    (Typed demo 18#8 2 ∧ (demo.val2 18).im ≠ 0 ∧ ∃ r, r * r = demo.val2 18) ∧
    (Typed demo 9#8 2 ∧ ¬∃ r, r * r = demo.val2 9) := by
  rw [demo_val2 (by decide), demo_val2 (by decide), demo_val2 (by decide), demo_val2 (by decide),
    demo_val2 (by decide)]
  refine ⟨⟨demo_fits (by decide), demo_typed (by decide), by decide +kernel, 1, by decide +kernel⟩,
    ⟨demo_typed (by decide), by decide +kernel, ?_, ⟨0, fpInv (2 ^ 192 : Nat)⟩, by decide +kernel⟩,
    ⟨demo_typed (by decide), by decide +kernel, ⟨1, 2⟩, by decide +kernel⟩,
    ⟨demo_typed (by decide), by decide +kernel, ⟨1, 1⟩, by decide +kernel⟩, demo_typed (by decide), ?_⟩
  · rw [← isqr_iff]; decide +kernel
  · rintro ⟨r, hr⟩
    refine xi_not_square r (hr.trans ?_)
    decide +kernel

theorem witness_TowerAdditive :
    (Fits demo 250#8 6 ∧ Typed demo 3#8 6 ∧ Typed demo 55#8 6) ∧
    (Fits demo 244#8 12 ∧ Typed demo 0#8 12 ∧ Typed demo 49#8 12) :=
  ⟨⟨demo_fits (by decide), demo_typed (by decide), demo_typed (by decide)⟩, demo_fits (by decide),
    demo_typed (by decide), demo_typed (by decide)⟩

theorem witness_Fp6Products :
    (Fits demo 250#8 6 ∧ Typed demo 3#8 6 ∧ Typed demo 21#8 6) ∧
    (Typed demo 55#8 6 ∧ Typed demo 3#8 2 ∧ Typed demo 47#8 2) :=
  ⟨⟨demo_fits (by decide), demo_typed (by decide), demo_typed (by decide)⟩, demo_typed (by decide),
    demo_typed (by decide), demo_typed (by decide)⟩

theorem witness_Fp12Products :
    (Fits demo 244#8 12 ∧ Typed demo 0#8 12 ∧ Typed demo 12#8 12) ∧
    (Typed demo 49#8 12 ∧ Typed demo 3#8 2 ∧ Typed demo 5#8 2 ∧ Typed demo 47#8 2) :=
  ⟨⟨demo_fits (by decide), demo_typed (by decide), demo_typed (by decide)⟩, demo_typed (by decide),
    demo_typed (by decide), demo_typed (by decide), demo_typed (by decide)⟩

theorem demo_one12 : demo.val12 49 = .one := by
  rw [State.val12, State.val6, State.val6, demo_val2 (by decide), demo_val2 (by decide), demo_val2 (by decide),
    demo_val2 (by decide), demo_val2 (by decide), demo_val2 (by decide)]
  decide +kernel

theorem demo_zero12 : demo.val12 27 = .zero := by
  rw [State.val12, State.val6, State.val6, demo_val2 (by decide), demo_val2 (by decide), demo_val2 (by decide),
    demo_val2 (by decide), demo_val2 (by decide), demo_val2 (by decide)]
  decide +kernel

theorem one_ne_zero12 : Fp12.one ≠ Fp12.zero := by decide +kernel

theorem witness_TowerInverses :
    (Fits demo 254#8 2 ∧ Typed demo 49#8 2 ∧ demo.val2 49 ≠ 0 ∧ Typed demo 27#8 2 ∧ demo.val2 27 = 0) ∧
    (Fits demo 250#8 6 ∧ Typed demo 49#8 6 ∧ demo.val6 49 ≠ .zero ∧ Typed demo 27#8 6 ∧ demo.val6 27 = .zero) ∧
    (Fits demo 244#8 12 ∧ Typed demo 49#8 12 ∧ demo.val12 49 ≠ .zero ∧ Typed demo 27#8 12 ∧
      demo.val12 27 = .zero) := by
  have h12 := demo_one12
  have h02 := demo_zero12
  rw [State.val12, Fp12.one, Fp12.mk.injEq] at h12
  rw [State.val12, Fp12.zero, Fp12.mk.injEq] at h02
  have h1 := h12.1
  have h0 := h02.1
  rw [State.val6, Fp6.one, Fp6.mk.injEq] at h1
  rw [State.val6, Fp6.zero, Fp6.mk.injEq] at h0
  refine ⟨⟨demo_fits (by decide), demo_typed (by decide), ?_, demo_typed (by decide), h0.1⟩,
    ⟨demo_fits (by decide), demo_typed (by decide), ?_, demo_typed (by decide), h02.1⟩,
    ⟨demo_fits (by decide), demo_typed (by decide), ?_, demo_typed (by decide), demo_zero12⟩⟩
  · rw [h1.1]; decide +kernel
  · rw [h12.1]; decide +kernel
  · rw [demo_one12]; exact one_ne_zero12

theorem witness_Frobenius :
    (Fits demo 250#8 6 ∧ Typed demo 3#8 6) ∧ (Fits demo 244#8 12 ∧ Typed demo 49#8 12) :=
  ⟨⟨demo_fits (by decide), demo_typed (by decide)⟩, demo_fits (by decide), demo_typed (by decide)⟩

theorem npow_one (n : Nat) : Fp12.one.npow n = .one := by
  induction n with
  | zero => rfl
  | succ n ih => rw [Fp12.npow, ih, Fp12.mul_one]

theorem witness_CyclotomicSquare :
    Fits demo 244#8 12 ∧ Typed demo 49#8 12 ∧ demo.val12 49 = .one ∧
      Fp12.one.npow (P ^ 4 - P ^ 2 + 1) = .one :=
  ⟨demo_fits (by decide), demo_typed (by decide), demo_one12, npow_one _⟩

/-! ### Witnesses: points -/

theorem witness_PointDoubling : (Fits demo 253#8 3 ∧ Typed demo 0#8 3) ∧ (Fits demo 250#8 6 ∧ Typed demo 3#8 6) :=
  ⟨⟨demo_fits (by decide), demo_typed (by decide)⟩, demo_fits (by decide), demo_typed (by decide)⟩

theorem witness_PointAddition :
    (Fits demo 253#8 3 ∧ Typed demo 0#8 3 ∧ Typed demo 18#8 3) ∧
    (Fits demo 250#8 6 ∧ Typed demo 3#8 6 ∧ Typed demo 21#8 6) :=
  ⟨⟨demo_fits (by decide), demo_typed (by decide), demo_typed (by decide)⟩, demo_fits (by decide),
    demo_typed (by decide), demo_typed (by decide)⟩

theorem witness_NegationAndAffine :
    (Fits demo 253#8 3 ∧ Typed demo 0#8 3) ∧ (Fits demo 250#8 6 ∧ Typed demo 3#8 6) := witness_PointDoubling

/-- The scalars are the largest slot integer and 0. -/
theorem witness_ScalarMultiplication :
    (Raw demo 62#8 1 ∧ Raw demo 46#8 1) ∧ (Fits demo 253#8 3 ∧ Typed demo 0#8 3) ∧
    (Fits demo 250#8 6 ∧ Typed demo 3#8 6) :=
  ⟨⟨demo_raw (by decide), demo_raw (by decide)⟩, ⟨demo_fits (by decide), demo_typed (by decide)⟩,
    demo_fits (by decide), demo_typed (by decide)⟩

theorem witness_PointPredicates :
    (Typed demo 0#8 3 ∧ Typed demo 18#8 3) ∧ (Typed demo 3#8 6 ∧ Typed demo 21#8 6) :=
  ⟨⟨demo_typed (by decide), demo_typed (by decide)⟩, demo_typed (by decide), demo_typed (by decide)⟩

/-- Every form completes on the generators, which are on their curves. -/
theorem witness_PointsStayOnCurve :
    (∀ i ∈ [Instr.g1Dbl 253#8 0#8, .g1Neg 253#8 0#8, .g1Affine 253#8 0#8, .g1Mul 253#8 0#8 62#8,
        .g1Add 253#8 0#8 0#8], ∃ t, exec i demo = .next t ∧ t.status.err = false) ∧
    (∀ i ∈ [Instr.g2Dbl 250#8 3#8, .g2Neg 250#8 3#8, .g2Affine 250#8 3#8, .g2Mul 250#8 3#8 62#8,
        .g2Add 250#8 3#8 3#8], ∃ t, exec i demo = .next t ∧ t.status.err = false) ∧
    OnCurve1 (demo.readG1 0) ∧ OnCurve2 (demo.readG2 3) := by
  refine ⟨fun i hi => ?_, fun i hi => ?_, curve_0, twist_3⟩ <;>
    simp only [List.mem_cons, List.not_mem_nil, or_false] at hi <;> rcases hi with rfl | rfl | rfl | rfl | rfl
  · show ∃ t, execG1Dbl _ _ demo = .next t ∧ _
    unfold execG1Dbl
    exact ⟨_, completes_of_ok (ok_DA rfl rfl (demo_fits (by decide)) (demo_typed (by decide))), rfl⟩
  · show ∃ t, execG1Neg _ _ demo = .next t ∧ _
    unfold execG1Neg
    exact ⟨_, completes_of_ok (ok_DA rfl rfl (demo_fits (by decide)) (demo_typed (by decide))), rfl⟩
  · show ∃ t, execG1Affine _ _ demo = .next t ∧ _
    unfold execG1Affine
    exact ⟨_, completes_of_ok (ok_DA rfl rfl (demo_fits (by decide)) (demo_typed (by decide))), rfl⟩
  · show ∃ t, execG1Mul _ _ _ demo = .next t ∧ _
    unfold execG1Mul
    exact ⟨_, completes_of_ok (ok_DAraw rfl rfl (demo_fits (by decide)) (demo_typed (by decide)) (demo_raw (by decide))), rfl⟩
  · show ∃ t, execG1Add _ _ _ demo = .next t ∧ _
    unfold execG1Add
    exact ⟨_, completes_of_ok (ok_DAB rfl rfl (demo_fits (by decide)) (demo_typed (by decide)) (demo_typed (by decide))), rfl⟩
  · show ∃ t, execG2Dbl _ _ demo = .next t ∧ _
    unfold execG2Dbl
    exact ⟨_, completes_of_ok (ok_DA rfl rfl (demo_fits (by decide)) (demo_typed (by decide))), rfl⟩
  · show ∃ t, execG2Neg _ _ demo = .next t ∧ _
    unfold execG2Neg
    exact ⟨_, completes_of_ok (ok_DA rfl rfl (demo_fits (by decide)) (demo_typed (by decide))), rfl⟩
  · show ∃ t, execG2Affine _ _ demo = .next t ∧ _
    unfold execG2Affine
    exact ⟨_, completes_of_ok (ok_DA rfl rfl (demo_fits (by decide)) (demo_typed (by decide))), rfl⟩
  · show ∃ t, execG2Mul _ _ _ demo = .next t ∧ _
    unfold execG2Mul
    exact ⟨_, completes_of_ok (ok_DAraw rfl rfl (demo_fits (by decide)) (demo_typed (by decide)) (demo_raw (by decide))), rfl⟩
  · show ∃ t, execG2Add _ _ _ demo = .next t ∧ _
    unfold execG2Add
    exact ⟨_, completes_of_ok (ok_DAB rfl rfl (demo_fits (by decide)) (demo_typed (by decide)) (demo_typed (by decide))), rfl⟩

/-! ### Witnesses: the pairing engine -/

/-- D apart from T, and D overlapping T. -/
theorem witness_LineSteps :
    Fits demo 250#8 6 ∧ Fits demo 5#8 6 ∧ Typed demo 3#8 6 ∧ Typed demo 0#8 2 ∧ Typed demo 21#8 4 :=
  ⟨demo_fits (by decide), demo_fits (by decide), demo_typed (by decide), demo_typed (by decide),
    demo_typed (by decide)⟩

theorem witness_MillerLoopSteps :
    (⟨G1X, G1Y, 1⟩ : Jac Fp).z ≠ 0 ∧ (⟨⟨G2X0, G2X1⟩, ⟨G2Y0, G2Y1⟩, 1⟩ : Jac Fp2).z ≠ 0 ∧
    IsAffine (⟨G1X, G1Y, 1⟩ : Jac Fp) ⟨G1X, G1Y, 1⟩ ∧
    IsAffine (⟨⟨G2X0, G2X1⟩, ⟨G2Y0, G2Y1⟩, 1⟩ : Jac Fp2) ⟨⟨G2X0, G2X1⟩, ⟨G2Y0, G2Y1⟩, 1⟩ := by
  have h1 : (1 : Fp) ≠ 0 := by decide +kernel
  have h2 : (1 : Fp2) ≠ 0 := by decide +kernel
  exact ⟨h1, h2, ⟨fun h => absurd h h1, fun _ => ⟨1, by simp, by simp⟩⟩,
    fun h => absurd h h2, fun _ => ⟨1, by simp, by simp⟩⟩

theorem witness_Batching :
    [((infinity : Jac Fp), (infinity : Jac Fp2)), (⟨0, 2, 1⟩, infinity)].Perm
      [(⟨0, 2, 1⟩, infinity), (infinity, infinity)] ∧ (infinity : Jac Fp).z = 0 ∧ (infinity : Jac Fp2).z = 0 :=
  ⟨.swap _ _ _, rfl, rfl⟩

/-- No pairs; one pair of generators with CHK = 1; one pair at infinity in G1 with CHK = 1. -/
theorem witness_Pairing :
    (Fits demo 244#8 12 ∧ Typed demo 0#8 (3 * (0#8).toNat) ∧ Typed demo 0#8 (6 * (0#8).toNat)) ∧
    (Typed demo 0#8 (3 * (1#8).toNat) ∧ Typed demo 3#8 (6 * (1#8).toNat) ∧ OnCurve1 (demo.readG1 0) ∧
      OnCurve2 (demo.readG2 3) ∧ InSubgroup (demo.readG1 0) ∧ InSubgroup (demo.readG2 3)) ∧
    (Typed demo 27#8 (3 * (1#8).toNat) ∧ (demo.readG1 27).z = 0 ∧ OnCurve1 (demo.readG1 27) ∧
      InSubgroup (demo.readG1 27)) := by
  refine ⟨⟨demo_fits (by decide), demo_typed (by decide), demo_typed (by decide)⟩,
    ⟨demo_typed (by decide), demo_typed (by decide), curve_0, twist_3, sub_0, sub2_3⟩,
    demo_typed (by decide), ?_, curve_27, sub_27⟩
  rw [demo_g1 (by decide)]; decide +kernel

theorem witness_FinalExponentiation :
    (Fits demo 244#8 12 ∧ Typed demo 27#8 12 ∧ demo.val12 27 = .zero) ∧
    (Typed demo 49#8 12 ∧ demo.val12 49 = .one ∧ Fp12.one ≠ .zero) :=
  ⟨⟨demo_fits (by decide), demo_typed (by decide), demo_zero12⟩, demo_typed (by decide), demo_one12,
    one_ne_zero12⟩

end Sys2Proof.Tests
end

section
/-! PROOFS. Every step keeps the invariant: one lemma per thing an event can do to the state, then the
events, then the step. -/

namespace Sys2Proof.Machine

/-! ### The parts of the invariant -/

theorem State.Inv.wf {s : State} (h : s.Inv) : s.em.wf = true := by
  obtain ⟨hwf, -⟩ := h
  exact hwf

theorem State.Inv.slotBytes {s : State} (h : s.Inv) : ∀ c ∈ s.em, slotByte s.nslots c.1 = true := by
  obtain ⟨-, hmem, -⟩ := h
  exact hmem

theorem State.Inv.flags {s : State} (h : s.Inv) : StatusInv s.status s.errinfo := by
  obtain ⟨-, -, -, -, hst⟩ := h
  exact hst

/-- The invariant of a state with the memory as before, from its flags. -/
theorem State.Inv.of_flags {s t : State} (h : s.Inv) (hn : t.nslots = s.nslots) (hb : t.base = s.base)
    (hm : t.em = s.em) (hst : StatusInv t.status t.errinfo) : t.Inv :=
  State.Inv.update h hn hb (hm ▸ h.wf) (hm ▸ h.slotBytes) hst

/-! ### Writes of the host and resets -/

theorem State.Inv.overrun {s : State} (h : s.Inv) :
    State.Inv { s with status := s.status.overrun } :=
  State.Inv.of_flags h rfl rfl rfl (statusInv_overrun h.flags)

theorem State.Inv.latch {s : State} (h : s.Inv) (w : Word) : (s.latch w).Inv :=
  State.Inv.of_flags h rfl rfl rfl (statusInv_started _)

theorem State.Inv.hardReset {s : State} (h : s.Inv) : s.hardReset.Inv :=
  State.Inv.update h rfl rfl rfl (by simp) statusInv_zero

/-- A soft reset only takes bytes away, those of an abandoned command (70_reset_and_hazards.md R443). -/
theorem State.Inv.softReset {s : State} (h : s.Inv) : s.softReset.Inv := by
  refine State.Inv.update h rfl rfl ?_ ?_ statusInv_zero <;> rw [State.softReset_em] <;> split
  · exact abandoned_wf h.wf
  · exact h.wf
  · exact fun c hc => h.slotBytes c (abandoned_mem c hc)
  · exact h.slotBytes

theorem State.Inv.writeCtrl {s : State} (h : s.Inv) (v : Word) : (s.writeCtrl v).Inv := by
  have hie : State.Inv { s with ie := v.getLsbD 1 } := h
  unfold State.writeCtrl
  split
  · exact h.softReset
  · dsimp only
    split
    · split
      · exact hie.overrun
      · exact hie.latch _
    · exact hie

theorem State.Inv.writeRegister {s : State} (h : s.Inv) (off : Nat) (v : Word) :
    (s.writeRegister off v).Inv := by
  unfold State.writeRegister
  split
  · exact h.writeCtrl v
  · split
    · exact State.Inv.of_flags h rfl rfl rfl (statusInv_w1c h.flags v)
    · split
      · exact h
      · exact h

/-- The eight bytes of a limb belong to an existing slot (20_memory.md R73). -/
theorem slotByte_of_isLimb {s : State} {off x : Nat} (hl : s.isLimb off = true) (h1 : 0x4000 ≤ off)
    (h8 : off % 8 = 0) (hx : off ≤ x ∧ x < off + 8) : slotByte s.nslots x = true := by
  unfold State.isLimb windowSlot windowLimb slotWindow at hl
  obtain ⟨hslot, hlimb⟩ := Bool.and_eq_true_iff.1 hl
  have hlimb := of_decide_eq_true hlimb
  refine slotByte_of_slot (of_decide_eq_true hslot) ?_ ?_ <;> unfold slotOffset <;> omega

theorem State.Inv.writeWindow {s : State} (h : s.Inv) {off : Nat} (h1 : 0x4000 ≤ off)
    (h8 : off % 8 = 0) (v : Word) : (s.writeWindow off v).Inv := by
  unfold State.writeWindow
  split
  · exact h.overrun
  · split
    · next hl =>
      refine State.Inv.update h rfl rfl (wf_write _ _ _ h.wf) (fun c hc => ?_) h.flags
      rcases mem_write hc with hc | hc
      · exact h.slotBytes c hc
      · exact slotByte_of_isLimb hl h1 h8 hc
    · exact h

/-! ### Events -/

/-- What a read changes: the data returned and the model's own counter (20_memory.md R79). -/
theorem hostRead_next {s t : State} {off : Nat} (h : s.hostRead off = .next t) :
    ∃ v n, t = { s with rdata := some v, draws := n } := by
  unfold State.hostRead State.readWindow at h
  split at h
  · cases h; exact ⟨_, _, rfl⟩
  · split at h
    · cases h; exact ⟨_, _, rfl⟩
    · split at h
      · split at h
        · cases h
        · cases h; exact ⟨_, _, rfl⟩
      · cases h; exact ⟨_, _, rfl⟩

theorem inv_memRead {s t : State} {addr width : Nat} (h : s.Inv) (hx : s.memRead addr width = .next t) :
    t.Inv := by
  unfold State.memRead at hx
  split at hx
  · cases hx
  · obtain ⟨v, n, rfl⟩ := hostRead_next hx
    exact h

theorem inv_memWrite {s t : State} {addr width : Nat} {v : Word} (h : s.Inv)
    (hx : s.memWrite addr width v = .next t) : t.Inv := by
  unfold State.memWrite at hx
  rcases accepts_cases s addr width with ⟨f, ha⟩ | ⟨off, ha, -, h8, -⟩ <;> rw [ha] at hx
  · cases hx
  · cases hx
    split
    · exact h.writeRegister off v
    · next h1 => exact h.writeWindow (Nat.not_lt.1 h1) h8 v

theorem inv_engineTurn {s t : State} (h : s.Inv) (hx : s.engineTurn = .next t) : t.Inv := by
  unfold State.engineTurn at hx
  split at hx
  · exact inv_runLatched h hx
  · cases hx; exact h

theorem inv_handle {s t : State} {e : HostEvent} (h : s.Inv) (hx : s.handle e = .next t) : t.Inv := by
  cases e with
  | read addr width => exact inv_memRead h hx
  | write addr width v => exact inv_memWrite h hx
  | engine => exact inv_engineTurn h hx
  | hardReset => cases hx; exact h.hardReset

/-- Settles O8, by cases on the next event; the completion step is `inv_runLatched`. -/
theorem stepKeepsInvariant : Obligations.StepKeepsInvariant := by
  intro s t h hx
  cases hi : s.inbox with
  | nil => exact inv_engineTurn h (step_nil hi ▸ hx)
  | cons e rest =>
    have h' : State.Inv { s with inbox := rest } := h
    exact inv_handle h' (step_cons hi ▸ hx)

end Sys2Proof.Machine
end

section
/-! PROOFS. The fields of the register words (10_state.md R42-R46), and what a read of the register
window answers. -/

namespace Sys2Proof.Machine

/-! ### The register words -/

theorem ctrlWord_bit (s : State) (b : Nat) : s.ctrlWord.getLsbD b = (decide (b = 1) && s.ie) := by
  unfold State.ctrlWord
  rw [BitVec.getLsbD_append, BitVec.getLsbD_append]
  rcases b with _ | _ | b <;> simp

/-- The flags of STATUS (10_state.md R43). -/
theorem statusWord_flags (st : Status) :
    st.word.getLsbD 0 = st.busy ∧ st.word.getLsbD 1 = st.done ∧ st.word.getLsbD 2 = st.err ∧
      st.word.getLsbD 3 = st.result ∧ st.word.getLsbD 4 = st.zdiv ∧ st.word.getLsbD 5 = st.ovr := by
  unfold Status.word
  simp only [BitVec.getLsbD_append]
  simp

/-- ERRCODE and the zero bits of STATUS (10_state.md R43). -/
theorem statusWord_fields (st : Status) :
    st.word.extractLsb' 6 2 = 0#2 ∧ st.word.extractLsb' 8 8 = st.errcode ∧
      st.word.extractLsb' 16 48 = 0#48 := by
  simp only [Status.word, BitVec.extractLsb'_append_eq_of_le, BitVec.extractLsb'_append_eq_right,
    BitVec.extractLsb'_eq_self, Nat.reduceLeDiff, Nat.reduceSub, and_self]

/-- ERRINFO field by field (10_state.md R46). -/
theorem errInfoWord_fields (ei : ErrInfo) :
    ei.word.extractLsb' 0 8 = ei.slot ∧ ei.word.extractLsb' 8 3 = ei.operand ∧
      ei.word.extractLsb' 11 5 = 0#5 ∧ ei.word.extractLsb' 16 8 = ei.index ∧
      ei.word.extractLsb' 24 40 = 0#40 := by
  simp only [ErrInfo.word, BitVec.extractLsb'_append_eq_of_le, BitVec.extractLsb'_append_eq_right,
    BitVec.extractLsb'_eq_self, Nat.reduceLeDiff, Nat.reduceSub, le_refl, and_self]

/-- PARAM field by field (10_state.md R44). -/
theorem paramWord_fields (s : State) :
    s.paramWord.extractLsb' 0 16 = BitVec.ofNat 16 s.nslots ∧ s.paramWord.extractLsb' 16 8 = 1#8 ∧
      s.paramWord.extractLsb' 24 40 = 0#40 := by
  simp only [State.paramWord, Config.version, BitVec.extractLsb'_append_eq_of_le,
    BitVec.extractLsb'_append_eq_right, BitVec.extractLsb'_eq_self, Nat.reduceLeDiff, Nat.reduceSub,
    le_refl, and_self]

/-! ### The register window -/

/-- Past PARAM the register window holds no register (10_state.md R47). -/
theorem readRegister_unused (s : State) {off : Nat} (h : 0x030 ≤ off) : s.readRegister off = 0#64 := by
  unfold State.readRegister
  split
  case h_7 => rfl
  all_goals exact absurd h (by decide)

/-- A read of the register window. -/
theorem step_readRegister {s : State} {off : Nat} {rest : List HostEvent} (h : NextRead s off rest)
    (h8 : off % 8 = 0) (ho : off < 0x4000) :
    step s = .next { s with inbox := rest, rdata := some (s.readRegister off) } := by
  rw [step_read h (by omega) h8]
  exact if_pos ho

/-- Settles O13: the word read is `State.readRegister`, whose fields are those above. -/
theorem registerReads : Obligations.RegisterReads := by
  intro s off rest h h8 ho
  refine ⟨s.readRegister off, step_readRegister h h8 ho, ?id, ?ctrl, ?status, ?cmd, ?errinfo, ?param,
    readRegister_unused s⟩
  case id => rintro rfl; rfl
  case ctrl => rintro rfl b -; exact ctrlWord_bit s b
  case status =>
    rintro rfl
    obtain ⟨hbusy, hdone, herr, hresult, hzdiv, hovr⟩ := statusWord_flags s.status
    exact ⟨hbusy, hdone, herr, hresult, hzdiv, hovr, statusWord_fields s.status⟩
  case cmd => rintro rfl; rfl
  case errinfo => rintro rfl; exact errInfoWord_fields s.errinfo
  case param => rintro rfl; exact paramWord_fields s

end Sys2Proof.Machine
end

section
/-! PROOFS. Accesses of the host: which are refused, and that a read changes nothing (20_memory.md R72,
R79). -/

namespace Sys2Proof.Machine

/-! ### Refused accesses -/

theorem memRead_error {s : State} {addr width : Nat} {f : Fault}
    (h : s.accepts addr width = .error f) : s.memRead addr width = .fault f := by
  unfold State.memRead; rw [h]

theorem memWrite_error {s : State} {addr width : Nat} {v : Word} {f : Fault}
    (h : s.accepts addr width = .error f) : s.memWrite addr width v = .fault f := by
  unfold State.memWrite; rw [h]

/-- Settles O18: the window accepts no such access (`accepts_bus`). -/
theorem busErrors : Obligations.BusErrors := by
  intro s off width rest ho hw
  have ha : State.accepts { s with inbox := rest } (s.base + off) width = .error .busError :=
    accepts_bus ho hw
  exact ⟨fun h => (step_cons h).trans (memRead_error ha),
    fun v h => (step_cons h).trans (memWrite_error ha)⟩

/-! ### Reads -/

/-- A read that is answered was accepted, and changes what `hostRead_next` says (20_memory.md R79). -/
theorem memRead_next {s t : State} {addr width : Nat} (h : s.memRead addr width = .next t) :
    ∃ v n, t = { s with rdata := some v, draws := n } := by
  unfold State.memRead at h
  split at h
  · cases h
  · exact hostRead_next h

/-- Settles O19: an answered read sets the data read and the count of draws (`memRead_next`). -/
theorem readsChangeNothing : Obligations.ReadsChangeNothing := by
  intro s t addr width rest hi hx
  obtain ⟨v, n, rfl⟩ := memRead_next ((step_cons hi).symm.trans hx)
  rfl

end Sys2Proof.Machine
end

section
/-! PROOFS. The slot window: what a read and a write of a limb, of a hole and of an empty slot answer
(20_memory.md R73-R77). -/

namespace Sys2Proof.Machine

/-! ### Offsets of the slot window -/

section Offsets

variable {n l : Nat} (hl : l < 8)
include hl

theorem windowSlot_limb : windowSlot (0x4000 + 64 * n + 8 * l) = n := by
  unfold windowSlot slotWindow; omega

theorem windowLimb_limb : windowLimb (0x4000 + 64 * n + 8 * l) = l := by
  unfold windowLimb slotWindow; omega

/-- Limb l of slot n exists exactly when slot n does and l is below 6 (20_memory.md R73, R74). -/
theorem isLimb_iff (s : State) :
    s.isLimb (0x4000 + 64 * n + 8 * l) = true ↔ n < s.nslots ∧ l < 6 := by
  unfold State.isLimb
  rw [windowSlot_limb hl, windowLimb_limb hl, Bool.and_eq_true, decide_eq_true_iff,
    decide_eq_true_iff]

end Offsets

/-! ### The slot window while BUSY = 0 -/

section Idle

variable {s : State} {off n l : Nat} {rest : List HostEvent}

theorem readWindow_limb {x : SlotVal} (hb : s.status.busy = false) (hl : s.isLimb off = true)
    (hx : s.em.readSlot (windowSlot off) = some x) :
    s.readWindow off = s.returns (limbOf x (windowLimb off)) := by
  unfold State.readWindow; simp only [hb, hl, hx, Bool.false_eq_true, if_false, if_true]

theorem readWindow_empty (hb : s.status.busy = false) (hl : s.isLimb off = true)
    (hx : s.em.readSlot (windowSlot off) = none) : s.readWindow off = .fault .emptySlot := by
  unfold State.readWindow; simp only [hb, hl, hx, Bool.false_eq_true, if_false, if_true]

theorem readWindow_hole (hb : s.status.busy = false) (hl : ¬s.isLimb off = true) :
    s.readWindow off = s.returns 0#64 := by
  unfold State.readWindow; simp only [hb, hl, Bool.false_eq_true, if_false]

theorem writeWindow_limb (hb : s.status.busy = false) (hl : s.isLimb off = true) (v : Word) :
    s.writeWindow off v = { s with em := s.em.write off 8 v.toNat } := by
  unfold State.writeWindow; simp only [hb, hl, Bool.false_eq_true, if_false, if_true]

theorem writeWindow_hole (hb : s.status.busy = false) (hl : ¬s.isLimb off = true) (v : Word) :
    s.writeWindow off v = s := by
  unfold State.writeWindow; simp only [hb, hl, Bool.false_eq_true, if_false]

/-- A read of limb l of slot n is a read of the slot window. -/
theorem step_readLimb (hn : n < 256) (hl : l < 8) (h : NextRead s (0x4000 + 64 * n + 8 * l) rest) :
    step s = State.readWindow { s with inbox := rest } (0x4000 + 64 * n + 8 * l) :=
  step_readWindow h (by omega) (by omega) (by omega)

/-- A write of limb l of slot n is a write of the slot window. -/
theorem step_writeLimb {v : Word} (hn : n < 256) (hl : l < 8)
    (h : NextWrite s (0x4000 + 64 * n + 8 * l) v rest) :
    step s = .next (State.writeWindow { s with inbox := rest } (0x4000 + 64 * n + 8 * l) v) :=
  step_window h (by omega) (by omega) (by omega)

end Idle

/-- Settles O15: such an offset is no limb (`isLimb_iff`). -/
theorem slotHoles : Obligations.SlotHoles := by
  intro s n l rest hb hn hl hhole
  have hlimb : ¬State.isLimb { s with inbox := rest } (0x4000 + 64 * n + 8 * l) = true := by
    rw [isLimb_iff hl]; show ¬(n < s.nslots ∧ l < 6); omega
  refine ⟨fun h => ?read, fun v h => ?write⟩
  case read => exact (step_readLimb hn hl h).trans (readWindow_hole hb hlimb)
  case write => rw [step_writeLimb hn hl h, writeWindow_hole (s := { s with inbox := rest }) hb hlimb]

/-- Settles O16: a slot by its bytes (`readSlot_isSome_iff`), and the read of an empty one. -/
theorem emptySlotReads : Obligations.EmptySlotReads := by
  intro s n hwf
  refine ⟨readSlot_isSome_iff hwf n, fun l rest hb hns hn hl h hx => ?_⟩
  have hl8 : l < 8 := by omega
  rw [step_readLimb hn hl8 h]
  exact readWindow_empty hb ((isLimb_iff hl8 _).2 ⟨hns, hl⟩) (by rw [windowSlot_limb hl8]; exact hx)

/-! ### The bytes of a limb -/

/-- Byte k of a machine word (20_memory.md R77). -/
theorem ofNat_div_eq_extractLsb' {w : Nat} (v : BitVec w) (k : Nat) :
    BitVec.ofNat 8 (v.toNat / 256 ^ k) = v.extractLsb' (8 * k) 8 := by
  rw [BitVec.extractLsb', Nat.shiftRight_eq_div_pow, Nat.pow_mul]

/-- Byte k of limb j is byte 8j + k of the slot integer. -/
theorem extractLsb'_limbOf (x : SlotVal) (j : Nat) {k : Nat} (hk : k < 8) :
    (limbOf x j).extractLsb' (8 * k) 8 = x.extractLsb' (8 * (8 * j + k)) 8 := by
  refine BitVec.eq_of_getLsbD_eq fun i hi => ?_
  have hlt : 8 * k + i < 64 := by omega
  simp only [limbOf, BitVec.getLsbD_extractLsb', hi, hlt, decide_true, Bool.true_and]
  congr 1; omega

/-- Two bus words with the same eight bytes are equal. -/
theorem word_eq_of_bytes {v w : Word}
    (h : ∀ k < 8, v.extractLsb' (8 * k) 8 = w.extractLsb' (8 * k) 8) : v = w := by
  refine BitVec.eq_of_getLsbD_eq fun i hi => ?_
  have hbit := congrArg (fun b : Byte => b.getLsbD (i % 8)) (h (i / 8) (by omega))
  have hlt : i % 8 < 8 := Nat.mod_lt _ (by decide)
  simpa only [BitVec.getLsbD_extractLsb', hlt, decide_true, Bool.true_and, Nat.div_add_mod] using hbit

/-- A limb of a slot that holds a value is its eight bytes in memory (20_memory.md R73, R77). -/
theorem limbOf_eq_iff {m : Memory} (hwf : m.wf = true) {n j : Nat} {x : SlotVal} {v : Word}
    (hx : m.readSlot n = some x) (hj : j < 6) :
    limbOf x j = v ↔
      ∀ k < 8, m.readByte (slotOffset n + 8 * j + k) = some (v.extractLsb' (8 * k) 8) := by
  have hbyte : ∀ k < 8, m.readByte (slotOffset n + 8 * j + k) =
      some ((limbOf x j).extractLsb' (8 * k) 8) := fun k hk => by
    rw [Nat.add_assoc, (readSlot_eq_some_iff hwf).1 hx (8 * j + k) (by omega),
      ofNat_div_eq_extractLsb', extractLsb'_limbOf x j hk]
  constructor
  · rintro rfl; exact hbyte
  · exact fun h => word_eq_of_bytes fun k hk => Option.some.inj ((hbyte k hk).symm.trans (h k hk))

/-- A write of a limb sets byte k of it to byte k of the word. -/
theorem readByte_write_word (m : Memory) (off : Nat) (v : Word) {k : Nat} (hk : k < 8) :
    (m.write off 8 v.toNat).readByte (off + k) = some (v.extractLsb' (8 * k) 8) := by
  rw [readByte_write_same hk, byte_of_word]

/-- A slot that holds a value still holds one after any write. -/
theorem readSlot_write_isSome {m : Memory} (hwf : m.wf = true) {n : Nat} (off k v : Nat)
    (h : (m.readSlot n).isSome = true) : ((m.write off k v).readSlot n).isSome = true := by
  rw [readSlot_isSome_iff (wf_write _ _ _ hwf)]
  intro j hj
  by_cases hin : off ≤ slotOffset n + j ∧ slotOffset n + j < off + k
  · obtain ⟨i, hi⟩ := Nat.exists_eq_add_of_le hin.1
    rw [hi, readByte_write_same (by omega)]; rfl
  · rw [readByte_write_ne (by omega)]
    exact (readSlot_isSome_iff hwf n).1 h j hj

/-- A write of limb l of a slot that holds a value changes that limb only (20_memory.md R73). -/
theorem readSlot_write_limb {m : Memory} (hwf : m.wf = true) {n l : Nat} (v : Word) {x : SlotVal}
    (hx : m.readSlot n = some x) :
    ∃ y, (m.write (slotOffset n + 8 * l) 8 v.toNat).readSlot n = some y ∧
      ∀ j < 6, limbOf y j = if j = l then v else limbOf x j := by
  obtain ⟨y, hy⟩ := Option.isSome_iff_exists.1
    (readSlot_write_isSome hwf (slotOffset n + 8 * l) 8 v.toNat (by rw [hx]; rfl))
  refine ⟨y, hy, fun j hj => (limbOf_eq_iff (wf_write _ _ _ hwf) hy hj).2 fun k hk => ?_⟩
  split
  case isTrue h => subst h; exact readByte_write_word m _ v hk
  case isFalse h =>
    rw [readByte_write_ne (by omega)]
    exact (limbOf_eq_iff hwf hx hj).1 rfl k hk

/-- Settles O14: the limb is `limbOf`, and a write of it is `readSlot_write_limb`. (The name `slotWindow`
is the window's first offset.) -/
theorem slotWindowLimbs : Obligations.SlotWindow := by
  intro s n l rest hwf hb hns hn hl
  have hl8 : l < 8 := by omega
  have hlimb : State.isLimb { s with inbox := rest } (0x4000 + 64 * n + 8 * l) = true :=
    (isLimb_iff hl8 _).2 ⟨hns, hl⟩
  refine ⟨fun x h hx => ?read, fun v h => ⟨s.em.write (0x4000 + 64 * n + 8 * l) 8 v.toNat, ?write,
    fun off ho => readByte_write_ne ho, fun k hk => readByte_write_word _ _ v hk,
    fun x hx => readSlot_write_limb hwf v hx⟩⟩
  case read =>
    rw [step_readLimb hn hl8 h, readWindow_limb (s := { s with inbox := rest }) hb hlimb
      (by rw [windowSlot_limb hl8]; exact hx), windowLimb_limb hl8]
    rfl
  case write => rw [step_writeLimb hn hl8 h, writeWindow_limb (s := { s with inbox := rest }) hb hlimb]

end Sys2Proof.Machine
end

section
/-! PROOFS. Round trips: FP_MONT and FP_DEMONT on slot integers (41_fp.md R157, R158), and the byte
encodings of the tower and of points (20_memory.md R87-R92). -/

namespace Sys2Proof.Machine

/-! ### FP_MONT and FP_DEMONT -/

/-- What the next state of a command is, once `Writes` says what it answers. -/
theorem Writes.of_next {i : Instr} {s t : State} {d : SlotNo} {w : Nat} {z : Bool} {post : State → Prop}
    (h : Writes i s d w z post) (hx : exec i s = .next t) :
    Completed s t false z ∧ Canonical t d.toNat w ∧ post t := by
  obtain ⟨t', hx', hc, -, hcan, hpost⟩ := h
  obtain rfl : t' = t := by cases hx'.symm.trans hx; rfl
  exact ⟨hc, hcan, hpost⟩

/-- A command that writes the Montgomery reduction of `a·k` (41_fp.md R157-R159). -/
theorem writes_redc {i : Instr} {s : State} {d a : SlotNo} {k : Nat}
    (hx : exec i s = completes i s fun _ =>
      { writes := putInt d.toNat (redc (s.slotInt a.toNat * k)) })
    (ho : operandsOf i = opsDA 1 d a) (hw : i.wellFormed = true) (hk : k < P)
    (hd : Fits s d 1) (ha : Typed s a 1) :
    Writes i s d 1 false fun t => t.slotInt d.toNat = redc (s.slotInt a.toNat * k) := by
  have hlt := (redc_spec (mul_lt_p_mul_r (ha.lt Nat.one_pos) hk)).1
  exact writes_of [_] (hx.trans (by rw [putInt_eq])) rfl
    (fun v hv => by rw [List.mem_singleton.1 hv]; exact hlt) (ok_DA ho hw hd ha) fun t h => h.single

theorem fpMont_writes {s : State} {d a : SlotNo} (hd : Fits s d 1) (ha : Typed s a 1) :
    Writes (.fpMont d a) s d 1 false fun t => t.slotInt d.toNat = redc (s.slotInt a.toNat * R2) :=
  writes_redc rfl rfl rfl (by decide +kernel) hd ha

theorem fpDemont_writes {s : State} {d a : SlotNo} (hd : Fits s d 1) (ha : Typed s a 1) :
    Writes (.fpDemont d a) s d 1 false fun t => t.slotInt d.toNat = redc (s.slotInt a.toNat * 1) :=
  writes_redc rfl rfl rfl (by decide +kernel) hd ha

/-- Reducing by `k` and then by `m` gives the integer back when `k·m` is R². -/
theorem redc_redc {a k m : Nat} (ha : a < P) (hk : k < P) (hm : m < P)
    (h : (k : Fp) * (m : Fp) = (R : Nat) * (R : Nat)) : redc (redc (a * k) * m) = a := by
  have h1 := mul_lt_p_mul_r ha hk
  have h2 := mul_lt_p_mul_r (redc_spec h1).1 hm
  refine eq_of_fp (redc_spec h2).1 ha ?_
  rw [redc_fp h2, Nat.cast_mul, redc_fp h1, Nat.cast_mul]
  calc (a : Fp) * k * (RINV : Nat) * m * (RINV : Nat)
      = a * (k * m) * (RINV : Nat) * (RINV : Nat) := by ring
    _ = a * ((R : Nat) * (RINV : Nat)) * ((R : Nat) * (RINV : Nat)) := by rw [h]; ring
    _ = a := by rw [r_rinv_fp, mul_one, mul_one]

theorem demont_mont {a : Nat} (ha : a < P) : redc (redc (a * R2) * 1) = a :=
  redc_redc ha (by decide +kernel) (by decide +kernel) (by rw [Nat.cast_one, mul_one, r2_fp])

theorem mont_demont {a : Nat} (ha : a < P) : redc (redc (a * 1) * R2) = a :=
  redc_redc ha (by decide +kernel) (by decide +kernel) (by rw [Nat.cast_one, one_mul, r2_fp])

/-- The operands of a second command, after a first that wrote its source. -/
theorem Completed.fits {s t : State} {r z : Bool} {e : SlotNo} {w : Nat} (h : Completed s t r z)
    (hf : Fits s e w) : Fits t e w := by
  obtain ⟨-, -, hn, -⟩ := h
  unfold Fits
  rw [hn]
  exact hf

/-- FP_DEMONT after FP_MONT gives back a standard integer (41_fp.md R157, R158). -/
theorem slotInt_demont_mont {s t u : State} {d e a : SlotNo} (ha : Typed s a 1) (hd : Fits s d 1)
    (he : Fits s e 1) (h1 : exec (.fpMont d a) s = .next t) (h2 : exec (.fpDemont e d) t = .next u) :
    u.slotInt e.toNat = s.slotInt a.toNat := by
  obtain ⟨hc, hcan, ht⟩ := (fpMont_writes hd ha).of_next h1
  obtain ⟨-, -, hu⟩ := (fpDemont_writes (hc.fits he) ⟨hc.fits hd, hcan⟩).of_next h2
  rw [hu, ht, demont_mont (ha.lt Nat.one_pos)]

/-- FP_MONT after FP_DEMONT gives back a slot value (41_fp.md R157, R158). -/
theorem slotInt_mont_demont {s t u : State} {d e a : SlotNo} (ha : Typed s a 1) (hd : Fits s d 1)
    (he : Fits s e 1) (h1 : exec (.fpDemont d a) s = .next t) (h2 : exec (.fpMont e d) t = .next u) :
    u.slotInt e.toNat = s.slotInt a.toNat := by
  obtain ⟨hc, hcan, ht⟩ := (fpDemont_writes hd ha).of_next h1
  obtain ⟨-, -, hu⟩ := (fpMont_writes (hc.fits he) ⟨hc.fits hd, hcan⟩).of_next h2
  rw [hu, ht, mont_demont (ha.lt Nat.one_pos)]

/-! ### Decoding an encoding -/

theorem decodeFp2_encodeFp2 (a : Fp2) : decodeFp2 (encodeFp2 a) = some a := by
  have hlen := length_encodeFp a.im
  rw [decodeFp2, encodeFp2, List.take_left' hlen, List.drop_left' hlen, decodeFp_encodeFp,
    decodeFp_encodeFp]
  rfl

theorem decodeFp6_encodeFp6 (a : Fp6) : decodeFp6 (encodeFp6 a) = some a := by
  have h2 := length_encodeFp2 a.c2
  have h1 := length_encodeFp2 a.c1
  have h21 : (encodeFp2 a.c2 ++ encodeFp2 a.c1).length = 192 := by rw [List.length_append, h2, h1]
  rw [decodeFp6, encodeFp6, List.drop_left' h21, List.append_assoc, List.take_left' h2,
    List.drop_left' h2, List.take_left' h1, decodeFp2_encodeFp2, decodeFp2_encodeFp2,
    decodeFp2_encodeFp2]
  rfl

theorem decodeFp12_encodeFp12 (a : Fp12) : decodeFp12 (encodeFp12 a) = some a := by
  have hlen := length_encodeFp6 a.c1
  rw [decodeFp12, encodeFp12, List.take_left' hlen, List.drop_left' hlen, decodeFp6_encodeFp6,
    decodeFp6_encodeFp6]
  rfl

/-! ### Encoding what was decoded -/

theorem encodeFp2_decodeFp2 {l : List Byte} {a : Fp2} (h : decodeFp2 l = some a) :
    encodeFp2 a = l := by
  simp only [decodeFp2, Option.bind_eq_bind, Option.bind_eq_some_iff, Option.pure_def,
    Option.some.injEq] at h
  obtain ⟨im, him, re, hre, rfl⟩ := h
  rw [encodeFp2, encodeFp_decodeFp him, encodeFp_decodeFp hre, List.take_append_drop]

theorem encodeFp6_decodeFp6 {l : List Byte} {a : Fp6} (h : decodeFp6 l = some a) :
    encodeFp6 a = l := by
  simp only [decodeFp6, Option.bind_eq_bind, Option.bind_eq_some_iff, Option.pure_def,
    Option.some.injEq] at h
  obtain ⟨c2, h2, c1, h1, c0, h0, rfl⟩ := h
  have hdrop : l.drop 192 = (l.drop 96).drop 96 := by rw [List.drop_drop]
  rw [encodeFp6, encodeFp2_decodeFp2 h2, encodeFp2_decodeFp2 h1, encodeFp2_decodeFp2 h0, hdrop,
    List.append_assoc, List.take_append_drop, List.take_append_drop]

theorem encodeFp12_decodeFp12 {l : List Byte} {a : Fp12} (h : decodeFp12 l = some a) :
    encodeFp12 a = l := by
  simp only [decodeFp12, Option.bind_eq_bind, Option.bind_eq_some_iff, Option.pure_def,
    Option.some.injEq] at h
  obtain ⟨c1, h1, c0, h0, rfl⟩ := h
  rw [encodeFp12, encodeFp6_decodeFp6 h1, encodeFp6_decodeFp6 h0, List.take_append_drop]

/-! ### Fp12 in slots -/

/-- The encoding of an Fp2 range is that of its slots, from the last down (20_memory.md R87). -/
theorem encodeFp2_val2 (s : State) (slot : Nat) :
    encodeFp2 (s.val2 slot) = s.fpBytes (slot + 1) ++ s.fpBytes slot := rfl

/-- The encoding of an Fp12 range is that of its slots, from the last down (20_memory.md R89). -/
theorem fp12Bytes_eq (s : State) (slot : Nat) :
    s.fp12Bytes slot = (List.range 12).flatMap fun k => s.fpBytes (slot + (11 - k)) := by
  have hrange : List.range 12 = [0, 1, 2, 3, 4, 5, 6, 7, 8, 9, 10, 11] := rfl
  simp only [hrange, List.flatMap_cons, List.flatMap_nil, State.fp12Bytes, State.val12, State.val6,
    encodeFp12, encodeFp6, encodeFp2_val2, List.append_assoc, List.append_nil, Nat.add_assoc,
    Nat.reduceAdd, Nat.reduceSub, Nat.add_zero]

/-! ### Points -/

/-- A point with Z = 1 is its own affine form. -/
theorem affPt_of_z_one {F : Type} [CommRing F] [DecidableEq F] {inv : F → F} (h1 : (1 : F) ≠ 0)
    (hi : ∀ z, z ≠ 0 → z * inv z = 1) (x y : F) : affPt inv ⟨x, y, 1⟩ = ⟨x, y, 1⟩ := by
  have hinv : inv 1 = 1 := (one_mul _).symm.trans (hi 1 h1)
  rw [affPt, if_neg h1]
  simp only [hinv, mul_one]

theorem one_ne_zero_fp : (1 : Fp) ≠ 0 := by decide +kernel

theorem one_ne_zero_fp2 : (1 : Fp2) ≠ 0 := by decide +kernel

theorem encodeG1_of_z_one (x y : Fp) : encodeG1 ⟨x, y, 1⟩ = some (encodeFp x ++ encodeFp y) := by
  rw [encodeG1, if_neg one_ne_zero_fp, affPt_of_z_one one_ne_zero_fp fp_inv_ok]

theorem encodeG2_of_z_one (x y : Fp2) : encodeG2 ⟨x, y, 1⟩ = some (encodeFp2 x ++ encodeFp2 y) := by
  rw [encodeG2, if_neg one_ne_zero_fp2, affPt_of_z_one one_ne_zero_fp2 fp2_inv_ok]

/-- A G1 point that decodes encodes back, is on its curve and in its subgroup
(20_memory.md R90-R92). -/
theorem encodeG1_decodeG1 {l : List Byte} {p : Jac Fp} (h : decodeG1 l = some p) :
    encodeG1 p = some l ∧ OnCurve1 p ∧ InSubgroup p := by
  simp only [decodeG1, Option.bind_eq_bind, Option.bind_eq_some_iff, Option.ite_none_right_eq_some,
    Option.some.injEq, Bool.and_eq_true] at h
  obtain ⟨x, hx, y, hy, ⟨hcurve, hsub⟩, rfl⟩ := h
  refine ⟨?_, onCurve1_iff.1 hcurve, (inSubgroup_iff fp_inv_ok).1 hsub⟩
  rw [encodeG1_of_z_one, encodeFp_decodeFp hx, encodeFp_decodeFp hy, List.take_append_drop]

/-- A G2 point that decodes encodes back, is on its curve and in its subgroup
(20_memory.md R90-R92). -/
theorem encodeG2_decodeG2 {l : List Byte} {p : Jac Fp2} (h : decodeG2 l = some p) :
    encodeG2 p = some l ∧ OnCurve2 p ∧ InSubgroup p := by
  simp only [decodeG2, Option.bind_eq_bind, Option.bind_eq_some_iff, Option.ite_none_right_eq_some,
    Option.some.injEq, Bool.and_eq_true] at h
  obtain ⟨x, hx, y, hy, ⟨hcurve, hsub⟩, rfl⟩ := h
  refine ⟨?_, onCurve2_iff.1 hcurve, (inSubgroup_iff fp2_inv_ok).1 hsub⟩
  rw [encodeG2_of_z_one, encodeFp2_decodeFp2 hx, encodeFp2_decodeFp2 hy, List.take_append_drop]

/-- Settles O36, one lemma above for each part. -/
theorem roundTrips : Obligations.RoundTrips :=
  ⟨fun _ _ _ _ _ _ ha hd he => ⟨slotInt_demont_mont ha hd he, slotInt_mont_demont ha hd he⟩,
    decodeFp12_encodeFp12, fun _ _ => encodeFp12_decodeFp12, fp12Bytes_eq,
    fun _ _ => encodeG1_decodeG1, fun _ _ => encodeG2_decodeG2⟩

end Sys2Proof.Machine
end

section
/-! PROOFS. The command word: every command has a row of the opcode table that builds it back, so
decoding and encoding are inverse to each other (30_encoding.md R100-R102, R120, R130). -/

namespace Sys2Proof

open Laws.Encoding

/-- The lemma of each command about its word, in the order of the constructors of `Instr`. -/
theorem row_builds (i : Instr) : Statement i :=
  i.casesOn nop mov zero const
    fpAdd fpSub fpDbl fpNeg fpMul fpSqr fpMont fpDemont fpRedc fpExp fpInvup fpInvdown fpInveea fpSqrt
    fpEq fpIszero
    fp2Add fp2Sub fp2Dbl fp2Neg fp2Mul fp2Sqr fp2Mulnr fp2Inv fp2Exp fp2Sqrt fp2Eq fp2Iszero
    fp6Add fp6Sub fp6Dbl fp6Neg fp6Mul fp6Sqr fp6Mulby01 fp6Mulby1 fp6Mulnr fp6Inv fp6Frob fp6Eq
    fp6Iszero
    fp12Add fp12Sub fp12Dbl fp12Neg fp12Mul fp12Sqr fp12Cycsqr fp12Mulby014 fp12Mulby034 fp12Inv
    fp12Conj fp12Frob fp12Exp fp12Eq fp12Iszero
    g1Dbl g1Add g1Neg g1Affine g1Mul g1Iszero g1Oncurve g1Insub g1Eq
    g2Dbl g2Add g2Neg g2Affine g2Mul g2Iszero g2Oncurve g2Insub g2Eq
    lineDbl lineAdd miller finalexp pair

@[simp] theorem fieldsOf_encode (i : Instr) : fieldsOf (encode i) = i.fields :=
  fieldsOf_packFields i.fields

theorem opcode_encode (i : Instr) : (encode i).extractLsb' 0 8 = i.fields.op :=
  congrArg Fields.op (fieldsOf_encode i)

/-- Settles O1: the row of the command's opcode accepts the fields of its word and builds it back. -/
theorem decodeEncode : Obligations.DecodeEncode := by
  intro i
  obtain ⟨r, hrow, hunused, hbuild⟩ := row_builds i
  rw [decode_ok_iff, opcode_encode, fieldsOf_encode]
  exact ⟨r, hrow, hunused, hbuild.symm⟩

/-- A row that accepts the fields of a word builds a command with exactly those fields: the ones it
uses are taken over and the others are 0 (30_encoding.md R102). -/
theorem fields_of_decode {w : Word} {i : Instr} (h : decode w = .ok i) : i.fields = fieldsOf w := by
  obtain ⟨r, hrow, hunused, rfl⟩ := decode_ok_iff.1 h
  obtain ⟨hmem, hop⟩ := mem_of_rowOf hrow
  rw [fields_build r hmem (fieldsOf w) hop.symm, maskFields_of_none hunused]

/-- Settles O2: a command has the fields of the word it is decoded from, and they make up the word. -/
theorem encodeDecode : Obligations.EncodeDecode := by
  intro w i h
  rw [encode, fields_of_decode h, packFields_fieldsOf]

theorem decode_of_encode {w : Word} {i : Instr} (h : encode i = w) : decode w = .ok i :=
  h ▸ decodeEncode i

/-- Settles O3: each listed word is the word of its command. -/
theorem workedEncodings : Obligations.WorkedEncodings :=
  ⟨decode_of_encode rfl, decode_of_encode rfl, decode_of_encode rfl, decode_of_encode rfl,
    decode_of_encode rfl, decode_of_encode rfl, decode_of_encode rfl, decode_of_encode rfl,
    decode_of_encode rfl, decode_of_encode rfl, decode_of_encode rfl⟩

end Sys2Proof
end

section
/-! PROOFS. Commands of the encoding chapter: the frame of every command (30_encoding.md R103), the
constants of CONST (R108), and the Frobenius powers (R110). -/

namespace Sys2Proof.Machine

/-! ### The frame -/

/-- Writes to output operands leave every byte outside these operands (20_memory.md R71). -/
theorem readByte_of_effectOk {i : Instr} {e : Effect} {m : Memory} {off : Nat} (h : EffectOk i e)
    (hoff : ∀ o ∈ operandsOf i, o.isOutput = true → ∀ k < o.width, OffSlot (o.base.toNat + k) off) :
    (m.writeSlots e.writes).readByte off = m.readByte off := by
  obtain ⟨hwrites, -⟩ := h
  refine readByte_writeSlots_off fun w hw => ?_
  obtain ⟨o, ho, hout, hge, hlt⟩ := hwrites w hw
  obtain ⟨k, hk⟩ := Nat.exists_eq_add_of_le hge
  exact hk ▸ hoff o ho hout k (by omega)

/-- Settles O22, by the three ways a command answers. -/
theorem execFrame : Obligations.ExecFrame := by
  intro i s t hx off hoff
  rcases exec_cases i s with ⟨_, -, h⟩ | ⟨_, h⟩ | ⟨_, -, h, heff⟩
  · cases h.symm.trans hx
  · cases h.symm.trans hx
    rfl
  · cases h.symm.trans hx
    exact readByte_of_effectOk heff hoff

/-! ### CONST -/

theorem exec_const (d : SlotNo) (id : Imm) (s : State) : exec (.const d id) s =
    completes (.const d id) s fun _ => { writes := putInts d.toNat (constTable id) } := rfl

/-- A reserved id names no constant (30_encoding.md R108). -/
theorem constIdDefined_reserved {id : Imm} (h : id = 0x00#8 ∨ 0x10 ≤ id.toNat) :
    constIdDefined id = false := by
  unfold constIdDefined
  rcases h with rfl | h
  · rfl
  · exact Bool.and_eq_false_iff.2 (.inr (decide_eq_false (by omega)))

/-- A reserved id is met before any other check (60_exceptions.md R403.4, R409). -/
theorem firstStop_const_reserved {s : State} {d : SlotNo} {id : Imm} (h : constIdDefined id = false) :
    firstStop (.const d id) s = some (.error { code := .reservedField, operand := .e }) := by
  have hw : wordError (.const d id) = some { code := .reservedField, operand := .e } :=
    if_neg (by simp [Instr.wellFormed, h])
  simp [firstStop, earlyError, hw]

theorem firstStop_const_defined {s : State} {d : SlotNo} {id : Imm} (hid : constIdDefined id = true)
    (hd : Fits s d (constTable id).length) : firstStop (.const d id) s = none := by
  refine firstStop_none.2 ⟨hid, fun o ho => ?_⟩
  obtain rfl := List.mem_singleton.1 ho
  exact ok_destD hd

/-- CONST writes the integers of its row in any list of rows that agrees with the constant store
(40_data.md R143). -/
theorem const_writes {s : State} {d : SlotNo} {id : Imm} {vals : List Nat} {rows : List (Imm × List Nat)}
    (hrows : ∀ r ∈ rows, constIdDefined r.1 = true ∧ constTable r.1 = r.2 ∧ ∀ v ∈ r.2, v < 2 ^ 384)
    (hm : (id, vals) ∈ rows) (hd : Fits s d vals.length) :
    ∃ t, exec (.const d id) s = .next t ∧ Completed s t false false ∧ Kept s t d.toNat vals.length ∧
      HoldsInts t d.toNat vals := by
  obtain ⟨hid, rfl, hlt⟩ : constIdDefined id = true ∧ constTable id = vals ∧ ∀ v ∈ vals, v < 2 ^ 384 :=
    hrows _ hm
  have hx := (exec_const d id s).trans (completes_of_ok (firstStop_const_defined hid hd))
  exact ⟨_, hx, completed_complete _ _, kept_of_em rfl, holdsInts_of_em (s := s) rfl hlt⟩

/-- Settles O31; the fifteen rows are compared with the constant store one by one. -/
theorem constants : Obligations.Constants :=
  ⟨fun _ _ _ h => exec_of_error (firstStop_const_reserved (constIdDefined_reserved h)),
    fun _ _ _ _ hm hd => const_writes (by decide +kernel) hm hd⟩

/-! ### Frobenius -/

/-- Settles O48: the Frobenius maps of the model are the p^k-power maps. -/
theorem frobenius : Obligations.Frobenius := fun s _ a k =>
  ⟨fun hd ha => writes_fp6 (frob6 (s.val6 a.toNat) k.toNat) rfl (ok_DA rfl rfl hd ha)
      fun _ h => h.trans (frob6_eq _ _),
    fun hd ha => writes_fp12 ((s.val12 a.toNat).frob k.toNat) rfl (ok_DA rfl rfl hd ha)
      fun _ h => h.trans (Fp12.frob_eq _ _)⟩

end Sys2Proof.Machine
end

section
/-! PROOFS. Data movement: NOP, MOV and ZERO (40_data.md R140-R142). -/

namespace Sys2Proof.Machine

/-! ### The commands and their checks -/

theorem exec_nop (s : State) : exec .nop s = completes .nop s fun _ => {} := rfl

theorem exec_mov (d a : SlotNo) (n : Imm) (s : State) : exec (.mov d a n) s =
    completes (.mov d a n) s fun _ =>
      { writes := putInts d.toNat ((List.range n.toNat).map fun i => s.slotInt (a.toNat + i)) } := rfl

theorem exec_zero (d : SlotNo) (n : Imm) (s : State) : exec (.zero d n) s =
    completes (.zero d n) s fun _ => { writes := putInts d.toNat (List.replicate n.toNat 0) } := rfl

/-- NOP has no operand, so no check can stop it. -/
theorem firstStop_nop (s : State) : firstStop .nop s = none :=
  firstStop_none.2 ⟨rfl, List.forall_mem_nil _⟩

theorem firstStop_mov {s : State} {d a : SlotNo} {n : Imm} (hd : Fits s d n.toNat) (ha : Raw s a n.toNat) :
    firstStop (.mov d a n) s = none :=
  firstStop_none.2 ⟨rfl, List.forall_mem_cons.2 ⟨ok_destD hd, List.forall_mem_singleton.2 (ok_rawInput ha)⟩⟩

theorem firstStop_zero {s : State} {d : SlotNo} {n : Imm} (hd : Fits s d n.toNat) :
    firstStop (.zero d n) s = none :=
  firstStop_none.2 ⟨rfl, List.forall_mem_singleton.2 (ok_destD hd)⟩

/-! ### MOV: raw slots, all reads first -/

theorem kept_of_em_of_length {s t : State} {slot w : Nat} {l : List Nat} (hw : l.length = w)
    (h : t.em = s.em.writeSlots (putInts slot l)) : Kept s t slot w :=
  hw ▸ kept_of_em h

/-- A slot that holds a value holds its slot integer: no bit is lost on the way through it. -/
theorem readSlot_eq_slotInt {s : State} {slot : Nat} (h : (s.em.readSlot slot).isSome) :
    s.em.readSlot slot = some (BitVec.ofNat 384 (s.slotInt slot)) := by
  obtain ⟨v, hv⟩ := Option.isSome_iff_exists.1 h
  rw [State.slotInt, hv, Option.getD_some, BitVec.ofNat_toNat, BitVec.setWidth_eq]

/-- The integers of a run of slots, all read in `s`, are written into any memory as these slots stood in
`s`, wherever the two runs overlap (20_memory.md R80). -/
theorem readSlot_putInts_slotInts {s : State} {m : Memory} {d a n k : Nat} (h : Present s a n) (hk : k < n) :
    (m.writeSlots (putInts d ((List.range n).map fun i => s.slotInt (a + i)))).readSlot (d + k) =
      s.em.readSlot (a + k) := by
  rw [readSlot_putInts (by simpa using hk), readSlot_eq_slotInt (h k hk), List.getElem_map, List.getElem_range]

theorem mov_copies {s : State} {d a : SlotNo} {n : Imm} (hd : Fits s d n.toNat) (ha : Raw s a n.toNat) :
    ∃ t, exec (.mov d a n) s = .next t ∧ Completed s t false false ∧ Kept s t d.toNat n.toNat ∧
      ∀ k < n.toNat, t.em.readSlot (d.toNat + k) = s.em.readSlot (a.toNat + k) := by
  have hx := (exec_mov d a n s).trans (completes_of_ok (firstStop_mov hd ha))
  have hlen : ((List.range n.toNat).map fun i => s.slotInt (a.toNat + i)).length = n.toNat := by simp
  obtain ⟨-, hpresent⟩ := ha
  exact ⟨_, hx, completed_complete _ _, kept_of_em_of_length hlen rfl, fun _ => readSlot_putInts_slotInts hpresent⟩

/-! ### ZERO -/

theorem slotInt_of_holdsInts_replicate {t : State} {slot n v : Nat} (h : HoldsInts t slot (List.replicate n v)) :
    ∀ k < n, t.slotInt (slot + k) = v := by
  intro k hk
  have hread := h k (by simpa using hk)
  rw [List.getElem_replicate] at hread
  exact slotInt_of_read hread

theorem zero_writes {s : State} {d : SlotNo} {n : Imm} (hd : Fits s d n.toNat) :
    Writes (.zero d n) s d n.toNat false fun t => ∀ k < n.toNat, t.slotInt (d.toNat + k) = 0 :=
  writes_of (List.replicate n.toNat 0) (exec_zero d n s) List.length_replicate
    (fun _ hv => List.eq_of_mem_replicate hv ▸ p_pos) (firstStop_zero hd)
    fun _ => slotInt_of_holdsInts_replicate

/-- Settles O30: NOP has no operand, and MOV and ZERO write one run of slots. -/
theorem dataMovement : Obligations.DataMovement :=
  ⟨fun s => decides_of false (exec_nop s) (firstStop_nop s), fun _ _ _ _ => mov_copies, fun _ _ _ => zero_writes⟩

end Sys2Proof.Machine
end

section
/-! PROOFS. The Montgomery reduction (41_fp.md R159): the multiplier that makes the division by R exact,
and the size of the quotient. -/

namespace Sys2Proof.Machine

/-- The multiple of p that REDC adds to T (41_fp.md R159). -/
def redcMultiplier (t : Nat) : Nat := t % R * NP % R

theorem redc_eq_ite (t : Nat) : redc t =
    if P ≤ (t + redcMultiplier t * P) / R then (t + redcMultiplier t * P) / R - P
    else (t + redcMultiplier t * P) / R := rfl

/-- NP is −p⁻¹ modulo R, so adding `redcMultiplier t` times p clears the low 384 bits of T. -/
theorem add_redcMultiplier_mod (t : Nat) : (t + redcMultiplier t * P) % R = 0 := by
  have hm : redcMultiplier t ≡ t * NP [MOD R] :=
    (Nat.mod_modEq _ _).trans ((Nat.mod_modEq t R).mul_right NP)
  calc t + redcMultiplier t * P ≡ t + t * NP * P [MOD R] := (hm.mul_right P).add_left t
    _ = t * (NP * P + 1) := by ring
    _ ≡ t * 0 [MOD R] := Nat.ModEq.mul_left t (np_inverse.trans (Nat.zero_mod R).symm)

theorem redcQuotient_lt {t : Nat} (h : t < P * R) : (t + redcMultiplier t * P) / R < 2 * P := by
  have hm : redcMultiplier t * P ≤ R * P := Nat.mul_le_mul_right P (Nat.mod_lt _ r_pos).le
  refine Nat.div_lt_of_lt_mul ?_
  calc t + redcMultiplier t * P < P * R + R * P := Nat.add_lt_add_of_lt_of_le h hm
    _ = R * (2 * P) := by ring

/-- Settles O32, from the exactness of the division, the bound of the quotient, and the model's laws of
`redc`. -/
theorem montgomeryReduction : Obligations.MontgomeryReduction := by
  intro T hT
  obtain ⟨hlt, hmul⟩ := redc_spec hT
  exact ⟨add_redcMultiplier_mod T, redcQuotient_lt hT, redc_eq_ite T, hlt, redc_eq hT, hmul⟩

end Sys2Proof.Machine
end

section
/-! PROOFS. The arithmetic commands of Fp (41_fp.md R151-R165) and the exponentiations of the tower: each
result as a slot integer first, then its value. -/

namespace Sys2Proof.Machine

/-! ### Values of slot integers -/

/-- A value is its slot integer over R (00_scope.md R19). -/
theorem val1_eq_mul (s : State) (n : Nat) : s.val1 n = (s.slotInt n : Fp) * (RINV : Nat) := Nat.cast_mul _ _

/-- The value of a Montgomery product is the product of the values (41_fp.md R155). -/
theorem val1_of_redc_mul {s t : State} {n a b : Nat} (hlt : s.slotInt a * s.slotInt b < P * R)
    (h : t.slotInt n = redc (s.slotInt a * s.slotInt b)) : t.val1 n = s.val1 a * s.val1 b := by
  rw [val1_eq_mul, h, redc_fp hlt, Nat.cast_mul, val1_eq_mul, val1_eq_mul]
  ring

/-- A slot that holds the Montgomery form of an integer has that value. -/
theorem val1_of_montInt {t : State} {n x : Nat} (h : t.slotInt n = montInt x) : t.val1 n = x := by
  rw [val1_eq_mul, h, montInt, ZMod.natCast_mod, Nat.cast_mul, mul_assoc, r_rinv_fp, mul_one]

/-- Slot integers with the product R² have inverse values (41_fp.md R162). -/
theorem val1_mul_val1_of_slotInt {s t : State} {n m : Nat}
    (h : t.slotInt n * s.slotInt m % P = R * R % P) : t.val1 n * s.val1 m = 1 := by
  have hfp : (t.slotInt n : Fp) * s.slotInt m = (R : Nat) * (R : Nat) := by
    rw [← Nat.cast_mul, ← Nat.cast_mul]
    exact (ZMod.natCast_eq_natCast_iff _ _ P).2 h
  calc t.val1 n * s.val1 m = t.slotInt n * s.slotInt m * (RINV : Nat) * (RINV : Nat) := by
        rw [val1_eq_mul, val1_eq_mul]; ring
    _ = (R : Nat) * (RINV : Nat) * ((R : Nat) * (RINV : Nat)) := by rw [hfp]; ring
    _ = 1 := by rw [r_rinv_fp, mul_one]

/-! ### Completion with one slot integer -/

/-- A command that writes one canonical integer. -/
theorem writes_slotInt {i : Instr} {s : State} {d : SlotNo} {z : Bool} {post : State → Prop} (v : Nat)
    (hx : exec i s = completes i s fun _ => { writes := putInt d.toNat v, zdiv := z }) (hv : v < P)
    (hok : firstStop i s = none) (hp : ∀ t, t.slotInt d.toNat = v → post t) : Writes i s d 1 z post :=
  writes_of [v] (hx.trans (by rw [putInt_eq])) rfl (List.forall_mem_singleton.2 hv) hok
    fun t h => hp t h.single

theorem Writes.mono {i : Instr} {s : State} {d : SlotNo} {w : Nat} {z : Bool} {post post' : State → Prop}
    (h : Writes i s d w z post) (hp : ∀ t, post t → post' t) : Writes i s d w z post' := by
  obtain ⟨t, hx, hc, hk, hcan, hpost⟩ := h
  exact ⟨t, hx, hc, hk, hcan, hp t hpost⟩

/-! ### FP_ADD, FP_SUB, FP_DBL, FP_NEG -/

theorem fpAdd_writes {s : State} {d a b : SlotNo} (hd : Fits s d 1) (ha : Typed s a 1) (hb : Typed s b 1) :
    Writes (.fpAdd d a b) s d 1 false fun t =>
      t.slotInt d.toNat = (s.slotInt a.toNat + s.slotInt b.toNat) % P ∧
      t.val1 d.toNat = s.val1 a.toNat + s.val1 b.toNat := by
  refine writes_slotInt _ rfl (Nat.mod_lt _ p_pos) (ok_DAB rfl rfl hd ha hb) fun t h => ⟨h, ?_⟩
  rw [val1_eq_mul, h, ZMod.natCast_mod, Nat.cast_add, add_mul, ← val1_eq_mul, ← val1_eq_mul]

/-- Adding p first does not change the difference modulo p (41_fp.md R152). -/
theorem int_add_sub_mod {a b : Nat} (hb : b < P) : (((a + P - b) % P : Nat) : Int) = ((a : Int) - b) % P := by
  rw [Int.natCast_emod, Nat.cast_sub (by omega), Nat.cast_add, add_sub_right_comm, Int.add_emod_right]

theorem fpSub_writes {s : State} {d a b : SlotNo} (hd : Fits s d 1) (ha : Typed s a 1) (hb : Typed s b 1) :
    Writes (.fpSub d a b) s d 1 false fun t =>
      (t.slotInt d.toNat : Int) = ((s.slotInt a.toNat : Int) - s.slotInt b.toNat) % P ∧
      t.val1 d.toNat = s.val1 a.toNat - s.val1 b.toNat := by
  have hlt := hb.lt Nat.one_pos
  refine writes_slotInt _ rfl (Nat.mod_lt _ p_pos) (ok_DAB rfl rfl hd ha hb) fun t h =>
    ⟨by rw [h, int_add_sub_mod hlt], ?_⟩
  rw [val1_eq_mul, h, ZMod.natCast_mod, Nat.cast_sub (by omega), Nat.cast_add, ZMod.natCast_self, add_zero,
    sub_mul, ← val1_eq_mul, ← val1_eq_mul]

theorem fpDbl_writes {s : State} {d a : SlotNo} (hd : Fits s d 1) (ha : Typed s a 1) :
    Writes (.fpDbl d a) s d 1 false fun t =>
      t.slotInt d.toNat = 2 * s.slotInt a.toNat % P ∧ t.val1 d.toNat = 2 * s.val1 a.toNat := by
  refine writes_slotInt _ rfl (Nat.mod_lt _ p_pos) (ok_DA rfl rfl hd ha) fun t h => ⟨h, ?_⟩
  rw [val1_eq_mul, h, ZMod.natCast_mod, Nat.cast_mul, Nat.cast_ofNat, mul_assoc, ← val1_eq_mul]

theorem fpNeg_writes {s : State} {d a : SlotNo} (hd : Fits s d 1) (ha : Typed s a 1) :
    Writes (.fpNeg d a) s d 1 false fun t =>
      t.slotInt d.toNat = (P - s.slotInt a.toNat) % P ∧ t.val1 d.toNat = -s.val1 a.toNat := by
  refine writes_slotInt _ rfl (Nat.mod_lt _ p_pos) (ok_DA rfl rfl hd ha) fun t h => ⟨h, ?_⟩
  rw [val1_eq_mul, h, ZMod.natCast_mod, Nat.cast_sub (ha.lt Nat.one_pos).le, ZMod.natCast_self, zero_sub,
    neg_mul, ← val1_eq_mul]

/-- Settles O33, command by command. -/
theorem fpAdditive : Obligations.FpAdditive := fun _ _ _ _ hd ha =>
  ⟨fun hb => ⟨fpAdd_writes hd ha hb, fpSub_writes hd ha hb⟩, fpDbl_writes hd ha, fpNeg_writes hd ha⟩

/-! ### FP_MUL, FP_SQR, FP_MONT, FP_DEMONT, FP_REDC -/

theorem fpMul_writes {s : State} {d a b : SlotNo} (hd : Fits s d 1) (ha : Typed s a 1) (hb : Typed s b 1) :
    Writes (.fpMul d a b) s d 1 false fun t =>
      t.slotInt d.toNat = s.slotInt a.toNat * s.slotInt b.toNat * RINV % P ∧
      t.val1 d.toNat = s.val1 a.toNat * s.val1 b.toNat := by
  have hlt := mul_lt_p_mul_r (ha.lt Nat.one_pos) (hb.lt Nat.one_pos)
  exact writes_slotInt _ rfl (redc_spec hlt).1 (ok_DAB rfl rfl hd ha hb) fun t h =>
    ⟨h.trans (redc_eq hlt), val1_of_redc_mul hlt h⟩

theorem fpSqr_writes {s : State} {d a : SlotNo} (hd : Fits s d 1) (ha : Typed s a 1) :
    Writes (.fpSqr d a) s d 1 false fun t =>
      t.slotInt d.toNat = s.slotInt a.toNat * s.slotInt a.toNat * RINV % P ∧
      t.val1 d.toNat = s.val1 a.toNat * s.val1 a.toNat := by
  have hlt := mul_lt_p_mul_r (ha.lt Nat.one_pos) (ha.lt Nat.one_pos)
  exact (writes_redc rfl rfl rfl (ha.lt Nat.one_pos) hd ha).mono fun t h =>
    ⟨h.trans (redc_eq hlt), val1_of_redc_mul hlt h⟩

/-- Reducing `a·R2` gives the Montgomery form of `a` (41_fp.md R157). -/
theorem redc_mul_r2 {a : Nat} (ha : a < P) : redc (a * R2) = montInt a := by
  have hlt : a * R2 < P * R := mul_lt_p_mul_r ha (by decide +kernel)
  refine eq_of_fp (redc_spec hlt).1 (montInt_lt a) ?_
  rw [redc_fp hlt, montInt, ZMod.natCast_mod, Nat.cast_mul, Nat.cast_mul, r2_fp, mul_assoc, mul_assoc,
    r_rinv_fp, mul_one]

theorem fpMont_writes_montInt {s : State} {d a : SlotNo} (hd : Fits s d 1) (ha : Typed s a 1) :
    Writes (.fpMont d a) s d 1 false fun t =>
      t.slotInt d.toNat = s.slotInt a.toNat * R % P ∧ t.val1 d.toNat = (s.slotInt a.toNat : Fp) :=
  (fpMont_writes hd ha).mono fun _ h =>
    have hmont := h.trans (redc_mul_r2 (ha.lt Nat.one_pos))
    ⟨hmont, val1_of_montInt hmont⟩

theorem fpDemont_writes_val {s : State} {d a : SlotNo} (hd : Fits s d 1) (ha : Typed s a 1) :
    Writes (.fpDemont d a) s d 1 false fun t =>
      t.slotInt d.toNat = s.slotInt a.toNat * RINV % P ∧ t.slotInt d.toNat = (s.val1 a.toNat).val := by
  refine (fpDemont_writes hd ha).mono fun t h => ?_
  have hval : t.slotInt d.toNat = s.slotInt a.toNat * RINV % P := by
    rw [h, redc_eq (mul_lt_p_mul_r (ha.lt Nat.one_pos) (by decide +kernel)), mul_one]
  exact ⟨hval, hval.trans (ZMod.val_natCast P _).symm⟩

/-- Settles O34, command by command. -/
theorem fpMontgomery : Obligations.FpMontgomery := fun _ _ _ _ hd ha =>
  ⟨fpMul_writes hd ha, fpSqr_writes hd ha, fpMont_writes_montInt hd ha, fpDemont_writes_val hd ha⟩

theorem exec_fpRedc (d a b : SlotNo) (s : State) : exec (.fpRedc d a b) s =
    guarded (.fpRedc d a b) s fun _ =>
      if P * R ≤ s.redcInput a b then
        .next (s.abort { code := .noncanonical, slot := b.toNat, operand := .b })
      else .next (s.complete { writes := putInt d.toNat (redc (s.redcInput a b)) }) := rfl

/-- FP_REDC of an integer below p·R passes its own check too (41_fp.md R160). -/
theorem exec_fpRedc_of_lt {s : State} {d a b : SlotNo} (hok : firstStop (.fpRedc d a b) s = none)
    (hlt : s.redcInput a b < P * R) : exec (.fpRedc d a b) s =
      completes (.fpRedc d a b) s fun _ => { writes := putInt d.toNat (redc (s.redcInput a b)) } := by
  rw [exec_fpRedc, guarded_of_ok hok, if_neg hlt.not_ge, completes_of_ok hok]

/-- Settles O35: the two halves are raw, so only T < p·R bounds them. -/
theorem fpReducer : Obligations.FpReducer := by
  intro s d a b hd ha hb hlt
  rw [← redcInput_eq] at hlt ⊢
  have hok := ok_redc hd ha hb
  exact writes_slotInt _ (exec_fpRedc_of_lt hok hlt) (redc_spec hlt).1 hok fun t h => h.trans (redc_eq hlt)

/-! ### FP_EXP, FP2_EXP, FP12_EXP -/

/-- The loops run over 384 bits, which are all the bits of a slot integer. -/
theorem slotInt_mod (s : State) (n : Nat) : s.slotInt n % 2 ^ 384 = s.slotInt n := Nat.mod_eq_of_lt (slotInt_lt s n)

theorem fpExp_writes {s : State} {d a b : SlotNo} (hd : Fits s d 1) (ha : Typed s a 1) (hb : Raw s b 1) :
    Writes (.fpExp d a b) s d 1 false fun t => t.val1 d.toNat = s.val1 a.toNat ^ s.slotInt b.toNat := by
  obtain ⟨x, hx⟩ := exists_montInt (ha.lt Nat.one_pos)
  have hpow : montPow (s.slotInt a.toNat) (s.slotInt b.toNat) = montInt (x ^ s.slotInt b.toNat) := by
    rw [hx, montPow_montInt, slotInt_mod]
  refine writes_slotInt _ rfl (hpow ▸ montInt_lt _) (ok_DAraw rfl rfl hd ha hb) fun t h => ?_
  rw [val1_of_montInt (h.trans hpow), val1_of_montInt hx, Nat.cast_pow]

theorem fp2Exp_writes {s : State} {d a b : SlotNo} (hd : Fits s d 2) (ha : Typed s a 2) (hb : Raw s b 1) :
    Writes (.fp2Exp d a b) s d 2 false fun t => t.val2 d.toNat = s.val2 a.toNat ^ s.slotInt b.toNat :=
  writes_fp2 _ rfl (ok_DAraw rfl rfl hd ha hb) fun t h => by rw [h, powBits_eq, slotInt_mod]

theorem fp12Exp_writes {s : State} {d a b : SlotNo} (hd : Fits s d 12) (ha : Typed s a 12) (hb : Raw s b 1) :
    Writes (.fp12Exp d a b) s d 12 false fun t =>
      t.val12 d.toNat = (s.val12 a.toNat).npow (s.slotInt b.toNat) :=
  writes_fp12 _ rfl (ok_DAraw rfl rfl hd ha hb) fun t h => by rw [h, Fp12.pow_eq, slotInt_mod]

/-- Settles O37, field by field: the loop over the 384 bits of the exponent is the power. -/
theorem exponentiation : Obligations.Exponentiation := fun _ _ _ _ hb =>
  ⟨fun hd ha => fpExp_writes hd ha hb, fun hd ha => fp2Exp_writes hd ha hb,
    fun hd ha => fp12Exp_writes hd ha hb⟩

/-! ### FP_INVUP, FP_INVDOWN, FP_INVEEA -/

/-- A command that writes `inv0(EM[A])·m mod p` and reports whether EM[A] is 0. -/
def IsInverse (i : Instr) (s : State) (d a : SlotNo) (m : Nat) : Prop :=
  exec i s = completes i s fun _ =>
    { writes := putInt d.toNat (inv0 (s.slotInt a.toNat) * m % P), zdiv := s.allZero a.toNat 1 }

theorem fpInvup_isInverse (s : State) (d a : SlotNo) : IsInverse (.fpInvup d a) s d a R2 := rfl

theorem fpInvdown_isInverse (s : State) (d a : SlotNo) : IsInverse (.fpInvdown d a) s d a R := rfl

theorem fpInveea_isInverse (s : State) (d a : SlotNo) : IsInverse (.fpInveea d a) s d a 1 := by
  have h : inv0 (s.slotInt a.toNat) * 1 % P = inv0 (s.slotInt a.toNat) := by
    rw [mul_one, Nat.mod_eq_of_lt (inv0_lt _)]
  rw [IsInverse, h]
  rfl

theorem inverse_writes {i : Instr} {s : State} {d a : SlotNo} {m k : Nat} (hx : IsInverse i s d a m)
    (hok : firstStop i s = none) (ha : Typed s a 1) (hk : (m : Fp) = k) (h0 : s.slotInt a.toNat ≠ 0) :
    Writes i s d 1 false fun t => t.slotInt d.toNat * s.slotInt a.toNat % P = k % P := by
  rw [IsInverse, allZero_one, decide_eq_false h0] at hx
  refine writes_slotInt _ hx (Nat.mod_lt _ p_pos) hok fun t h => mod_eq_of_fp ?_
  rw [h, Nat.cast_mul, ZMod.natCast_mod, Nat.cast_mul, mul_right_comm, inv0_mul h0 (ha.lt Nat.one_pos),
    one_mul, hk]

theorem inverse_writes_zero {i : Instr} {s : State} {d a : SlotNo} {m : Nat} (hx : IsInverse i s d a m)
    (hok : firstStop i s = none) (h0 : s.slotInt a.toNat = 0) :
    Writes i s d 1 true fun t => t.slotInt d.toNat = 0 := by
  rw [IsInverse, allZero_one, decide_eq_true h0, h0, inv0_zero, zero_mul, Nat.zero_mod] at hx
  exact writes_slotInt 0 hx p_pos hok fun _ h => h

/-- Settles O38: the three commands differ in the factor R², R or 1 only. -/
theorem fpInverses : Obligations.FpInverses := by
  intro s d a hd ha i k hik
  obtain ⟨m, hx, hok, hk, hup⟩ : ∃ m : Nat, IsInverse i s d a m ∧ firstStop i s = none ∧ (m : Fp) = k ∧
      (i = .fpInvup d a → k = R * R) := by
    simp only [List.mem_cons, List.not_mem_nil, or_false, Prod.mk.injEq] at hik
    rcases hik with ⟨rfl, hk⟩ | ⟨rfl, hk⟩ | ⟨rfl, hk⟩
    · exact ⟨R2, fpInvup_isInverse s d a, ok_DA rfl rfl hd ha, by rw [hk, r2_fp, Nat.cast_mul], fun _ => hk⟩
    · exact ⟨R, fpInvdown_isInverse s d a, ok_DA rfl rfl hd ha, by rw [hk], nofun⟩
    · exact ⟨1, fpInveea_isInverse s d a, ok_DA rfl rfl hd ha, by rw [hk], nofun⟩
  exact ⟨fun h0 => (inverse_writes hx hok ha hk h0).mono fun t h =>
    ⟨h, fun hi => val1_mul_val1_of_slotInt (hup hi ▸ h)⟩, inverse_writes_zero hx hok⟩

/-! ### FP_SQRT -/

/-- What a command leaves that writes the slot integers `l` and gives an answer. -/
theorem completes_putInts {i : Instr} {s : State} {slot : Nat} {l : List Nat} {r : Bool}
    (hx : exec i s = .next (s.complete { writes := putInts slot l, result := r })) (hl : ∀ v ∈ l, v < P) :
    ∃ t, exec i s = .next t ∧ Completed s t r false ∧ Kept s t slot l.length ∧ Canonical t slot l.length ∧
      HoldsInts t slot l := by
  have hh : HoldsInts (s.complete { writes := putInts slot l, result := r }) slot l :=
    holdsInts_of_em (s := s) rfl fun v hv => (hl v hv).trans p_lt_r
  exact ⟨_, hx, completed_complete _ _, kept_of_em rfl, hh.canonical hl, hh⟩

theorem exec_fpSqrt (d a : SlotNo) (s : State) : exec (.fpSqrt d a) s =
    completes (.fpSqrt d a) s fun _ =>
      if sqrtp (s.val1 a.toNat) * sqrtp (s.val1 a.toNat) = s.val1 a.toNat then
        { writes := putInts d.toNat (ints1 (sqrtp (s.val1 a.toNat))), result := true }
      else {} := rfl

theorem fpSqrt_of_square {s : State} {d a : SlotNo} (hd : Fits s d 1) (ha : Typed s a 1)
    (h : IsSquare (s.val1 a.toNat)) : ∃ t, exec (.fpSqrt d a) s = .next t ∧ Completed s t true false ∧
      Kept s t d.toNat 1 ∧ Canonical t d.toNat 1 ∧ t.val1 d.toNat = sqrtp (s.val1 a.toNat) := by
  have hx := (exec_fpSqrt d a s).trans (completes_of_ok (ok_DA rfl rfl hd ha))
  rw [if_pos (sqrtp_sq h)] at hx
  obtain ⟨t, hx, hc, hk, hcan, hh⟩ := completes_putInts hx lt_ints1
  exact ⟨t, hx, hc, hk, hcan, hh.val1⟩

theorem fpSqrt_of_not_square {s : State} {d a : SlotNo} (hd : Fits s d 1) (ha : Typed s a 1)
    (h : ¬IsSquare (s.val1 a.toNat)) : Decides (.fpSqrt d a) s false := by
  refine decides_of false ((exec_fpSqrt d a s).trans ?_) (ok_DA rfl rfl hd ha)
  rw [if_neg (mt (sqrtp_sq_iff _).1 h)]

/-- Settles O39: the candidate root y^((p+1)/4) is a root exactly of the squares. -/
theorem fpSquareRoot : Obligations.FpSquareRoot := by
  intro s d a hd ha
  have hsq : (∃ r, r * r = s.val1 a.toNat) ↔ IsSquare (s.val1 a.toNat) :=
    exists_congr fun _ => eq_comm
  rw [hsq]
  refine ⟨fun h => ?_, fpSqrt_of_not_square hd ha⟩
  obtain ⟨t, hx, hc, hk, hcan, hval⟩ := fpSqrt_of_square hd ha h
  exact ⟨t, hx, hc, hk, hcan, hval.trans (powAll_eq _ _), by rw [hval, sqrtp_sq h]⟩

end Sys2Proof.Machine
end

section
/-! PROOFS. The equality and zero predicates of the four fields (41_fp.md R166, R167; 42_fp2.md R211, R212;
43_fp6.md R242, R243; 44_fp12.md R274, R275): the slot integers they compare determine the elements. -/

namespace Sys2Proof.Machine

/-- An equality predicate decides `p` when equal slot integers mean `p`. -/
theorem decides_allEqual {i : Instr} {s : State} {w : Nat} {a b : SlotNo} {p : Prop} [Decidable p]
    (hx : exec i s = completes i s fun _ => { result := s.allEqual a.toNat b.toNat w })
    (ho : operandsOf i = opsAB w a b) (hw : i.wellFormed = true) (ha : Typed s a w) (hb : Typed s b w)
    (h : p ↔ ∀ k < w, s.slotInt (a.toNat + k) = s.slotInt (b.toNat + k)) : Decides i s (decide p) := by
  have heq : s.allEqual a.toNat b.toNat w = decide p := by
    rw [Bool.eq_iff_iff, allEqual_iff, decide_eq_true_iff, h]
  exact decides_of _ (heq ▸ hx) (ok_AB ho hw ha hb)

/-- Settles O40: in every field, canonical slots hold equal elements exactly when they hold equal
integers. -/
theorem fieldEquality : Obligations.FieldEquality := by
  intro s a b
  refine ⟨fun ha hb => decides_allEqual rfl rfl rfl ha hb ?fp,
    fun ha hb => decides_allEqual rfl rfl rfl ha hb (val2_inj ha.2 hb.2),
    fun ha hb => decides_allEqual rfl rfl rfl ha hb (val6_inj ha.2 hb.2),
    fun ha hb => decides_allEqual rfl rfl rfl ha hb (val12_inj ha.2 hb.2)⟩
  case fp =>
    rw [val1_inj (ha.lt Nat.one_pos) (hb.lt Nat.one_pos)]
    simp

/-- A zero predicate decides what the test for 0 of its slots decides. -/
theorem decides_allZero {i : Instr} {s : State} {w : Nat} {a : SlotNo} {r : Bool}
    (hx : exec i s = completes i s fun _ => { result := s.allZero a.toNat w })
    (ho : operandsOf i = opsA w a) (hw : i.wellFormed = true) (ha : Typed s a w)
    (h : s.allZero a.toNat w = r) : Decides i s r :=
  decides_of r (h ▸ hx) (ok_A ho hw ha)

theorem allZero_fp {s : State} {a : Nat} (h : s.slotInt a < P) : s.allZero a 1 = decide (s.val1 a = 0) := by
  simp only [allZero_one, val1_eq_zero_iff h]

/-- Settles O41: in every field, an element is 0 exactly when all its slots hold 0. -/
theorem fieldIsZero : Obligations.FieldIsZero := fun _ _ =>
  ⟨fun ha => decides_allZero rfl rfl rfl ha (allZero_fp (ha.lt Nat.one_pos)),
    fun ha => decides_allZero rfl rfl rfl ha (allZero_fp2 ha.2),
    fun ha => decides_allZero rfl rfl rfl ha (allZero_fp6 ha.2),
    fun ha => decides_allZero rfl rfl rfl ha (allZero_fp12 ha.2)⟩

end Sys2Proof.Machine
end

section
/-! PROOFS. The commands of Fp2: the ring commands (42_fp2.md R201-R207) and the square root (R210); and
the inverses of the tower (42_fp2.md R208, 43_fp6.md R240, 44_fp12.md R270). -/

namespace Sys2Proof.Machine

/-! ### FP2_ADD to FP2_MULNR -/

theorem fp2_two_mul (x : Fp2) : 2 * x = ⟨2 * x.re, 2 * x.im⟩ := by
  rw [two_mul, two_mul, two_mul]
  rfl

/-- The product with u² = −1 (42_fp2.md R205). -/
theorem fp2_mul_eq (x y : Fp2) : x * y = ⟨x.re * y.re - x.im * y.im, x.re * y.im + x.im * y.re⟩ := by
  ext
  · rw [QuadraticAlgebra.re_mul, neg_one_mul, neg_mul, ← sub_eq_add_neg]
  · rw [QuadraticAlgebra.im_mul, zero_mul, zero_mul, add_zero]

/-- Settles O42: each command writes the element that its rule states, and the two products by steps are
the products of the ring. -/
theorem fp2Ring : Obligations.Fp2Ring := by
  rintro s d a b x y hd ha rfl rfl
  refine ⟨fun hb => ⟨?add, ?sub, ?mul⟩, ?dbl, ?neg, ?sqr, ?mulnr⟩
  case add => exact writes_fp2 _ rfl (ok_DAB rfl rfl hd ha hb) fun _ h => h
  case sub => exact writes_fp2 _ rfl (ok_DAB rfl rfl hd ha hb) fun _ h => h
  case mul =>
    exact writes_fp2 _ rfl (ok_DAB rfl rfl hd ha hb) fun _ h =>
      h.trans ((fp2MulKaratsuba_eq _ _).trans (fp2_mul_eq _ _))
  case dbl => exact writes_fp2 _ rfl (ok_DA rfl rfl hd ha) fun _ h => h.trans (fp2_two_mul _)
  case neg => exact writes_fp2 _ rfl (ok_DA rfl rfl hd ha) fun _ h => h
  case sqr => exact writes_fp2 _ rfl (ok_DA rfl rfl hd ha) fun _ h => h
  case mulnr =>
    exact writes_fp2 _ rfl (ok_DA rfl rfl hd ha) fun _ h => ⟨h, h.trans (mulXi_eq _)⟩

/-! ### Which root FP2_SQRT finds -/

theorem sqrtp_eq (y : Fp) : sqrtp y = y ^ ((P + 1) / 4) := powAll_eq _ _

/-- The squares of Fp2 are the elements of which a root is found (42_fp2.md R210). -/
theorem exists_fp2Sqrt_iff {x : Fp2} : (∃ r, fp2Sqrt x = some r) ↔ ∃ r, r * r = x := by
  refine ⟨fun ⟨r, h⟩ => ⟨r, fp2Sqrt_sound h⟩, fun ⟨r, h⟩ => ?_⟩
  cases hx : fp2Sqrt x with
  | none => exact absurd h (fp2Sqrt_complete hx r)
  | some r' => exact ⟨r', rfl⟩

theorem fp2Sqrt_of_isSquare_re {x : Fp2} (hi : x.im = 0) (hq : IsSquare x.re) :
    fp2Sqrt x = some ⟨sqrtp x.re, 0⟩ := by
  rw [fp2Sqrt, if_pos hi, if_pos ((isqr_iff _).2 hq)]

theorem fp2Sqrt_of_not_isSquare_re {x : Fp2} (hi : x.im = 0) (hq : ¬IsSquare x.re) :
    fp2Sqrt x = some ⟨0, sqrtp (-x.re)⟩ := by
  rw [fp2Sqrt, if_pos hi, if_neg (mt (isqr_iff _).1 hq)]

/-- The square of the first coefficient of the root: (a0 + n)/2 if it is a square, else (a0 − n)/2, where
n is the root of the norm (42_fp2.md R210). -/
def sqrtReSq (x : Fp2) : Fp :=
  if isqr ((x.re + sqrtp (norm2 x)) * fpInv 2) then (x.re + sqrtp (norm2 x)) * fpInv 2
  else (x.re - sqrtp (norm2 x)) * fpInv 2

theorem re_of_fp2Sqrt {x r : Fp2} (hi : x.im ≠ 0) (h : fp2Sqrt x = some r) : r.re = sqrtp (sqrtReSq x) := by
  rw [fp2Sqrt, if_neg hi] at h
  simp only at h
  split at h
  · obtain rfl := Option.some.inj h
    rw [sqrtReSq, norm2]
  · cases h

theorem sqrtReSq_of_isSquare {x : Fp2} (h : IsSquare ((x.re + sqrtp (norm2 x)) * fpInv 2)) :
    sqrtReSq x = (x.re + sqrtp (norm2 x)) * fpInv 2 := if_pos ((isqr_iff _).2 h)

theorem sqrtReSq_of_not_isSquare {x : Fp2} (h : ¬IsSquare ((x.re + sqrtp (norm2 x)) * fpInv 2)) :
    sqrtReSq x = (x.re - sqrtp (norm2 x)) * fpInv 2 := if_neg (mt (isqr_iff _).1 h)

/-- The first coefficient of a root determines the second (42_fp2.md R210). -/
theorem im_mul_of_mul_self {x r : Fp2} (h : r * r = x) : r.im * (2 * r.re) = x.im := by
  rw [← h, fp2_mul_eq]
  ring

/-! ### FP2_SQRT -/

/-- What FP2_SQRT does, by the root that is found or not (42_fp2.md R210). -/
theorem exec_fp2Sqrt (d a : SlotNo) (s : State) : exec (.fp2Sqrt d a) s =
    completes (.fp2Sqrt d a) s fun _ =>
      (fp2Sqrt (s.val2 a.toNat)).elim {} fun r =>
        { writes := putInts d.toNat (ints2 r), result := true } := by
  show execFp2Sqrt d a s = _
  unfold execFp2Sqrt
  cases fp2Sqrt (s.val2 a.toNat) <;> rfl

theorem fp2Sqrt_completes {s : State} {d a : SlotNo} {r : Fp2} (hd : Fits s d 2) (ha : Typed s a 2)
    (h : fp2Sqrt (s.val2 a.toNat) = some r) : ∃ t, exec (.fp2Sqrt d a) s = .next t ∧
      Completed s t true false ∧ Kept s t d.toNat 2 ∧ Canonical t d.toNat 2 ∧ t.val2 d.toNat = r := by
  have hx := (exec_fp2Sqrt d a s).trans (completes_of_ok (ok_DA rfl rfl hd ha))
  rw [h, Option.elim_some] at hx
  obtain ⟨t, hx, hc, hk, hcan, hh⟩ := completes_putInts hx lt_ints2
  exact ⟨t, hx, hc, hk, hcan, hh.val2⟩

theorem fp2Sqrt_decides {s : State} {d a : SlotNo} (hd : Fits s d 2) (ha : Typed s a 2)
    (h : fp2Sqrt (s.val2 a.toNat) = none) : Decides (.fp2Sqrt d a) s false := by
  refine decides_of false ((exec_fp2Sqrt d a s).trans ?_) (ok_DA rfl rfl hd ha)
  rw [h, Option.elim_none]

/-- Settles O43: the command finds a root exactly of the squares, and the branches of R210 say which. -/
theorem fp2SquareRoot : Obligations.Fp2SquareRoot := by
  rintro s d a x hd ha rfl
  refine ⟨fun hsq => ?square, fun hsq => ?nonsquare⟩
  case square =>
    obtain ⟨r, hr⟩ := exists_fp2Sqrt_iff.2 hsq
    obtain ⟨t, hx, hc, hk, hcan, hval⟩ := fp2Sqrt_completes hd ha hr
    have hroot := fp2Sqrt_sound hr
    refine ⟨t, hx, hc, hk, hcan, ?_⟩
    rw [hval]
    refine ⟨hroot, fun hi hq => ?_, fun hi hq => ?_, fun hi =>
      ⟨fpInv 2, sqrtp (norm2 _), sqrtReSq _, mul_fpInv two_ne_zero_fp, ?_, sqrtReSq_of_isSquare,
        sqrtReSq_of_not_isSquare, ?_, im_mul_of_mul_self hroot⟩⟩
    · rw [← sqrtp_eq]
      exact Option.some.inj (hr.symm.trans (fp2Sqrt_of_isSquare_re hi hq))
    · rw [← sqrtp_eq]
      exact Option.some.inj (hr.symm.trans (fp2Sqrt_of_not_isSquare_re hi hq))
    · rw [sqrtp_eq, norm2, sq, sq]
    · rw [re_of_fp2Sqrt hi hr, sqrtp_eq]
  case nonsquare =>
    refine fp2Sqrt_decides hd ha (Option.eq_none_iff_forall_ne_some.2 fun r hr => ?_)
    exact hsq (exists_fp2Sqrt_iff.1 ⟨r, hr⟩)

/-! ### FP2_INV, FP6_INV, FP12_INV -/

theorem fp2Inv_writes {s : State} {d a : SlotNo} (hd : Fits s d 2) (ha : Typed s a 2) :
    Writes (.fp2Inv d a) s d 2 (decide (s.val2 a.toNat = 0)) fun t =>
      t.val2 d.toNat = fp2Inv (s.val2 a.toNat) := by
  rw [← allZero_fp2 ha.2]
  exact writes_fp2 _ rfl (ok_DA rfl rfl hd ha) fun _ h => h

theorem fp6Inv_writes {s : State} {d a : SlotNo} (hd : Fits s d 6) (ha : Typed s a 6) :
    Writes (.fp6Inv d a) s d 6 (decide (s.val6 a.toNat = .zero)) fun t =>
      t.val6 d.toNat = (s.val6 a.toNat).inv := by
  rw [← allZero_fp6 ha.2]
  exact writes_fp6 _ rfl (ok_DA rfl rfl hd ha) fun _ h => h

theorem fp12Inv_writes {s : State} {d a : SlotNo} (hd : Fits s d 12) (ha : Typed s a 12) :
    Writes (.fp12Inv d a) s d 12 (decide (s.val12 a.toNat = .zero)) fun t =>
      t.val12 d.toNat = (s.val12 a.toNat).inv := by
  rw [← allZero_fp12 ha.2]
  exact writes_fp12 _ rfl (ok_DA rfl rfl hd ha) fun _ h => h

/-- A command that writes the inverse of `x`, and sets ZDIV exactly when `x` is 0, in the two cases of its
rule. -/
theorem Writes.inverse {F : Type} [DecidableEq F] {i : Instr} {s : State} {d : SlotNo} {w : Nat}
    {val : State → F} {mul : F → F → F} {inv : F → F} {x zero one : F}
    (h : Writes i s d w (decide (x = zero)) fun t => val t = inv x)
    (hmul : x ≠ zero → mul x (inv x) = one) (hzero : inv zero = zero) :
    (x ≠ zero → Writes i s d w false fun t => mul x (val t) = one) ∧
      (x = zero → Writes i s d w true fun t => val t = zero) := by
  refine ⟨fun hx => ?_, fun hx => ?_⟩
  · rw [decide_eq_false hx] at h
    exact h.mono fun t ht => ht ▸ hmul hx
  · rw [decide_eq_true hx] at h
    exact h.mono fun t ht => by rw [ht, hx, hzero]

/-- Settles O47, field by field: the three inverses of the model invert, and send 0 to 0. -/
theorem towerInverses : Obligations.TowerInverses := fun _ _ _ =>
  ⟨fun hd ha => (fp2Inv_writes hd ha).inverse mul_fp2Inv fp2Inv_zero,
    fun hd ha => (fp6Inv_writes hd ha).inverse Fp6.mul_inv Fp6.inv_zero,
    fun hd ha => (fp12Inv_writes hd ha).inverse Fp12.mul_inv Fp12.inv_zero⟩

end Sys2Proof.Machine
end

section
/-! PROOFS. The additive commands of Fp6 and Fp12 (43_fp6.md R231-R234, 44_fp12.md R261-R264), and the
products of Fp6 (43_fp6.md R235-R239). -/

namespace Sys2Proof.Machine

/-! ### FP6_ADD to FP6_NEG, FP12_ADD to FP12_NEG -/

/-- Settles O44: each command writes what the operation of its field gives, and that operation is the one
of Fp2 on each coefficient. -/
theorem towerAdditive : Obligations.TowerAdditive := by
  intro s d a b
  refine ⟨?fp6, ?fp12⟩
  case fp6 =>
    rintro x y hd ha rfl rfl
    refine ⟨fun hb => ⟨?add, ?sub⟩, ?dbl, ?neg⟩
    case add => exact writes_fp6 (Fp6.add _ _) rfl (ok_DAB rfl rfl hd ha hb) fun _ h => h
    case sub => exact writes_fp6 (Fp6.sub _ _) rfl (ok_DAB rfl rfl hd ha hb) fun _ h => h
    case dbl => exact writes_fp6 (Fp6.dbl _) rfl (ok_DA rfl rfl hd ha) fun _ h => h
    case neg => exact writes_fp6 (Fp6.neg _) rfl (ok_DA rfl rfl hd ha) fun _ h => h
  case fp12 =>
    rintro x y hd ha rfl rfl
    refine ⟨fun hb => ⟨?add, ?sub⟩, ?dbl, ?neg⟩
    case add => exact writes_fp12 (Fp12.add _ _) rfl (ok_DAB rfl rfl hd ha hb) fun _ h => h
    case sub => exact writes_fp12 (Fp12.sub _ _) rfl (ok_DAB rfl rfl hd ha hb) fun _ h => h
    case dbl => exact writes_fp12 (Fp12.dbl _) rfl (ok_DA rfl rfl hd ha) fun _ h => h
    case neg => exact writes_fp12 (Fp12.neg _) rfl (ok_DA rfl rfl hd ha) fun _ h => h

/-! ### FP6_MUL to FP6_MULNR -/

/-- The product with v³ = 1 + u, coefficient by coefficient (43_fp6.md R235). -/
theorem Fp6.mul_eq (x y : Fp6) : x.mul y =
    ⟨x.c0 * y.c0 + ⟨1, 1⟩ * (x.c1 * y.c2 + x.c2 * y.c1),
     x.c0 * y.c1 + x.c1 * y.c0 + ⟨1, 1⟩ * (x.c2 * y.c2),
     x.c0 * y.c2 + x.c1 * y.c1 + x.c2 * y.c0⟩ := by
  rw [Fp6.mul, mulXi_eq, mulXi_eq, xi]

/-- The product by v moves each coefficient one place up, the last times ξ to the front (43_fp6.md R239). -/
theorem Fp6.mulV_eq_rotate (x : Fp6) : x.mulV = ⟨⟨1, 1⟩ * x.c2, x.c0, x.c1⟩ := by
  rw [Fp6.mulV, mulXi_eq, xi]

/-- Settles O45: each command writes a product of the ring Fp6, the two in place by their sparse factors
and FP6_MULNR by v. -/
theorem fp6Products : Obligations.Fp6Products := by
  intro s d a b
  refine ⟨fun hd ha => ⟨fun hb => ?mul, ?sqr, ?mulnr⟩, fun hd ha => ⟨fun hb => ?mulby01, ?mulby1⟩⟩
  case mul =>
    exact writes_fp6 _ rfl (ok_DAB rfl rfl hd ha hb) fun _ h => h.trans (Fp6.mul_eq _ _)
  case sqr =>
    exact writes_fp6 _ rfl (ok_DA rfl rfl hd ha) fun _ h => h.trans (Fp6.mul_eq _ _)
  case mulnr =>
    exact writes_fp6 _ rfl (ok_DA rfl rfl hd ha) fun _ h =>
      ⟨h.trans (Fp6.mulV_eq_rotate _), h.trans ((Fp6.mulV_eq _).trans (Fp6.mul_eq _ _))⟩
  case mulby01 =>
    exact writes_fp6 _ rfl (ok_mulby01 hd ha hb) fun _ h =>
      h.trans ((Fp6.mulBy01_eq _ _ _).trans (Fp6.mul_eq _ _))
  case mulby1 =>
    exact writes_fp6 _ rfl (ok_mulby1 hd ha) fun _ h =>
      h.trans ((Fp6.mulBy1_eq _ _).trans (Fp6.mul_eq _ _))

end Sys2Proof.Machine
end

section
/-! PROOFS. The products of Fp12 and the conjugate (44_fp12.md R265, R266, R268, R269, R271), and the
square on the cyclotomic subgroup (R267). -/

namespace Sys2Proof.Machine

/-! ### FP12_MUL, FP12_SQR, FP12_CONJ, FP12_MULBY014, FP12_MULBY034 -/

/-- The product with w² = v, where v is ⟨0, 1, 0⟩ (44_fp12.md R265). -/
theorem Fp12.mul_eq (x y : Fp12) : x.mul y =
    ⟨(x.c0.mul y.c0).add (Fp6.mul ⟨0, 1, 0⟩ (x.c1.mul y.c1)), (x.c0.mul y.c1).add (x.c1.mul y.c0)⟩ := by
  rw [Fp12.mul, Fp6.mulV_eq, Fp6.v]

/-- Settles O46: each command but FP12_CONJ writes a product of the ring Fp12, the two in place by their
sparse factors; the conjugate is the p⁶-power. -/
theorem fp12Products : Obligations.Fp12Products := by
  intro s d a b c
  refine ⟨fun hd ha => ⟨fun hb => ?mul, ?sqr, ?conj⟩, fun hd ha hb hc => ⟨?mulby014, ?mulby034⟩⟩
  case mul =>
    exact writes_fp12 _ rfl (ok_DAB rfl rfl hd ha hb) fun _ h => h.trans (Fp12.mul_eq _ _)
  case sqr =>
    exact writes_fp12 _ rfl (ok_DA rfl rfl hd ha) fun _ h => h.trans (Fp12.mul_eq _ _)
  case conj =>
    exact writes_fp12 (s.val12 a.toNat).conj rfl (ok_DA rfl rfl hd ha) fun _ h =>
      ⟨h, h.trans (Fp12.conj_eq _)⟩
  case mulby014 =>
    exact writes_fp12 _ rfl (ok_sparse (.inl rfl) hd ha hb hc) fun _ h => h.trans (Fp12.mul_eq _ _)
  case mulby034 =>
    exact writes_fp12 _ rfl (ok_sparse (.inr rfl) hd ha hb hc) fun _ h => h.trans (Fp12.mul_eq _ _)

/-! ### FP12_CYCSQR -/

/-- sq4 over Fp2, with ξ = 1 + u written out (44_fp12.md R267). -/
theorem Fp12.sq4_eq (x y : Fp2) :
    Fp12.sq4 x y = (⟨1, 1⟩ * y ^ 2 + x ^ 2, (x + y) ^ 2 - x ^ 2 - y ^ 2) := by
  rw [Fp12.sq4, mulXi_eq, xi, pow_two, pow_two, pow_two]

/-- p⁴ + 1 is p⁴ − p² + 1 and p², so an element of the cyclotomic subgroup meets the hypothesis of
`Fp12.cycSqr_eq`. -/
theorem Fp12.frob_four_mul_of_cyclotomic {a : Fp12} (h : a.npow (P ^ 4 - P ^ 2 + 1) = .one) :
    (a.frob 4).mul a = a.frob 2 := by
  have hle : P ^ 2 ≤ P ^ 4 := Nat.pow_le_pow_right p_pos (by decide)
  have hexp : P ^ 4 + 1 = P ^ 4 - P ^ 2 + 1 + P ^ 2 := by omega
  calc (a.frob 4).mul a = a.npow (P ^ 4 + 1) := by rw [Fp12.frob_eq, Fp12.npow]
    _ = (a.npow (P ^ 4 - P ^ 2 + 1)).mul (a.npow (P ^ 2)) := by rw [hexp, Fp12.npow_add]
    _ = a.frob 2 := by rw [h, Fp12.one_mul, Fp12.frob_eq]

/-- Settles O49: the command writes the formula, which on the cyclotomic subgroup is the square. -/
theorem cyclotomicSquare : Obligations.CyclotomicSquare := by
  rintro s d a x hd ha rfl
  refine writes_fp12 (s.val12 a.toNat).cycSqr rfl (ok_DA rfl rfl hd ha) fun t h =>
    ⟨?formula, fun hx => ?square⟩
  case formula => simp only [h, Fp12.cycSqr, Fp12.sq4_eq, mulXi_eq, xi]
  case square => exact h.trans (Fp12.cycSqr_eq (Fp12.frob_four_mul_of_cyclotomic hx))

end Sys2Proof.Machine
end

section
/-! PROOFS. The point commands of G1 and G2 (45_g1.md R301-R313, 46_g2.md R331-R339): each writes what its
procedure computes or answers what it decides, and a point on the curve stays on it. -/

namespace Sys2Proof.Machine

/-! ### DBL, ADD, NEG, AFFINE, MUL -/

/-- Settles O50: DBL_F computes the one triple that the rule allows. -/
theorem pointDoubling : Obligations.PointDoubling := fun _ _ _ =>
  ⟨fun hd ha => writes_g1 _ rfl (ok_DA rfl rfl hd ha) fun _ h => isDouble_iff.2 h,
    fun hd ha => writes_g2 _ rfl (ok_DA rfl rfl hd ha) fun _ h => isDouble_iff.2 h⟩

/-- Settles O51: ADD_F computes the one triple that the rule allows. -/
theorem pointAddition : Obligations.PointAddition := fun _ _ _ _ =>
  ⟨fun hd ha hb => writes_g1 _ rfl (ok_DAB rfl rfl hd ha hb) fun _ h => isSum_iff.2 h,
    fun hd ha hb => writes_g2 _ rfl (ok_DAB rfl rfl hd ha hb) fun _ h => isSum_iff.2 h⟩

/-- Settles O52: the inverse of each field makes AFF_F the normalisation of the rule. -/
theorem negationAndAffine : Obligations.NegationAndAffine := fun _ _ _ =>
  ⟨fun hd ha =>
      ⟨writes_g1 (negPt _) rfl (ok_DA rfl rfl hd ha) fun _ h => h,
        writes_g1 _ rfl (ok_DA rfl rfl hd ha) fun _ h => (isAffine_iff fp_inv_ok).2 h⟩,
    fun hd ha =>
      ⟨writes_g2 (negPt _) rfl (ok_DA rfl rfl hd ha) fun _ h => h,
        writes_g2 _ rfl (ok_DA rfl rfl hd ha) fun _ h => (isAffine_iff fp2_inv_ok).2 h⟩⟩

/-- MUL_F gives a multiple in its normal form (45_g1.md R304). -/
theorem isMultiple_normal_of_eq_mulPt {F : Type} [CommRing F] [DecidableEq F] {inv : F → F}
    (hi : ∀ z, z ≠ 0 → z * inv z = 1) {p r : Jac F} {k : Nat} (h : r = mulPt inv p k) :
    IsMultiple p k r ∧ (r = infinity ∨ r.z = 1) :=
  ⟨(isMultiple_iff hi).2 h, h ▸ mulPt_normal inv p k⟩

/-- Settles O53: the ladder over the raw scalar, whatever it holds, ends in the normalisation. -/
theorem scalarMultiplication : Obligations.ScalarMultiplication := fun _ _ _ _ hb =>
  ⟨fun hd ha => writes_g1 _ rfl (ok_DAraw rfl rfl hd ha hb) fun _ =>
      isMultiple_normal_of_eq_mulPt fp_inv_ok,
    fun hd ha => writes_g2 _ rfl (ok_DAraw rfl rfl hd ha hb) fun _ =>
      isMultiple_normal_of_eq_mulPt fp2_inv_ok⟩

/-! ### ISZERO, ONCURVE, INSUB, EQ -/

/-- A predicate whose answer `r` says whether `p` holds. -/
theorem exists_decides_iff {i : Instr} {s : State} {r : Bool} {p : Prop}
    (hx : exec i s = completes i s fun _ => { result := r }) (hok : firstStop i s = none)
    (hp : r = true ↔ p) : ∃ r, Decides i s r ∧ (r = true ↔ p) :=
  ⟨r, decides_of r hx hok, hp⟩

/-- The last slot of a G1 triple holds 0 exactly when Z = 0 (45_g1.md R310). -/
theorem allZero_iff_readG1_z {s : State} {a : Nat} (h : Canonical s a 3) :
    s.allZero (a + 2) 1 = true ↔ (s.readG1 a).z = 0 := by
  rw [allZero_fp (h.lt (by decide)), decide_eq_true_iff, State.readG1]

/-- The last two slots of a G2 triple hold 0 exactly when Z = 0 (46_g2.md R336). -/
theorem allZero_iff_readG2_z {s : State} {a : Nat} (h : Canonical s a 6) :
    s.allZero (a + 4) 2 = true ↔ (s.readG2 a).z = 0 := by
  rw [allZero_fp2 (h.sub (by decide)), decide_eq_true_iff, State.readG2]

/-- Settles O54, predicate by predicate. -/
theorem pointPredicates : Obligations.PointPredicates := by
  intro s a b
  refine ⟨fun ha => ⟨?iszero1, ?oncurve1, ?insub1, fun hb => ?eq1⟩,
    fun ha => ⟨?iszero2, ?oncurve2, ?insub2, fun hb => ?eq2⟩⟩
  case iszero1 => exact exists_decides_iff rfl (ok_A rfl rfl ha) (allZero_iff_readG1_z ha.2)
  case oncurve1 => exact exists_decides_iff rfl (ok_A rfl rfl ha) onCurve1_iff
  case insub1 => exact exists_decides_iff rfl (ok_A rfl rfl ha) (inSubgroup_iff fp_inv_ok)
  case eq1 => exact exists_decides_iff rfl (ok_AB rfl rfl ha hb) eqPt_iff
  case iszero2 => exact exists_decides_iff rfl (ok_A rfl rfl ha) (allZero_iff_readG2_z ha.2)
  case oncurve2 => exact exists_decides_iff rfl (ok_A rfl rfl ha) onCurve2_iff
  case insub2 => exact exists_decides_iff rfl (ok_A rfl rfl ha) (inSubgroup_iff fp2_inv_ok)
  case eq2 => exact exists_decides_iff rfl (ok_AB rfl rfl ha hb) eqPt_iff

/-! ### Points on the curve -/

/-- A command that completed without error left the slot integers that it writes. -/
theorem holdsInts_of_next {i : Instr} {s t : State} {slot : Nat} {l : List Nat}
    (hx : exec i s = completes i s fun _ => { writes := putInts slot l }) (hl : ∀ v ∈ l, v < P)
    (ht : exec i s = .next t) (herr : t.status.err = false) : HoldsInts t slot l := by
  obtain ⟨-, rfl⟩ := completes_next (hx.symm.trans ht) herr
  exact holdsInts_of_em (s := s) rfl fun v hv => (hl v hv).trans p_lt_r

theorem onCurve1_of_next {i : Instr} {s t : State} {slot : Nat} {p : Jac Fp}
    (hx : exec i s = completes i s fun _ => { writes := putG1 slot p }) (hp : onCurve b1 p = true)
    (ht : exec i s = .next t) (herr : t.status.err = false) : OnCurve1 (t.readG1 slot) := by
  have hh : HoldsInts t slot (intsG1 p) := holdsInts_of_next hx lt_intsG1 ht herr
  rw [hh.readG1]
  exact onCurve1_iff.1 hp

theorem onCurve2_of_next {i : Instr} {s t : State} {slot : Nat} {p : Jac Fp2}
    (hx : exec i s = completes i s fun _ => { writes := putG2 slot p }) (hp : onCurve b2 p = true)
    (ht : exec i s = .next t) (herr : t.status.err = false) : OnCurve2 (t.readG2 slot) := by
  have hh : HoldsInts t slot (intsG2 p) := holdsInts_of_next hx lt_intsG2 ht herr
  rw [hh.readG2]
  exact onCurve2_iff.1 hp

/-- Each G1 command that writes a point writes one on the curve, if its operands are. -/
theorem g1_writes_onCurve {s : State} {d a b : SlotNo} {i : Instr}
    (hi : i ∈ [Instr.g1Dbl d a, .g1Neg d a, .g1Affine d a, .g1Mul d a b, .g1Add d a b])
    (ha : onCurve b1 (s.readG1 a.toNat) = true)
    (hb : i = .g1Add d a b → onCurve b1 (s.readG1 b.toNat) = true) :
    ∃ p, exec i s = completes i s (fun _ => { writes := putG1 d.toNat p }) ∧ onCurve b1 p = true := by
  simp only [List.mem_cons, List.not_mem_nil, or_false] at hi
  rcases hi with rfl | rfl | rfl | rfl | rfl
  · exact ⟨_, rfl, onCurve_dblPt ha⟩
  · exact ⟨_, rfl, onCurve_negPt.trans ha⟩
  · exact ⟨_, rfl, onCurve_affPt fp_inv_ok ha⟩
  · exact ⟨_, rfl, onCurve_mulPt fp_inv_ok ha _⟩
  · exact ⟨_, rfl, onCurve_addPt ha (hb rfl)⟩

/-- Each G2 command that writes a point writes one on the curve, if its operands are. -/
theorem g2_writes_onCurve {s : State} {d a b : SlotNo} {i : Instr}
    (hi : i ∈ [Instr.g2Dbl d a, .g2Neg d a, .g2Affine d a, .g2Mul d a b, .g2Add d a b])
    (ha : onCurve b2 (s.readG2 a.toNat) = true)
    (hb : i = .g2Add d a b → onCurve b2 (s.readG2 b.toNat) = true) :
    ∃ p, exec i s = completes i s (fun _ => { writes := putG2 d.toNat p }) ∧ onCurve b2 p = true := by
  simp only [List.mem_cons, List.not_mem_nil, or_false] at hi
  rcases hi with rfl | rfl | rfl | rfl | rfl
  · exact ⟨_, rfl, onCurve_dblPt ha⟩
  · exact ⟨_, rfl, onCurve_negPt.trans ha⟩
  · exact ⟨_, rfl, onCurve_affPt fp2_inv_ok ha⟩
  · exact ⟨_, rfl, onCurve_mulPt fp2_inv_ok ha _⟩
  · exact ⟨_, rfl, onCurve_addPt ha (hb rfl)⟩

/-- Settles O55: what was written is what was computed, and the procedures keep to the curve. -/
theorem pointsStayOnCurve : Obligations.PointsStayOnCurve := by
  intro s t d a b
  refine ⟨fun i hi ht herr ha hb => ?g1, fun i hi ht herr ha hb => ?g2⟩
  case g1 =>
    obtain ⟨p, hx, hp⟩ := g1_writes_onCurve hi (onCurve1_iff.2 ha) fun h => onCurve1_iff.2 (hb h)
    exact onCurve1_of_next hx hp ht herr
  case g2 =>
    obtain ⟨p, hx, hp⟩ := g2_writes_onCurve hi (onCurve2_iff.2 ha) fun h => onCurve2_iff.2 (hb h)
    exact onCurve2_of_next hx hp ht herr

end Sys2Proof.Machine
end

section
/-! PROOFS. LINE_DBL and LINE_ADD (47_pairing.md R362-R365): the coefficients of the two lines, and what
the commands leave. -/

namespace Sys2Proof.Machine

/-! ### The lines -/

/-- The tangent line and 2·T in the words of its rule (47_pairing.md R362). -/
theorem lineDouble_eq (p : Jac Fp2) (xp yp : Fp) : lineDouble p xp yp =
    (⟨3 * p.x ^ 3 - 2 * p.y ^ 2,
      ⟨-(3 * (p.x ^ 2 * p.z ^ 2)).re * xp, -(3 * (p.x ^ 2 * p.z ^ 2)).im * xp⟩,
      ⟨(2 * (p.y * p.z ^ 3)).re * yp, (2 * (p.y * p.z ^ 3)).im * yp⟩⟩, dblPt p) := by
  simp only [lineDouble, scale, QuadraticAlgebra.re_neg, QuadraticAlgebra.im_neg, pow_two, pow_three' p.x,
    pow_three p.z]

/-- The chord line and T + Q in the words of its rule (47_pairing.md R363). -/
theorem lineAddition_eq (p : Jac Fp2) (xq yq : Fp2) (xp yp : Fp) : lineAddition p xq yq xp yp =
    let h := xq * p.z ^ 2 - p.x
    let r := yq * p.z ^ 3 - p.y
    (⟨r * xq - yq * (h * p.z), ⟨-r.re * xp, -r.im * xp⟩, ⟨(h * p.z).re * yp, (h * p.z).im * yp⟩⟩,
      addPt p ⟨xq, yq, 1⟩) := by
  simp only [lineAddition, scale, QuadraticAlgebra.re_neg, QuadraticAlgebra.im_neg, pow_two, pow_three p.z]

/-! ### The commands -/

theorem exec_lineDbl (d a b : SlotNo) (s : State) : exec (.lineDbl d a b) s =
    completes (.lineDbl d a b) s fun _ =>
      let lt := lineDouble (s.readG2 a.toNat) (s.val1 b.toNat) (s.val1 (b.toNat + 1))
      { writes := putLine d.toNat lt.1 ++ putG2 a.toNat lt.2 } := rfl

theorem exec_lineAdd (d a b c : SlotNo) (s : State) : exec (.lineAdd d a b c) s =
    completes (.lineAdd d a b c) s fun _ =>
      let lt := lineAddition (s.readG2 a.toNat) (s.val2 c.toNat) (s.val2 (c.toNat + 2))
        (s.val1 b.toNat) (s.val1 (b.toNat + 1))
      { writes := putLine d.toNat lt.1 ++ putG2 a.toNat lt.2 } := rfl

theorem firstStop_lineDbl {s : State} {d a b : SlotNo} (hd : Fits s d 6) (ha : Typed s a 6)
    (hb : Typed s b 2) : firstStop (.lineDbl d a b) s = none := by
  refine firstStop_none.2 ⟨rfl, ?_⟩
  simp only [operandsOf, List.forall_mem_cons]
  exact ⟨ok_destD hd, ok_io ha, ok_input hb, List.forall_mem_nil _⟩

theorem firstStop_lineAdd {s : State} {d a b c : SlotNo} (hd : Fits s d 6) (ha : Typed s a 6)
    (hb : Typed s b 2) (hc : Typed s c 4) : firstStop (.lineAdd d a b c) s = none := by
  refine firstStop_none.2 ⟨rfl, ?_⟩
  simp only [operandsOf, List.forall_mem_cons]
  exact ⟨ok_destD hd, ok_io ha, ok_input hb, ok_input hc, List.forall_mem_nil _⟩

/-- Settles O56: `line_completes` says what a line command leaves, T winning where D and A overlap; the
line and the new T are those of `lineDouble_eq` and `lineAddition_eq`. -/
theorem lineSteps : Obligations.LineSteps := by
  rintro s d a b c p xp yp xq yq hd ha hb rfl rfl rfl rfl rfl lineIs
  refine ⟨?dbl, fun hc => ?add⟩
  case dbl =>
    obtain ⟨t, hx, hdone, hkept, hcd, hca, hT, hline⟩ :=
      line_completes ((exec_lineDbl d a b s).trans (by rw [lineDouble_eq])) (firstStop_lineDbl hd ha hb)
    exact ⟨t, hx, hdone, hkept, hcd, hca, isDouble_iff.2 hT, hline⟩
  case add =>
    obtain ⟨t, hx, hdone, hkept, hcd, hca, hT, hline⟩ :=
      line_completes ((exec_lineAdd d a b c s).trans (by rw [lineAddition_eq])) (firstStop_lineAdd hd ha hb hc)
    exact ⟨t, hx, hdone, hkept, hcd, hca, isSum_iff.2 hT, hline⟩

end Sys2Proof.Machine
end

section
/-! PROOFS. The Miller loop of one pair (47_pairing.md R366), and the batching law (R372). -/

namespace Sys2Proof.Machine

/-! ### One pair: the running point and the value -/

/-- A doubling step of the pair `w` at the running point `r.1` and the value `r.2`. -/
def doubleOne (w : Work) (r : Jac Fp2 × Fp12) : Jac Fp2 × Fp12 :=
  let lt := lineDouble r.1 w.xp w.yp
  (lt.2, r.2.sqr.mul lt.1.elem)

/-- An addition step of the pair `w` at the running point `r.1` and the value `r.2`. -/
def addOne (w : Work) (r : Jac Fp2 × Fp12) : Jac Fp2 × Fp12 :=
  let lt := lineAddition r.1 w.xq w.yq w.xp w.yp
  (lt.2, r.2.mul lt.1.elem)

/-- The state of the loop that works on the pair `w` alone. -/
def soleWork (w : Work) (r : Jac Fp2 × Fp12) : List Work × Fp12 := ([{ w with t := r.1 }], r.2)

theorem doubleAll_soleWork (w : Work) (r : Jac Fp2 × Fp12) :
    doubleAll (soleWork w r).1 (soleWork w r).2.sqr = soleWork w (doubleOne w r) := rfl

theorem addAll_soleWork (w : Work) (r : Jac Fp2 × Fp12) :
    addAll (soleWork w r).1 (soleWork w r).2 = soleWork w (addOne w r) := rfl

/-- A map that commutes with the two steps commutes with the loop. -/
theorem ladder_map {α β : Type} {double add : α → α} {double' add' : β → β} (φ : α → β)
    (hd : ∀ r, double' (φ r) = φ (double r)) (ha : ∀ r, add' (φ r) = φ (add r)) (k n : Nat) (r : α) :
    ladder double' add' k n (φ r) = φ (ladder double add k n r) := by
  induction n generalizing r with
  | zero => rfl
  | succ n ih => rw [ladder, ladder, hd, ha, ← apply_ite φ, ih]

theorem millerWork_soleWork (n : Nat) (w : Work) (r : Jac Fp2 × Fp12) :
    millerWork n (soleWork w r) = soleWork w (ladder (doubleOne w) (addOne w) XABS n r) :=
  ladder_map (double' := fun wf => doubleAll wf.1 wf.2.sqr) (add' := fun wf => addAll wf.1 wf.2)
    (soleWork w) (doubleAll_soleWork w) (addAll_soleWork w) XABS n r

/-- The work of a pair of finite points, from their affine forms (47_pairing.md R366, step 1). -/
theorem workOf_finite {p pa : Jac Fp} {q qa : Jac Fp2} (hp : p.z ≠ 0) (hq : q.z ≠ 0) (hpa : IsAffine p pa)
    (hqa : IsAffine q qa) : workOf p q = some ⟨pa.x, pa.y, qa.x, qa.y, ⟨qa.x, qa.y, 1⟩⟩ := by
  rw [(isAffine_iff fp_inv_ok).1 hpa, (isAffine_iff fp2_inv_ok).1 hqa, workOf, if_neg (not_or.2 ⟨hp, hq⟩)]

theorem millerLoop_single {p : Jac Fp} {q : Jac Fp2} {w : Work} (h : workOf p q = some w) :
    millerLoop [(p, q)] = (ladder (doubleOne w) (addOne w) XABS 63 (w.t, .one)).2.conj := by
  have hwork : [(p, q)].filterMap (fun pq => workOf pq.1 pq.2) = [w] := List.filterMap_cons_some h
  have hrun := millerWork_soleWork 63 w (w.t, .one)
  rw [millerLoop_eq, hwork]
  exact congrArg (fun r => r.2.conj) hrun

/-- The steps of the loop on the pair `w`, value and running point apart. -/
theorem steps_of_running {w : Work} {S : Nat → Jac Fp2 × Fp12} {i : Nat}
    (h : S i = if XABS.testBit i then addOne w (doubleOne w (S (i + 1))) else doubleOne w (S (i + 1))) :
    let dbl := lineDouble (S (i + 1)).1 w.xp w.yp
    let g := ((S (i + 1)).2.mul (S (i + 1)).2).mul dbl.1.elem
    if XABS.testBit i then
      let add := lineAddition dbl.2 w.xq w.yq w.xp w.yp
      (S i).2 = g.mul add.1.elem ∧ (S i).1 = add.2
    else (S i).2 = g ∧ (S i).1 = dbl.2 := by
  intro dbl g
  by_cases hb : XABS.testBit i = true
  · rw [if_pos hb] at h ⊢
    exact ⟨congrArg Prod.snd h, congrArg Prod.fst h⟩
  · rw [if_neg hb] at h ⊢
    exact ⟨congrArg Prod.snd h, congrArg Prod.fst h⟩

/-- The values and the running points of the loop on the pair `w`, from its start to its end. -/
theorem exists_running (w : Work) : ∃ (f : Nat → Fp12) (T : Nat → Jac Fp2), f 63 = .one ∧ T 63 = w.t ∧
    (∀ i < 63,
      let dbl := lineDouble (T (i + 1)) w.xp w.yp
      let g := ((f (i + 1)).mul (f (i + 1))).mul dbl.1.elem
      if XABS.testBit i then
        let add := lineAddition dbl.2 w.xq w.yq w.xp w.yp
        f i = g.mul add.1.elem ∧ T i = add.2
      else f i = g ∧ T i = dbl.2) ∧
    (ladder (doubleOne w) (addOne w) XABS 63 (w.t, .one)).2 = f 0 := by
  obtain ⟨S, hstart, hstep, hend⟩ := ladder_exists (doubleOne w) (addOne w) XABS 63 (w.t, .one)
  exact ⟨fun i => (S i).2, fun i => (S i).1, congrArg Prod.snd hstart, congrArg Prod.fst hstart,
    fun i hi => steps_of_running (hstep i hi), congrArg Prod.snd hend.symm⟩

/-- Settles O57: the sequences are the running states of the loop on the one pair. -/
theorem millerLoopSteps : Obligations.MillerLoopSteps := by
  intro p pa q qa hp hq hpa hqa
  have hloop := millerLoop_single (workOf_finite hp hq hpa hqa)
  obtain ⟨f, T, hf, hT, hstep, hend⟩ := exists_running ⟨pa.x, pa.y, qa.x, qa.y, ⟨qa.x, qa.y, 1⟩⟩
  exact ⟨f, T, hf, hT, hstep, by rw [hloop, hend]⟩

/-! ### Lists of pairs -/

/-- Settles O58, from the laws of the Miller loop; the final exponentiation is multiplicative. -/
theorem batching : Obligations.Batching := by
  refine ⟨fun l₁ l₂ => ⟨millerLoop_append l₁ l₂, ?final, millerLoop_perm⟩, fun _ _ => millerLoop_infinite,
    millerLoop_nil⟩
  case final => rw [millerLoop_append, Fp12.finalExp_mul]

end Sys2Proof.Machine
end

section
/-! PROOFS. MILLER, PAIR and FINALEXP (47_pairing.md R367-R370): the checks of the point arrays, what the
commands write, and the final exponentiation by its easy and its hard part. -/

namespace Sys2Proof.Machine

/-! ### MILLER and PAIR -/

/-- When the checks of the points pass (60_exceptions.md R407-R409). -/
theorem pairingError_none {s : State} {a b n : Nat} {chk : Bool} : pairingError s a b n chk = none ↔
    (∀ k < n, OnCurve1 (s.readG1 (a + 3 * k)) ∧ OnCurve2 (s.readG2 (b + 6 * k))) ∧
    (chk = true → ∀ k < n, InSubgroup (s.readG1 (a + 3 * k)) ∧ InSubgroup (s.readG2 (b + 6 * k))) := by
  rw [pairingError, Option.or_eq_none_iff, curveError_none]
  refine and_congr Iff.rfl ?_
  cases chk with
  | false => simp
  | true => rw [if_pos rfl, subgroupError_none]; simp

theorem pairingCommand_of_none {i : Instr} {s : State} {d a b : SlotNo} {n : Imm} {chk : Bool}
    {result : List (Jac Fp × Jac Fp2) → Fp12} (h : pairingError s a.toNat b.toNat n.toNat chk = none) :
    pairingCommand i s d a b n chk result = completes i s fun _ =>
      { writes := put12 d.toNat (result (s.readPairs a.toNat b.toNat n.toNat)) } := by
  rw [pairingCommand, h]
  rfl

/-- A list of the pairs read, point by point. -/
theorem readPairs_eq {s : State} {a b n : Nat} {l : List (Jac Fp × Jac Fp2)} (hlen : l.length = n)
    (h : ∀ k (hk : k < l.length), l[k] = (s.readG1 (a + 3 * k), s.readG2 (b + 6 * k))) :
    s.readPairs a b n = l := by
  refine List.ext_getElem (by simp [State.readPairs, hlen]) fun k _ hk => ?_
  simp [State.readPairs, h k hk]

/-- A command that computes one Fp12 element of the pairs, once the points pass their checks. -/
theorem writes_pairing {i : Instr} {s : State} {d a b : SlotNo} {n : Imm} {chk : Bool}
    {result : List (Jac Fp × Jac Fp2) → Fp12} (hx : exec i s = pairingCommand i s d a b n chk result)
    (hok : firstStop i s = none) (hpoints : pairingError s a.toNat b.toNat n.toNat chk = none) :
    Writes i s d 12 false fun t => t.val12 d.toNat = result (s.readPairs a.toNat b.toNat n.toNat) :=
  writes_fp12 _ (hx.trans (pairingCommand_of_none hpoints)) hok fun _ h => h

/-- Settles O59: the two commands differ in what they compute of the pairs only. -/
theorem pairing : Obligations.Pairing := by
  intro s d a b n chk l hd ha hb hlen hl
  have hpairs : s.readPairs a.toNat b.toNat n.toNat = l := readPairs_eq hlen fun k hk => (hl k hk).1
  have hpoint : ∀ k < n.toNat, OnCurve1 (s.readG1 (a.toNat + 3 * k)) ∧ OnCurve2 (s.readG2 (b.toNat + 6 * k)) ∧
      (chk = true → InSubgroup (s.readG1 (a.toNat + 3 * k)) ∧ InSubgroup (s.readG2 (b.toNat + 6 * k))) := by
    intro k hk
    obtain ⟨hread, hpt⟩ := hl k (hlen.symm ▸ hk)
    rwa [hread] at hpt
  have hpoints : pairingError s a.toNat b.toNat n.toNat chk = none := by
    refine pairingError_none.2 ⟨fun k hk => ?curve, fun hchk k hk => ?subgroup⟩ <;>
      obtain ⟨hcurve1, hcurve2, hsub⟩ := hpoint k hk
    case curve => exact ⟨hcurve1, hcurve2⟩
    case subgroup => exact hsub hchk
  have hwf : (n == n) = true := beq_self_eq_true n
  rw [← hpairs]
  exact ⟨writes_pairing rfl (ok_pairing rfl hwf hd ha hb) hpoints,
    writes_pairing (result := fun pairs => finalExp (millerLoop pairs)) rfl
      (ok_pairing rfl hwf hd ha hb) hpoints⟩

/-! ### The final exponentiation -/

namespace Fp12

/-- f^(p⁶) / f, the first step of the easy part (47_pairing.md R368). -/
theorem conj_mul_inv (f : Fp12) : f.conj.mul f.inv = f.npow (P ^ 6 - 1) := by
  by_cases hf : f = .zero
  · rw [hf, inv_zero, mul_zero, zero_npow (by decide +kernel)]
  · have hconj : f.conj = (f.npow (P ^ 6 - 1)).mul f := by
      rw [conj_eq, ← npow, Nat.succ_eq_add_one, show P ^ 6 - 1 + 1 = P ^ 6 by decide +kernel]
    rw [hconj, mul_assoc, mul_inv hf, mul_one]

/-- f^(p²) · f, the second step of the easy part (47_pairing.md R368). -/
theorem frob_two_mul (f : Fp12) : (f.frob 2).mul f = f.npow (P ^ 2 + 1) := by
  rw [frob_eq, npow]

theorem finalExponent_eq : finalExponent = (P ^ 6 - 1) * (P ^ 2 + 1) * ((P ^ 4 - P ^ 2 + 1) / Q) := by
  decide +kernel

theorem finalExponent_mul_q : finalExponent * Q = P ^ 12 - 1 := by decide +kernel

theorem finalExponent_ne_zero : finalExponent ≠ 0 := by decide +kernel

/-- The easy part, then the hard part (47_pairing.md R368). -/
theorem finalExp_eq_easy_hard (f : Fp12) :
    finalExp f = (((f.conj.mul f.inv).frob 2).mul (f.conj.mul f.inv)).npow ((P ^ 4 - P ^ 2 + 1) / Q) := by
  rw [finalExp_eq, frob_two_mul, conj_mul_inv, ← npow_mul, ← npow_mul, finalExponent_eq,
    Nat.mul_assoc]

theorem finalExp_zero : finalExp zero = zero := by
  rw [finalExp_eq, zero_npow finalExponent_ne_zero]

/-- The result lies among the q-th roots of 1 (47_pairing.md R369). -/
theorem finalExp_npow_q {f : Fp12} (h : f ≠ zero) : (finalExp f).npow Q = one := by
  rw [finalExp_eq, ← npow_mul, finalExponent_mul_q, npow_order h]

end Fp12

/-- The hard part's exponent is whole (47_pairing.md R368). -/
theorem hardExponent_mod_q : (P ^ 4 - P ^ 2 + 1) % Q = 0 := by decide +kernel

theorem bits_finalExponent : finalExponent.log2 + 1 = 4314 := by decide +kernel

/-- Settles O60: the command writes FE of its operand. -/
theorem finalExponentiation : Obligations.FinalExponentiation := by
  rintro s d a f hd ha rfl
  refine writes_fp12 (finalExp _) rfl (ok_DA rfl rfl hd ha) fun t h => ?_
  rw [h]
  exact ⟨Fp12.finalExp_eq _, fun hf => by rw [hf, Fp12.finalExp_zero], Fp12.finalExp_npow_q,
    hardExponent_mod_q, bits_finalExponent, Fp12.finalExp_eq_easy_hard _⟩

end Sys2Proof.Machine
end

section
/-! PROOFS. The errors of a command word (60_exceptions.md R402, R403), and what the engine's turn runs
(R420). -/

namespace Sys2Proof.Machine

/-! ### The completion step -/

theorem engineTurn_busy {s : State} (h : s.status.busy = true) : s.engineTurn = s.runLatched := if_pos h

theorem engineTurn_idle {s : State} (h : s.status.busy = false) : s.engineTurn = .next s :=
  if_neg (by simp [h])

/-- The next step of a state placed by `withFetchWord` runs the word placed (log entry 15). -/
theorem step_withFetchWord (s : State) (w : Nat) :
    step (s.withFetchWord 64 w) = (s.latch (BitVec.ofNat 64 w)).runLatched := by
  have hword : BitVec.ofNat 64 (w % 2 ^ 64) = BitVec.ofNat 64 w := BitVec.eq_of_toNat_eq (by simp)
  rw [← hword]
  exact step_engine ⟨rfl, rfl⟩

/-- The completion step runs the command that LCMD holds (60_exceptions.md R420). -/
theorem step_of_decode_ok {s : State} {rest : List HostEvent} {i : Instr} (h : NextEngine s rest)
    (hi : decode s.lcmd = .ok i) : step s = exec i { s with inbox := rest } :=
  (step_engine h).trans (runLatched_ok hi)

/-- Settles O9: the engine's turn is `runLatched` while BUSY = 1 and nothing otherwise. -/
theorem stepRunsCommand : Obligations.StepRunsCommand := by
  refine ⟨fun s i hbusy hi => ⟨fun rest hin => ?_, fun hin => ?_⟩,
    fun s hidle => ⟨fun rest hin => ?_, fun hin => ?_⟩, fun s i w hi => ?_⟩
  · exact step_of_decode_ok ⟨hbusy, hin⟩ hi
  · rw [step_nil hin, engineTurn_busy hbusy, runLatched_ok hi]
  · rw [step_cons hin]
    exact engineTurn_idle hidle
  · rw [step_nil hin, engineTurn_idle hidle]
  · exact (step_withFetchWord s w).trans (runLatched_ok hi)

/-! ### ILLEGAL_OPCODE -/

/-- A word that is no command aborts (60_exceptions.md R402, R403). -/
theorem step_of_decode_error {s : State} {rest : List HostEvent} {e : DecodeError} (h : NextEngine s rest)
    (hd : decode s.lcmd = .error e) :
    step s = .next (State.abort { s with inbox := rest } (decodeReport e)) :=
  (step_engine h).trans (runLatched_error hd)

/-- Settles O4: the decoder answers ILLEGAL_OPCODE for exactly these opcodes. -/
theorem illegalOpcodes : Obligations.IllegalOpcodes :=
  ⟨fun _ _ h hop => step_of_decode_error h (decode_illegal_iff.2 hop),
    fun _ hop hd => hop (decode_illegal_iff.1 hd)⟩

/-! ### RESERVED_FIELD -/

/-- Bits 63:57 are examined first (60_exceptions.md R403.1). -/
theorem reservedField_of_rsv {u : FieldUse} {f : Fields} (h : f.rsv ≠ 0#7) : reservedField u f = some .x :=
  if_pos h

/-- CHK is examined after bits 63:57 (60_exceptions.md R403.2). -/
theorem reservedField_of_chk {u : FieldUse} {f : Fields} (h0 : f.rsv = 0#7) (h : f.chk = true)
    (hu : u.chk = false) : reservedField u f = some .x := by
  simp [reservedField, h0, h, hu]

/-- The 8-bit fields are examined in the order D, A, B, C, E, F (60_exceptions.md R403.3). -/
theorem reservedField_of_first {u : FieldUse} {w : Word} {before after : List FieldName} {fld : FieldName}
    (h0 : w.extractLsb' 57 7 = 0#7) (hchk : w.getLsbD 56 = true → u.chk = true)
    (hsplit : checkedFields = before ++ fld :: after)
    (hbefore : ∀ y ∈ before, usesField u y = true ∨ fieldByte w y = 0#8)
    (hunused : usesField u fld = false) (hne : fieldByte w fld ≠ 0#8) :
    reservedField u (fieldsOf w) = some fld := by
  rw [reserved_fields h0 hchk, List.find?_eq_some_iff_append]
  exact ⟨by simp [hunused, hne], before, after, hsplit, fun y hy => by simpa using hbefore y hy⟩

theorem reservedField_of_clear {u : FieldUse} {w : Word}
    (h0 : w.extractLsb' 57 7 = 0#7) (hchk : w.getLsbD 56 = true → u.chk = true)
    (hclear : ∀ y ∈ checkedFields, usesField u y = true ∨ fieldByte w y = 0#8) :
    reservedField u (fieldsOf w) = none := by
  rw [reserved_fields h0 hchk, List.find?_eq_none]
  exact fun y hy => by simpa [or_iff_not_imp_left] using hclear y hy

theorem step_of_reservedField {s : State} {rest : List HostEvent} {r : OpRow} {fld : FieldName}
    (h : NextEngine s rest) (hr : rowOf (s.lcmd.extractLsb' 0 8) = some r)
    (hf : reservedField r.uses (fieldsOf s.lcmd) = some fld) :
    step s = .next (State.abort { s with inbox := rest } { code := .reservedField, operand := fld }) :=
  step_of_decode_error h (decode_reserved hr hf)

theorem uses_chk_of_rowOf {op : BitVec 8} {r : OpRow} (hr : rowOf op = some r) :
    r.uses.chk = true ↔ r.op = 0x72#8 ∨ r.op = 0x74#8 :=
  uses_chk r (mem_of_rowOf hr).1

/-- The word of a CONST decodes whatever its id (log entry 18). -/
theorem decode_const {w : Word} {r : OpRow} (hr : rowOf (w.extractLsb' 0 8) = some r) (hop : r.op = 0x03#8)
    (hf : reservedField r.uses (fieldsOf w) = none) :
    decode w = .ok (.const (fieldByte w .d) (fieldByte w .e)) := by
  obtain ⟨-, hopw⟩ := mem_of_rowOf hr
  have hrow : rowOf 0x03#8 = some r := by rw [← hop, hopw, hr]
  have hbuild : r.build = fun f => .const f.d f.e := by
    obtain rfl := Option.some.inj hrow
    rfl
  exact decode_ok_iff.2 ⟨r, hr, hf, by rw [hbuild]; rfl⟩

/-- An undefined id of CONST is met after the fields (60_exceptions.md R403.4). -/
theorem step_of_const_reserved {s : State} {rest : List HostEvent} {d : SlotNo} {id : Imm}
    (h : NextEngine s rest) (hd : decode s.lcmd = .ok (.const d id)) (hid : constIdDefined id = false) :
    step s = .next (State.abort { s with inbox := rest } { code := .reservedField, operand := .e }) :=
  (step_of_decode_ok h hd).trans (exec_of_error (firstStop_const_reserved hid))

/-- Settles O5: one lemma above for each item of R403. -/
theorem reservedFields : Obligations.ReservedFields := by
  intro s rest r h hr
  have huses := uses_chk_of_rowOf hr
  refine ⟨fun hrsv => ?rsv, fun h0 hchk hop => ?chk, fun h0 hchk => ?fields⟩
  case rsv => exact step_of_reservedField h hr (reservedField_of_rsv hrsv)
  case chk =>
    obtain ⟨hmiller, hpair⟩ := hop
    have hunused : r.uses.chk = false := Bool.eq_false_iff.2 fun hset => (huses.1 hset).elim hmiller hpair
    exact step_of_reservedField h hr (reservedField_of_chk h0 hchk hunused)
  case fields =>
    have hchk := fun hset => huses.2 (hchk hset)
    refine ⟨fun before after fld hsplit hbefore hunused hne => ?first, fun hclear hop hid => ?const⟩
    case first =>
      exact step_of_reservedField h hr (reservedField_of_first h0 hchk hsplit hbefore hunused hne)
    case const =>
      exact step_of_const_reserved h (decode_const hr hop (reservedField_of_clear h0 hchk hclear))
        (constIdDefined_reserved hid)

end Sys2Proof.Machine
end

section
/-! PROOFS. The writes of CTRL (10_state.md R42; 60_exceptions.md R419), and what moves irq (R421). -/

namespace Sys2Proof.Machine

/-! ### The start -/

theorem writeCtrl_softReset {s : State} {v : Word} (h2 : v.getLsbD 2 = true) : s.writeCtrl v = s.softReset :=
  if_pos h2

theorem writeCtrl_start {s : State} {v : Word} (h2 : v.getLsbD 2 = false) (h0 : v.getLsbD 0 = true)
    (hb : s.status.busy = false) : s.writeCtrl v = State.latch { s with ie := v.getLsbD 1 } s.cmd :=
  (if_neg (ne_true_of_eq_false h2)).trans ((if_pos h0).trans (if_neg (ne_true_of_eq_false hb)))

/-- A start while BUSY = 1 is dropped (70_reset_and_hazards.md R447). -/
theorem writeCtrl_overrun {s : State} {v : Word} (h2 : v.getLsbD 2 = false) (h0 : v.getLsbD 0 = true)
    (hb : s.status.busy = true) :
    s.writeCtrl v = { s with ie := v.getLsbD 1, status := s.status.overrun } :=
  (if_neg (ne_true_of_eq_false h2)).trans ((if_pos h0).trans (if_pos hb))

theorem writeCtrl_ie {s : State} {v : Word} (h2 : v.getLsbD 2 = false) (h0 : v.getLsbD 0 = false) :
    s.writeCtrl v = { s with ie := v.getLsbD 1 } :=
  (if_neg (ne_true_of_eq_false h2)).trans (if_neg (ne_true_of_eq_false h0))

theorem step_writeCtrl {s : State} {v : Word} {rest : List HostEvent} (h : NextWrite s 0x008 v rest) :
    step s = .next (State.writeCtrl { s with inbox := rest } v) :=
  step_register h (by decide) (by decide)

theorem step_writeStatus {s : State} {v : Word} {rest : List HostEvent} (h : NextWrite s 0x010 v rest) :
    step s = .next { s with inbox := rest, status := s.status.writeOneToClear v } :=
  step_register h (by decide) (by decide)

/-- Settles O10, by the three things a write of CTRL with START does. -/
theorem start : Obligations.Start := by
  intro s v rest h h0
  rw [step_writeCtrl h]
  refine ⟨fun h2 hb => ?_, fun h2 hb => ?_, fun h2 => ⟨_, rfl, ?_⟩⟩
  · exact congrArg Host.Outcome.next (writeCtrl_start h2 h0 hb)
  · exact congrArg Host.Outcome.next (writeCtrl_overrun h2 h0 hb)
  · rw [writeCtrl_softReset h2]
    exact ⟨rfl, rfl, rfl⟩

/-! ### The interrupt -/

theorem irq_iff {s : State} : s.irq = true ↔ s.ie = true ∧ s.status.done = true := Bool.and_eq_true_iff

theorem irq_of_not_done {s : State} (h : s.status.done = false) : s.irq = false := by
  rw [State.irq, h, Bool.and_false]

theorem irq_of_done {s : State} (h : s.status.done = true) : s.irq = s.ie := by
  rw [State.irq, h, Bool.and_true]

/-- A completion, aborted or not, sets DONE and leaves IE (60_exceptions.md R420). -/
theorem runLatched_done {s t : State} (h : s.runLatched = .next t) : t.status.done = true ∧ t.ie = s.ie := by
  rcases runLatched_cases s with ⟨_, hx⟩ | ⟨_, _, -, -, hx, -⟩ | ⟨_, hx⟩
  · cases hx.symm.trans h
    exact ⟨rfl, rfl⟩
  · cases hx.symm.trans h
    exact ⟨rfl, rfl⟩
  · cases hx.symm.trans h

/-- A soft reset or an accepted start clears DONE (60_exceptions.md R421). -/
theorem writeCtrl_clears_done {s : State} {v : Word}
    (h : v.getLsbD 2 = true ∨ (v.getLsbD 0 = true ∧ s.status.busy = false)) :
    (s.writeCtrl v).status.done = false := by
  cases h2 : v.getLsbD 2 with
  | true => rw [writeCtrl_softReset h2]; rfl
  | false =>
    obtain ⟨h0, hb⟩ := h.resolve_left (ne_true_of_eq_false h2)
    rw [writeCtrl_start h2 h0 hb]
    rfl

/-- Every other write of CTRL moves IE and leaves DONE (60_exceptions.md R421). -/
theorem writeCtrl_keeps_done {s : State} {v : Word} (h2 : v.getLsbD 2 = false)
    (h : v.getLsbD 0 = false ∨ s.status.busy = true) :
    (s.writeCtrl v).ie = v.getLsbD 1 ∧ (s.writeCtrl v).status.done = s.status.done := by
  cases h0 : v.getLsbD 0 with
  | false => rw [writeCtrl_ie h2 h0]; exact ⟨rfl, rfl⟩
  | true =>
    have hb := h.resolve_left (by simp [h0])
    rw [writeCtrl_overrun h2 h0 hb]
    exact ⟨rfl, rfl⟩

/-- Settles O20, event by event of R421. -/
theorem interrupt : Obligations.Interrupt := by
  refine ⟨fun _ => irq_iff, rfl, fun s t hx => ?completion, fun s t v rest h hx => ?ctrl,
    fun s t v rest h hx => ?status, fun s t rest h hx => ?reset⟩
  case completion =>
    obtain ⟨hdone, hie⟩ := runLatched_done hx
    exact ⟨hdone, (irq_of_done hdone).trans hie⟩
  case ctrl =>
    cases (step_writeCtrl h).symm.trans hx
    refine ⟨fun hclear => ?_, fun h2 hkeep => ?_⟩
    · have hdone := writeCtrl_clears_done (s := { s with inbox := rest }) hclear
      exact ⟨hdone, irq_of_not_done hdone⟩
    · obtain ⟨hie, hdone⟩ := writeCtrl_keeps_done (s := { s with inbox := rest }) h2 hkeep
      exact ⟨by rw [State.irq, hie, hdone], hdone⟩
  case status =>
    cases (step_writeStatus h).symm.trans hx
    exact ⟨(Bool.and_assoc ..).symm, fun h1 => by simp [h1]⟩
  case reset =>
    cases (step_hardReset h).symm.trans hx
    exact ⟨rfl, rfl⟩

end Sys2Proof.Machine
end

section
/-! PROOFS. What every command answers (60_exceptions.md R411, R414, R420), and the checks that come
before a command computes, in the order of R409. -/

namespace Sys2Proof.Machine

/-! ### Answers -/

/-- Settles O21, by the three ways a command answers. -/
theorem execOutcomes : Obligations.ExecOutcomes := by
  intro i s
  rcases exec_cases i s with ⟨f, hstop, hx⟩ | ⟨e, hx⟩ | ⟨e, -, hx, -⟩
  · obtain ⟨rfl, hempty⟩ := firstStop_fault hstop
    exact .inr ⟨hx, hempty⟩
  · exact .inl ⟨_, hx, rfl, rfl, rfl, rfl, rfl, rfl, rfl, rfl, rfl, rfl, rfl⟩
  · exact .inl ⟨_, hx, rfl, rfl, rfl, sameControl_complete s e⟩

/-- Settles O23: a completion that reports an error is an abort. -/
theorem abortIsPrecise : Obligations.AbortIsPrecise := by
  intro s t hx herr
  rcases runLatched_cases s with ⟨e, h⟩ | ⟨i, e, -, -, h, -⟩ | ⟨f, h⟩
  · cases h.symm.trans hx
    exact ⟨rfl, errCode_range e.code⟩
  · cases h.symm.trans hx
    exact absurd herr (by simp)
  · cases h.symm.trans hx

/-! ### The checks that read no slot -/

theorem firstStop_of_earlyError {i : Instr} {s : State} {e : ErrReport}
    (h : earlyError i s.nslots = some e) : firstStop i s = some (.error e) := by
  simp [firstStop, h]

theorem aborted_of_error {i : Instr} {s : State} {e : ErrReport} (h : firstStop i s = some (.error e)) :
    ∃ t, exec i s = .next t ∧ Aborted s t e :=
  ⟨_, exec_of_error h, aborted_abort s e⟩

theorem earlyError_of_wordError {i : Instr} {n : Nat} {e : ErrReport} (h : wordError i = some e) :
    earlyError i n = some e := by
  simp [earlyError, h]

/-- Settles O26: the lengths are compared before any slot is read. -/
theorem lengthMismatch : Obligations.LengthMismatch := by
  intro s d a b n1 n2 chk hne i hi
  have hword : wordError i = some { code := .lengthMismatch, operand := .f } := by
    rcases List.mem_pair.1 hi with rfl | rfl <;> exact if_neg (by simpa [Instr.wellFormed] using hne)
  exact exec_of_error (firstStop_of_earlyError (earlyError_of_wordError hword))

/-- Settles O25: the operands are searched in the order of `operandsOf`. -/
theorem slotRange : Obligations.SlotRange := by
  intro i s before after o hwf hops hbefore hwidth hrange
  have hword : wordError i = none := if_pos hwf
  have hfirst : (operandsOf i).findSome? (·.rangeError s.nslots) =
      some { code := .slotRange, slot := o.base.toNat, operand := o.fld } :=
    List.findSome?_eq_some_iff.2
      ⟨before, o, after, hops, if_pos ⟨hwidth, hrange⟩, fun x hx => rangeError_none.2 (hbefore x hx)⟩
  exact aborted_of_error (firstStop_of_earlyError (by rw [earlyError, hword, hfirst]; rfl))

/-! ### The checks of input slots -/

/-- The only error of a check of input slots is a canonical operand not below p (60_exceptions.md R406). -/
theorem firstStop_error {i : Instr} {s : State} {e : ErrReport} (hearly : earlyError i s.nslots = none)
    (h : firstStop i s = some (.error e)) :
    ∃ o ∈ operandsOf i, o.isInput = true ∧ o.canonical = true ∧ ∃ k < o.width, ∃ v,
      s.em.readSlot (o.base.toNat + k) = some v ∧ P ≤ v.toNat := by
  rw [firstStop, hearly] at h
  obtain ⟨o, ho, h⟩ := List.exists_of_findSome?_eq_some h
  obtain ⟨ho, hin⟩ := mem_readOrder.1 ho
  obtain ⟨k, hk, h⟩ := List.exists_of_findSome?_eq_some h
  unfold Operand.slotStop at h
  split at h
  · simp at h
  · next v hv =>
    split at h
    · next hbad =>
      obtain ⟨hcanon, hge⟩ := hbad
      exact ⟨o, ho, hin, hcanon, k, List.mem_range.1 hk, v, hv, hge⟩
    · simp at h

/-- Settles O24: an empty input slot makes some check stop, and with no slot out of range no check stops
with an error. -/
theorem emptySlotFaults : Obligations.EmptySlotFaults := by
  intro i s hearly hlt hempty
  cases hstop : firstStop i s with
  | none =>
    obtain ⟨-, hok⟩ := firstStop_none.1 hstop
    obtain ⟨o, ho, hin, k, hk, hnone⟩ := hempty
    obtain ⟨-, hslots⟩ := hok o ho
    simpa [hnone] using hslots hin k hk
  | some stop =>
    cases stop with
    | error e =>
      obtain ⟨o, ho, hin, hcanon, k, hk, v, hv, hge⟩ := firstStop_error hearly hstop
      exact absurd (hlt o ho hin hcanon k hk v hv) hge.not_gt
    | fault f =>
      obtain ⟨rfl, -⟩ := firstStop_fault hstop
      exact exec_of_fault hstop

/-! ### NONCANONICAL -/

/-- The checked operands of `readOrder`, by one filter each. -/
theorem readOrder_eq (ops : List Operand) : readOrder ops =
    (ops.filter (fun o => o.isInput && o.canonical && o.fld != .d) ++
      ops.filter (fun o => o.isInput && o.canonical && o.fld == .d)) ++
      (ops.filter (·.isInput)).filter (fun o => !o.canonical) := by
  simp only [readOrder, List.filter_filter, Bool.and_assoc, Bool.and_comm, Bool.and_left_comm]

/-- The first slot of a checked operand that is not below p stops it (60_exceptions.md R406). -/
theorem inputStop_noncanonical {s : State} {o : Operand} {k : Nat} {v : SlotVal} (hcanon : o.canonical = true)
    (hbefore : Canonical s o.base.toNat k) (hk : k < o.width)
    (hv : s.em.readSlot (o.base.toNat + k) = some v) (hge : P ≤ v.toNat) :
    o.inputStop s.em = some (.error
      { code := .noncanonical, slot := o.base.toNat + k, operand := o.fld, index := o.indexOf k }) := by
  refine findSome?_range (fun j hj => slotStop_none.2 ?_) hk ?_
  · obtain ⟨x, hx, hlt, -⟩ := hbefore.read hj
    simp [hx, hlt]
  · simp [Operand.slotStop, hv, hcanon, hge]

/-- The first operand in the order of `readOrder` that stops decides, once the operands before it pass. -/
theorem firstStop_of_first_input {i : Instr} {s : State} {before after : List Operand} {o : Operand}
    {stop : Stop}
    (hearly : earlyError i s.nslots = none)
    (horder : readOrder (operandsOf i) = before ++ o :: after)
    (hbefore : ∀ x ∈ before, Canonical s x.base.toNat x.width) (ho : o.inputStop s.em = some stop) :
    firstStop i s = some stop := by
  rw [firstStop, hearly]
  exact List.findSome?_eq_some_iff.2
    ⟨before, o, after, horder, ho, fun x hx => inputStop_canonical (hbefore x hx)⟩

/-- FP_REDC of an integer not below p·R aborts (41_fp.md R160). -/
theorem exec_fpRedc_of_ge {s : State} {d a b : SlotNo} (hok : firstStop (.fpRedc d a b) s = none)
    (hge : P * R ≤ s.redcInput a b) : exec (.fpRedc d a b) s =
      .next (s.abort { code := .noncanonical, slot := b.toNat, operand := .b }) := by
  rw [exec_fpRedc, guarded_of_ok hok, if_pos hge]

/-- Settles O27: the checked operands come first in `readOrder`; FP_REDC makes its own check after. -/
theorem noncanonical : Obligations.Noncanonical := by
  refine ⟨fun i s before after o k v hearly horder hbefore hslots hk hv hge => ?checked,
    fun s d a b hd ha hb hge => ?redc⟩
  case checked =>
    have hcanon : o.canonical = true := by
      have hmem : o ∈ before ++ o :: after := by simp
      simp only [← horder, List.mem_append, List.mem_filter, Bool.and_eq_true] at hmem
      rcases hmem with ⟨-, ⟨-, hcanon⟩, -⟩ | ⟨-, ⟨-, hcanon⟩, -⟩ <;> exact hcanon
    have hread := readOrder_eq (operandsOf i)
    rw [horder, List.append_assoc, List.cons_append] at hread
    exact aborted_of_error (firstStop_of_first_input hearly hread hbefore
      (inputStop_noncanonical hcanon hslots hk hv hge))
  case redc =>
    rw [← redcInput_eq] at hge
    exact ⟨_, exec_fpRedc_of_ge (ok_redc hd ha hb) hge, aborted_abort _ _⟩

end Sys2Proof.Machine
end

section
/-! PROOFS. The checks of MILLER and PAIR on their points (60_exceptions.md R407-R409). -/

namespace Sys2Proof.Machine

/-! ### One check on every point -/

/-- The first point that fails a check, P_i before Q_i, as an error of code `c`: the common form of the
curve and the subgroup check. -/
def firstBadPoint (c : ErrCode) (ok1 ok2 : Nat → Bool) (a b n : Nat) : Option ErrReport :=
  (List.range n).findSome? fun i =>
    if !ok1 i then some { code := c, slot := a + 3 * i, operand := .a, index := i }
    else if !ok2 i then some { code := c, slot := b + 6 * i, operand := .b, index := i }
    else none

theorem curveError_eq (s : State) (a b n : Nat) : curveError s a b n =
    firstBadPoint .notOnCurve (fun i => onCurve b1 (s.readG1 (a + 3 * i)))
      (fun i => onCurve b2 (s.readG2 (b + 6 * i))) a b n := rfl

theorem subgroupError_eq (s : State) (a b n : Nat) : subgroupError s a b n =
    firstBadPoint .notInSubgroup (fun i => inSubgroup fpInv (s.readG1 (a + 3 * i)))
      (fun i => inSubgroup fp2Inv (s.readG2 (b + 6 * i))) a b n := rfl

section FirstBadPoint

variable {c : ErrCode} {ok1 ok2 : Nat → Bool} {a b n j : Nat}

theorem firstBadPoint_g1 (hj : j < n) (hbefore : ∀ k < j, ok1 k = true ∧ ok2 k = true)
    (hbad : ok1 j = false) : firstBadPoint c ok1 ok2 a b n =
      some { code := c, slot := a + 3 * j, operand := .a, index := j } :=
  findSome?_range (fun k hk => by simp [hbefore k hk]) hj (by simp [hbad])

theorem firstBadPoint_g2 (hj : j < n) (hbefore : ∀ k < j, ok1 k = true ∧ ok2 k = true)
    (hok : ok1 j = true) (hbad : ok2 j = false) : firstBadPoint c ok1 ok2 a b n =
      some { code := c, slot := b + 6 * j, operand := .b, index := j } :=
  findSome?_range (fun k hk => by simp [hbefore k hk]) hj (by simp [hok, hbad])

end FirstBadPoint

/-! ### The abort of MILLER and PAIR -/

theorem pairingCommand_of_some {i : Instr} {s : State} {d a b : SlotNo} {n : Imm} {chk : Bool}
    {result : List (Jac Fp × Jac Fp2) → Fp12} {e : ErrReport} (hok : firstStop i s = none)
    (h : pairingError s a.toNat b.toNat n.toNat chk = some e) :
    pairingCommand i s d a b n chk result = .next (s.abort e) := by
  rw [pairingCommand, guarded_of_ok hok, h]

/-- An error of the points aborts both commands, once the common checks pass. -/
theorem aborted_of_pairingError {s : State} {d a b : SlotNo} {n : Imm} {chk : Bool} {e : ErrReport}
    (hd : Fits s d 12) (ha : Typed s a (3 * n.toNat)) (hb : Typed s b (6 * n.toNat))
    (h : pairingError s a.toNat b.toNat n.toNat chk = some e) :
    ∀ i ∈ [Instr.miller d a b n n chk, .pair d a b n n chk], ∃ t, exec i s = .next t ∧ Aborted s t e := by
  intro i hi
  have hwf : (n == n) = true := beq_self_eq_true n
  refine ⟨s.abort e, ?_, aborted_abort s e⟩
  rcases List.mem_pair.1 hi with rfl | rfl
  · exact pairingCommand_of_some (ok_pairing rfl hwf hd ha hb) h
  · exact pairingCommand_of_some (result := fun pairs => finalExp (millerLoop pairs))
      (ok_pairing rfl hwf hd ha hb) h

theorem pairingError_of_curve {s : State} {a b n : Nat} {chk : Bool} {e : ErrReport}
    (h : curveError s a b n = some e) : pairingError s a b n chk = some e := by
  rw [pairingError, h, Option.some_or]

theorem pairingError_of_subgroup {s : State} {a b n : Nat} {e : ErrReport}
    (hcurve : curveError s a b n = none) (h : subgroupError s a b n = some e) :
    pairingError s a b n true = some e := by
  rw [pairingError, hcurve, if_pos rfl, h, Option.none_or]

/-- Settles O28: the curve check is the first check of the points. -/
theorem notOnCurve : Obligations.NotOnCurve := by
  intro s d a b n chk j hd ha hb hj hbefore i hi
  simp only [← onCurve1_iff, ← onCurve2_iff, Bool.not_eq_true] at hbefore ⊢
  refine ⟨fun hbad => ?_, fun hok hbad => ?_⟩
  · exact aborted_of_pairingError hd ha hb (pairingError_of_curve (firstBadPoint_g1 hj hbefore hbad)) i hi
  · exact aborted_of_pairingError hd ha hb (pairingError_of_curve (firstBadPoint_g2 hj hbefore hok hbad)) i hi

/-- Settles O29: with CHK = 1 the subgroup check follows the curve check of every point. -/
theorem notInSubgroup : Obligations.NotInSubgroup := by
  intro s d a b n j hd ha hb hj hcurve hbefore i hi
  have hcurve := curveError_none.2 hcurve
  simp only [← inSubgroup_iff fp_inv_ok, ← inSubgroup_iff fp2_inv_ok, Bool.not_eq_true] at hbefore ⊢
  refine ⟨fun hbad => ?_, fun hok hbad => ?_⟩
  · exact aborted_of_pairingError hd ha hb
      (pairingError_of_subgroup hcurve (firstBadPoint_g1 hj hbefore hbad)) i hi
  · exact aborted_of_pairingError hd ha hb
      (pairingError_of_subgroup hcurve (firstBadPoint_g2 hj hbefore hok hbad)) i hi

end Sys2Proof.Machine
end

section
/-! PROOFS. The resets (70_reset_and_hazards.md R440-R444): the values after a hardware reset, and what a
soft reset does to the slots. -/

namespace Sys2Proof.Machine

/-! ### Hardware reset -/

/-- An empty memory holds no slot value (10_state.md R33). -/
theorem readSlot_nil (slot : Nat) : Memory.readSlot [] slot = none := rfl

/-- The reset state is what a hardware reset leaves, so a claim about the second holds of the first. -/
theorem hardReset_reset : State.reset.hardReset = State.reset := rfl

/-- Settles O6: the values are those of `State.hardReset`, and the reset state is one (`hardReset_reset`). -/
theorem resetValues : Obligations.ResetValues := by
  unfold Obligations.ResetValues
  intro AtReset
  have hreset : ∀ s : State, AtReset s.hardReset := fun _ =>
    ⟨readSlot_nil, rfl, rfl, rfl, rfl, rfl, rfl, rfl⟩
  exact ⟨hardReset_reset ▸ hreset State.reset,
    fun _ _ h => ⟨_, step_hardReset h, hreset _, rfl, rfl, rfl⟩⟩

/-- Settles O7: the memory is empty, the parameters are the reference values, the flags are 0. -/
theorem resetInvariant : Obligations.ResetInvariant :=
  ⟨rfl, List.forall_mem_nil _, by decide, by decide, statusInv_zero⟩

/-! ### Soft reset -/

/-- With no command in flight a soft reset changes no slot (70_reset_and_hazards.md R444). -/
theorem softReset_em_idle {s : State} (hb : s.status.busy = false) : s.softReset.em = s.em :=
  if_neg (ne_true_of_eq_false hb)

theorem softReset_em_busy {s : State} (hb : s.status.busy = true) :
    s.softReset.em = s.abandonedMemory :=
  if_pos hb

/-- A latched word that is no command, or fails a check up to SLOT_RANGE, has no destination slots to
empty (70_reset_and_hazards.md R443). -/
theorem abandonedMemory_of_rejected {s : State}
    (h : ∀ i, decode s.lcmd = .ok i → earlyError i s.nslots ≠ none) : s.abandonedMemory = s.em := by
  unfold State.abandonedMemory
  split
  · rfl
  · next i hd =>
    split
    · rfl
    · next he => exact absurd he (h i hd)

/-- An abandoned command that passes these checks loses its destination slots and no other
(70_reset_and_hazards.md R443). -/
theorem readSlot_abandonedMemory {s : State} {i : Instr} (hd : decode s.lcmd = .ok i)
    (he : earlyError i s.nslots = none) (slot : Nat) :
    (InOutput i slot → s.abandonedMemory.readSlot slot = none) ∧
      (¬InOutput i slot → s.abandonedMemory.readSlot slot = s.em.readSlot slot) := by
  simp only [State.abandonedMemory, hd, he]
  exact readSlot_clearOutputs (operandsOf i) s.em slot

/-- Settles O17: the new memory is the old one while idle, and `State.abandonedMemory` while busy. -/
theorem softReset : Obligations.SoftReset := by
  intro s v rest h h2
  refine ⟨s.softReset.em, ?step, softReset_em_idle, fun hrejected => ?rejected,
    fun i hb hd he slot => ?abandoned⟩
  case step => exact (step_writeCtrl h).trans (congrArg Host.Outcome.next (writeCtrl_softReset h2))
  case rejected =>
    cases hb : s.status.busy with
    | false => exact softReset_em_idle hb
    | true => exact (softReset_em_busy hb).trans (abandonedMemory_of_rejected hrejected)
  case abandoned =>
    rw [softReset_em_busy hb]
    exact readSlot_abandonedMemory hd he slot

end Sys2Proof.Machine
end

section
/-! PROOFS. Host accesses that need no idle CORE: the slot window while BUSY = 1, and the writes of the
registers (70_reset_and_hazards.md R448-R450; 10_state.md R41-R47). -/

namespace Sys2Proof.Machine

/-! ### The slot window while BUSY = 1 -/

theorem writeWindow_busy {s : State} (hb : s.status.busy = true) (off : Nat) (v : Word) :
    s.writeWindow off v = { s with status := s.status.overrun } :=
  if_pos hb

theorem readWindow_busy {s : State} (hb : s.status.busy = true) (off : Nat) :
    s.readWindow off = .next { s with
      rdata := some (Config.freeRead s.draws)
      draws := s.draws + 1 } :=
  if_pos hb

/-- Settles O11: while BUSY = 1 the window does not look at the slot (`writeWindow_busy`,
`readWindow_busy`). -/
theorem slotAccessWhileBusy : Obligations.SlotAccessWhileBusy := by
  intro s off rest hb hlo hhi h8
  constructor
  case left =>
    intro v h
    rw [step_window h hlo hhi h8, writeWindow_busy (s := { s with inbox := rest }) hb]
    rfl
  case right =>
    intro h
    rw [step_readWindow h hlo hhi h8, readWindow_busy (s := { s with inbox := rest }) hb]
    exact ⟨_, _, rfl⟩

/-! ### Writes of the registers -/

/-- A write of STATUS in the words of 10_state.md R43: bit 1 clears DONE, bit 5 clears OVR. -/
theorem writeOneToClear_eq_ite (st : Status) (v : Word) : st.writeOneToClear v =
    { st with
      done := if v.getLsbD 1 then false else st.done
      ovr := if v.getLsbD 5 then false else st.ovr } := by
  unfold Status.writeOneToClear
  congr 1
  · cases v.getLsbD 1 <;> simp
  · cases v.getLsbD 5 <;> simp

theorem step_writeCmd {s : State} {v : Word} {rest : List HostEvent} (h : NextWrite s 0x018 v rest) :
    step s = .next { s with inbox := rest, cmd := v } :=
  step_register h (by decide) (by decide)

/-- CTRL, STATUS and CMD are the only registers a write reaches (10_state.md R40, R47). -/
theorem writeRegister_ignored {off : Nat} (hctrl : off ≠ 0x008) (hstatus : off ≠ 0x010)
    (hcmd : off ≠ 0x018) (s : State) (v : Word) : s.writeRegister off v = s :=
  (if_neg hctrl).trans ((if_neg hstatus).trans (if_neg hcmd))

/-- Settles O12, register by register. -/
theorem registerWrites : Obligations.RegisterWrites := by
  intro s off v rest h
  refine ⟨?ctrl, ?status, ?cmd, fun h8 hoff => ?ignored⟩
  case ctrl =>
    rintro rfl h0 h2
    exact (step_writeCtrl h).trans (congrArg Host.Outcome.next (writeCtrl_ie h2 h0))
  case status =>
    rintro rfl
    rw [step_writeStatus h, writeOneToClear_eq_ite]
  case cmd =>
    rintro rfl
    exact step_writeCmd h
  case ignored =>
    rw [step_register h (by omega) h8, writeRegister_ignored (by omega) (by omega) (by omega)]

end Sys2Proof.Machine
end
